-- ==== Sys2Proof/Word.lean ====
section
/-! DEFINITION. The word types of the block: a byte of buffer memory and a 32-bit register, command, result or event
word (00_scope.md R10, 30_encoding.md R80). Nothing in the block is signed (R10, R17). -/

namespace Sys2Proof

/-- A byte: 8 bits with values 0..255 (R10). -/
abbrev Byte := BitVec 8

/-- A 32-bit word: STATUS, RESULT, the two time stamps, NOW_MS, a command word, an event word (R22, R39, R80, R313). -/
abbrev Word := BitVec 32

end Sys2Proof
end

