-- ==== Sys2Proof/Syntax.lean ====
section
/-! DEFINITION. The 19 commands of the block as syntax, one constructor per row of spec/opcode_table.json (30_encoding.md
R84), each with the operands it uses and no others (R83: a field not listed for an opcode is ignored by it). -/

namespace Sys2Proof

/-- A buffer id of the fields BA and BB (R81): "TXB = 0, RXB = 1, AUX = 2; 3 is reserved". Id 3 "is decoded without error,
and the command that uses it raises CmdError(RANGE)" (R82), so it is a value of its own. -/
inductive BufId where
  | txb
  | rxb
  | aux
  | reserved
deriving DecidableEq, Repr

/-- The commands. Sizes, offsets and register numbers are naturals (R10, R82); `Instr.wf` bounds them by the 8 bits of
their fields. -/
inductive Instr where
  /-- BUF_RD (R290): BA = buf, N = off. -/
  | bufRd (buf : BufId) (off : Nat)
  /-- BUF_WR (R291): BA = buf, N = off, V = val. -/
  | bufWr (buf : BufId) (off : Nat) (val : Byte)
  /-- REG_RD (R292): N = reg. -/
  | regRd (reg : Nat)
  /-- FRAME_ENCODE (R112): BA = src, BB = dst, N = size. -/
  | frameEncode (src dst : BufId) (size : Nat)
  /-- FRAME_DECODE (R113): BA = src, BB = dst, N = size. -/
  | frameDecode (src dst : BufId) (size : Nat)
  /-- CHECK_SETUP (R137). -/
  | checkSetup
  /-- CHECK_COMPUTE (R138): BA = buf, V = off, N = len. -/
  | checkCompute (buf : BufId) (off len : Nat)
  /-- LAYOUT_MSGSIZE (R156): N = psize. -/
  | layoutMsgsize (psize : Nat)
  /-- LAYOUT_PAYSIZE (R157): N = msize. -/
  | layoutPaysize (msize : Nat)
  /-- MSG_ENCODE (R173): BA = buf, N = msize. -/
  | msgEncode (buf : BufId) (msize : Nat)
  /-- MSG_DECODE (R174): BA = buf, N = esize. -/
  | msgDecode (buf : BufId) (esize : Nat)
  /-- TX_CANSEND (R203). -/
  | txCansend
  /-- TX_SEND (R204): N = size. -/
  | txSend (size : Nat)
  /-- TX_STEP (R205). -/
  | txStep
  /-- TX_STOP (R212). -/
  | txStop
  /-- RX_START (R242). -/
  | rxStart
  /-- RX_STOP (R243). -/
  | rxStop
  /-- RX_STEP (R244). -/
  | rxStep
  /-- RX_WAKE (R258). -/
  | rxWake
deriving DecidableEq, Repr

end Sys2Proof
end

