-- ==== Sys2Proof/WellFormed.lean ====
section
/-! DEFINITION. Which terms of `Instr` are commands: every numeric operand fits the 8 bits of its field N or V
(30_encoding.md R81, R82). Operand values beyond a command's own limit, and buffer id 3, are no illegal encodings: the
command refuses them (R87). -/

namespace Sys2Proof

/-- A value fits an 8-bit field of the command word (R81). -/
def fitsField (n : Nat) : Bool := decide (n < 256)

/-- The command has an encoding (R81, R82). -/
def Instr.wf : Instr → Bool
  | .bufRd _ off => fitsField off
  | .bufWr _ off _ => fitsField off
  | .regRd reg => fitsField reg
  | .frameEncode _ _ size => fitsField size
  | .frameDecode _ _ size => fitsField size
  | .checkSetup => true
  | .checkCompute _ off len => fitsField off && fitsField len
  | .layoutMsgsize psize => fitsField psize
  | .layoutPaysize msize => fitsField msize
  | .msgEncode _ msize => fitsField msize
  | .msgDecode _ esize => fitsField esize
  | .txCansend => true
  | .txSend size => fitsField size
  | .txStep => true
  | .txStop => true
  | .rxStart => true
  | .rxStop => true
  | .rxStep => true
  | .rxWake => true

end Sys2Proof
end

