-- ==== Sys2Proof/Decode.lean ====
section
/-! DEFINITION. The decoder of 30_encoding.md R85, total on every 32-bit word and refusing by name, and after it the
encoder, from the field table R81, the operand table R83 and the opcode map R84. -/

namespace Sys2Proof

/-- `v[hi:lo]`: "the field of bits hi down to lo of v, zero-extended" (00_scope.md R10), as a natural. -/
def bits (v : Word) (hi lo : Nat) : Nat := v.toNat / 2 ^ lo % 2 ^ (hi + 1 - lo)

/-- The buffer id that a two-bit field names (R81). -/
def BufId.ofField (n : Nat) : BufId :=
  match n with
  | 0 => .txb
  | 1 => .rxb
  | 2 => .aux
  | _ => .reserved

/-- The two-bit field of a buffer id (R81). -/
def BufId.field : BufId → Nat
  | .txb => 0
  | .rxb => 1
  | .aux => 2
  | .reserved => 3

/-- Why a word is illegal (R86). -/
inductive DecodeError where
  /-- w[15:12] ≠ 0. -/
  | reservedBits
  /-- The OPC is not in the map of R84. -/
  | unassignedOpcode
deriving DecidableEq, Repr

/-- The command that an opcode of R84 selects, with its operands from the fields of R83, or nothing for an unassigned
opcode. -/
def decodeOpcode (opc ba bb n v : Nat) : Option Instr :=
  match opc with
  | 0x01 => some (.bufRd (.ofField ba) n)
  | 0x02 => some (.bufWr (.ofField ba) n (BitVec.ofNat 8 v))
  | 0x03 => some (.regRd n)
  | 0x10 => some (.frameEncode (.ofField ba) (.ofField bb) n)
  | 0x11 => some (.frameDecode (.ofField ba) (.ofField bb) n)
  | 0x20 => some .checkSetup
  | 0x21 => some (.checkCompute (.ofField ba) v n)
  | 0x30 => some (.layoutMsgsize n)
  | 0x31 => some (.layoutPaysize n)
  | 0x40 => some (.msgEncode (.ofField ba) n)
  | 0x41 => some (.msgDecode (.ofField ba) n)
  | 0x50 => some .txCansend
  | 0x51 => some (.txSend n)
  | 0x52 => some .txStep
  | 0x53 => some .txStop
  | 0x60 => some .rxStart
  | 0x61 => some .rxStop
  | 0x62 => some .rxStep
  | 0x63 => some .rxWake
  | _ => none

/-- Decode of R85: the reserved field is checked before the opcode is used. -/
def decode (w : Word) : Except DecodeError Instr :=
  if bits w 15 12 ≠ 0 then .error .reservedBits
  else
    match decodeOpcode (bits w 7 0) (bits w 9 8) (bits w 11 10) (bits w 23 16) (bits w 31 24) with
    | some i => .ok i
    | none => .error .unassignedOpcode

/-- The OPC of a command (R84). -/
def Instr.opcode : Instr → Nat
  | .bufRd _ _ => 0x01
  | .bufWr _ _ _ => 0x02
  | .regRd _ => 0x03
  | .frameEncode _ _ _ => 0x10
  | .frameDecode _ _ _ => 0x11
  | .checkSetup => 0x20
  | .checkCompute _ _ _ => 0x21
  | .layoutMsgsize _ => 0x30
  | .layoutPaysize _ => 0x31
  | .msgEncode _ _ => 0x40
  | .msgDecode _ _ => 0x41
  | .txCansend => 0x50
  | .txSend _ => 0x51
  | .txStep => 0x52
  | .txStop => 0x53
  | .rxStart => 0x60
  | .rxStop => 0x61
  | .rxStep => 0x62
  | .rxWake => 0x63

/-- The command word with these fields and RSV = 0 (R81). -/
def commandWord (opc ba bb n v : Nat) : Word :=
  BitVec.ofNat 32 (opc + ba * 2 ^ 8 + bb * 2 ^ 10 + n * 2 ^ 16 + v * 2 ^ 24)

/-- The word of a command: its fields from R83, and 0 "in every field the command ignores" (R89). -/
def encode (i : Instr) : Word :=
  match i with
  | .bufRd b off => commandWord i.opcode b.field 0 off 0
  | .bufWr b off val => commandWord i.opcode b.field 0 off val.toNat
  | .regRd reg => commandWord i.opcode 0 0 reg 0
  | .frameEncode src dst size => commandWord i.opcode src.field dst.field size 0
  | .frameDecode src dst size => commandWord i.opcode src.field dst.field size 0
  | .checkSetup => commandWord i.opcode 0 0 0 0
  | .checkCompute b off len => commandWord i.opcode b.field 0 len off
  | .layoutMsgsize psize => commandWord i.opcode 0 0 psize 0
  | .layoutPaysize msize => commandWord i.opcode 0 0 msize 0
  | .msgEncode b msize => commandWord i.opcode b.field 0 msize 0
  | .msgDecode b esize => commandWord i.opcode b.field 0 esize 0
  | .txCansend => commandWord i.opcode 0 0 0 0
  | .txSend size => commandWord i.opcode 0 0 size 0
  | .txStep => commandWord i.opcode 0 0 0 0
  | .txStop => commandWord i.opcode 0 0 0 0
  | .rxStart => commandWord i.opcode 0 0 0 0
  | .rxStop => commandWord i.opcode 0 0 0 0
  | .rxStep => commandWord i.opcode 0 0 0 0
  | .rxWake => commandWord i.opcode 0 0 0 0

/-- The bits of the word that a command's decoding reads (R83, R85): OPC, RSV and the operand fields it uses. -/
def Instr.usedBits : Instr → Word
  | .bufRd _ _ => 0x00FFF3FF#32
  | .bufWr _ _ _ => 0xFFFFF3FF#32
  | .regRd _ => 0x00FFF0FF#32
  | .frameEncode _ _ _ => 0x00FFFFFF#32
  | .frameDecode _ _ _ => 0x00FFFFFF#32
  | .checkSetup => 0x0000F0FF#32
  | .checkCompute _ _ _ => 0xFFFFF3FF#32
  | .layoutMsgsize _ => 0x00FFF0FF#32
  | .layoutPaysize _ => 0x00FFF0FF#32
  | .msgEncode _ _ => 0x00FFF3FF#32
  | .msgDecode _ _ => 0x00FFF3FF#32
  | .txCansend => 0x0000F0FF#32
  | .txSend _ => 0x00FFF0FF#32
  | .txStep => 0x0000F0FF#32
  | .txStop => 0x0000F0FF#32
  | .rxStart => 0x0000F0FF#32
  | .rxStop => 0x0000F0FF#32
  | .rxStep => 0x0000F0FF#32
  | .rxWake => 0x0000F0FF#32

/-- What the decoder reads from a row's word of `nbits` bits, numbered as spec/opcode_table.json numbers them. A command
is one 32-bit word delivered as a word, so there is no byte order (R64, R80). -/
def decodeTableWord (nbits w : Nat) : Option Instr :=
  match decode (BitVec.ofNat 32 (w % 2 ^ nbits)) with
  | .ok i => some i
  | .error _ => none

end Sys2Proof
end

