-- ==== Sys2Proof/Config.lean ====
section
/-! DEFINITION. What an instance of the block fixes for its lifetime (00_scope.md R7, R9), and the FREE VALUES: opaque
constants, of which nothing can be proved, standing for the values that the spec leaves to the platform. -/

namespace Sys2Proof

/-- The configuration record of 00_scope.md R7: "every parameter is fixed for the lifetime of a model instance". KEY_LEN
is the length of `key`; PSM and BUF_CAP are derived below. -/
structure Config where
  /-- MSM, the largest Frame in bytes. -/
  msm : Nat
  /-- MAX_OUT, the largest data chunk one TX_STEP writes. -/
  maxOut : Nat
  /-- MAX_IN, the largest number of transport reads one RX_STEP makes. -/
  maxIn : Nat
  /-- WRITE_TIMEOUT_MS, the transmit deadline. -/
  writeTimeoutMs : Nat
  /-- READ_TIMEOUT_MS, the receive idle deadline. -/
  readTimeoutMs : Nat
  /-- POLL_PERIOD_MS, the relaxed re-arm delay while connected and idle. -/
  pollPeriodMs : Nat
  /-- DISCONNECTED_POLL_MS, the re-arm delay while the transport is down. -/
  disconnectedPollMs : Nat
  /-- BAUDRATE, the argument of the transport's begin. -/
  baudrate : Nat
  /-- KEY[0..KEY_LEN), the key memory of 20_memory.md R60 (3). -/
  key : List Byte
  /-- TX_MIN_HEADROOM, the write headroom that CanSend requires. -/
  txMinHeadroom : Nat
deriving DecidableEq, Repr

namespace Config

/-- MSG_MIN, the smallest Frame (R7, 42_message_layout.md R151). -/
def msgMin : Nat := 3

/-- CRC_SIZE, the check bytes in a Frame (R7, R151). -/
def crcSize : Nat := 2

/-- BUF_CAP = MSM + 1, the capacity of each of TXB, RXB and AUX (R7, 10_state.md R37). -/
def bufCap (c : Config) : Nat := c.msm + 1

/-- PSM = MSM - 3, the largest payload (R7, R152). -/
def psm (c : Config) : Nat := c.msm - 3

/-- KEY_LEN (R7). -/
def keyLen (c : Config) : Nat := c.key.length

/-- KeyValid: "true if and only if KEY_LEN ≥ 1" (41_integrity_check.md R131). -/
def keyValid (c : Config) : Bool := decide (1 ≤ c.keyLen)

/-- The legal ranges of 00_scope.md R7 and R8. BAUDRATE and the key have no bound there. TX_MIN_HEADROOM is fixed at
MSG_MIN by 44_transmitter.md R202. -/
def wf (c : Config) : Bool :=
  decide (3 ≤ c.msm) && decide (c.msm ≤ 253)
    && decide (1 ≤ c.maxOut) && decide (c.maxOut ≤ 255)
    && decide (1 ≤ c.maxIn) && decide (c.maxIn ≤ 255)
    && decide (c.writeTimeoutMs ≤ 2 ^ 31 - 1) && decide (c.readTimeoutMs ≤ 2 ^ 31 - 1)
    && decide (c.pollPeriodMs ≤ 2 ^ 30 - 1) && decide (c.disconnectedPollMs ≤ 2 ^ 30 - 1)
    && decide (c.txMinHeadroom = msgMin)

/-- TESTCFG, the configuration of every worked example of the spec (R9). DESIGN CHOICE (log 2): it is also the instance
that `State.reset` is a reset of, the only record the spec writes out; statements hold for every record. Unsafe where a
statement rests on these numbers. -/
def testCfg : Config :=
  { msm := 16, maxOut := 4, maxIn := 8, writeTimeoutMs := 100, readTimeoutMs := 50, pollPeriodMs := 10,
    disconnectedPollMs := 10, baudrate := 115200, key := [0x5A#8], txMinHeadroom := 3 }

/-! The free values. DESIGN CHOICE (log 3 to log 6): nothing constrains them, so that a theorem holds for every value.
Safe. -/

/-- The value that byte `off` of the buffer with store number `region` holds at reset: "each byte is an independent value
fixed at reset and kept until written" (10_state.md R47, 70_reset_and_hazards.md R352; log 3, log 4). -/
opaque freeResetByte (region off : Nat) : Byte

/-- A sample of NOW_MS that the state's list does not give: "a free 32-bit input, not assumed monotonic" (R39, U6; log 6). -/
opaque freeNow (k : Nat) : Word

/-- An answer of `T.connected()` that the state's list does not give (20_memory.md R67, U5; log 5). -/
opaque freeConnected (k : Nat) : Bool

/-- An answer of `T.availableForWrite()` that the state's list does not give (R68, U5; log 5). -/
opaque freeHeadroom (k : Nat) : Nat

/-- The draw behind the accepted count of `T.write` that the state's list does not give (R68, U5; log 5, log 8). -/
opaque freeAccept (k : Nat) : Nat

/-- An answer of `T.available()` that the state's list does not give (R69, U5; log 5). -/
opaque freeAvailable (k : Nat) : Nat

/-- A byte returned by `T.read()` that the state's list does not give (R69, U5; log 5). -/
opaque freeInByte (k : Nat) : Byte

end Config

end Sys2Proof
end

