-- ==== Sys2Proof/Machine/State.lean ====
section
/-! DEFINITION. Everything the spec gives the block to hold (10_state.md), as plain data, with the host's command list and
the environment's answers, which are inputs; the reasons of a stop; and the block right after reset (R47, R350). -/

namespace Sys2Proof.Machine

/-- A byte store of the block: the three buffers of 10_state.md R37, which commands name by a buffer id, and the internal
SCRATCH of R38, which no command can name. -/
inductive Region where
  | txb
  | rxb
  | aux
  | scratch
deriving DecidableEq, Repr

/-- TX_STATE, 2 bits, all four values legal (R27, 44_transmitter.md R200). -/
inductive TxState where
  | notSending
  | sendingStartDelimiter
  | sendingData
  | sendingEndDelimiter
deriving DecidableEq, Repr

/-- RX_LIFE, 3 bits (R31, 45_receiver.md R240). Values 5..7 are never written and have no constructor (log 15).
`delivering` exists only inside an RX_STEP. -/
inductive RxLife where
  | disabled
  | waitingForTransport
  | polling
  | accumulating
  | delivering
deriving DecidableEq, Repr

/-- RX_ACC, 2 bits (R32, 45_receiver.md R241). Value 3 is never written and has no constructor (log 15). -/
inductive RxAcc where
  | waitingForStart
  | waitingForData
  | readingData
deriving DecidableEq, Repr

/-- A call of the transport with the answer it got (00_scope.md R13, 20_memory.md R66-R70). -/
inductive TCall where
  /-- `T.connected()`. -/
  | connected (answer : Bool)
  /-- `T.availableForWrite()`. -/
  | availableForWrite (answer : Nat)
  /-- `T.write(offered)`, which accepted this many bytes. -/
  | write (offered : List Byte) (accepted : Nat)
  /-- `T.available()`. -/
  | available (answer : Nat)
  /-- `T.read()`. -/
  | read (answer : Byte)
  /-- `T.begin(baud)`. -/
  | beginLink (baud : Nat)
  /-- `T.end()`. -/
  | endLink
deriving DecidableEq, Repr

/-- Buffer memory (R37, R38): for each store the list of its written bytes as (offset, byte), offsets strictly rising. An
unlisted offset holds no byte of the list; what reading it gives is `Memory.unlisted` (log 3, log 14). -/
structure Memory where
  txb : List Host.Cell
  rxb : List Host.Cell
  aux : List Host.Cell
  scratch : List Host.Cell
deriving DecidableEq, Repr

/-- The block's edge to the transport and the clock. The lists named ...In are the answers to come, one per call or
sample, the first next; where a list is empty the answer is a free value of Config (log 5, log 6). -/
structure Link where
  /-- Samples of NOW_MS to come (R39). -/
  nowIn : List Word
  /-- Answers of `T.connected()` to come (R67). -/
  connectedIn : List Bool
  /-- Answers of `T.availableForWrite()` to come (R68). -/
  headroomIn : List Nat
  /-- The draws behind the counts that `T.write` accepts, to come (R68, log 8). -/
  acceptIn : List Nat
  /-- Answers of `T.available()` to come (R69). -/
  availableIn : List Nat
  /-- Bytes that `T.read()` returns, to come (R69). -/
  byteIn : List Byte
  /-- How many free values have been used: the MODEL's own counter. -/
  drawn : Nat
  /-- The transport calls the last command made, in order (R66, R73; log 9). -/
  calls : List TCall
  /-- The outbound stream since reset: the bytes `T.write` accepted, in acceptance order (R45, R71; log 10). -/
  outbound : List Byte
  /-- The inbound stream since reset as the block observed it: the bytes `T.read` returned (R45, R71; log 10). -/
  inbound : List Byte
deriving DecidableEq, Repr

/-- The state of the block and of its edge. -/
structure State where
  /-- The instance's configuration: constants that no command changes (R40; log 2). -/
  cfg : Config
  /-- STATUS: OK in bit 0, CERR in bits 7:4 (R23). -/
  status : Word
  /-- RESULT (R26). -/
  result : Word
  /-- TX_STATE (R27). -/
  txState : TxState
  /-- TX_SIZE (R28). -/
  txSize : BitVec 8
  /-- TX_SENT (R29). -/
  txSent : BitVec 8
  /-- TX_START_TIME (R30). -/
  txStartTime : Word
  /-- RX_LIFE (R31). -/
  rxLife : RxLife
  /-- RX_ACC (R32). -/
  rxAcc : RxAcc
  /-- RX_SIZE (R33). -/
  rxSize : BitVec 8
  /-- RX_LAST_TIME (R34). -/
  rxLastTime : Word
  /-- RX_POLL_TIME (R35). -/
  rxPollTime : Word
  /-- RX_ACTIVE (R36). -/
  rxActive : Bool
  /-- TXB, RXB, AUX and SCRATCH (R37, R38). -/
  mem : Memory
  /-- The transport and the clock (R39, R66-R71). -/
  link : Link
  /-- The event words of the last command's response, in emission order (R313, R317; log 9). -/
  events : List Word
  /-- The command words the host has issued and the block has not executed, the next one first (R73, R80; log 1). -/
  pending : List Word
deriving DecidableEq, Repr

/-- Why a step stops with a fault: never. "The block has no trap, exception vector, exception handler or exception mode"
(60_exceptions.md R310); every command ends with a response, so the type has no constructor (log 16). Safe: there is no
stop that the hardware would not make. -/
inductive Fault : Type
deriving DecidableEq, Repr

/-- Why a step has no meaning. -/
inductive Refusal where
  /-- Raised by `exec`'s arm of a command that the model gives no meaning. Safe: the model stops where the block goes on. -/
  | notModelled (mnemonic : String)
deriving DecidableEq, Repr

/-- The outcome of a command or a step. -/
abbrev Result := Host.Outcome State Fault Refusal

/-- Buffer memory at reset: every byte "an independent value fixed at reset and kept until written" (R47, R352), so nothing
is listed. -/
def Memory.atReset : Memory := { txb := [], rxb := [], aux := [], scratch := [] }

/-- The block's edge at reset: no call made, no byte moved (R351), no answer given in advance (DESIGN CHOICE, log 7; safe,
since the answers are then free values). -/
def Link.atReset : Link :=
  { nowIn := [], connectedIn := [], headroomIn := [], acceptIn := [], availableIn := [], byteIn := [], drawn := 0,
    calls := [], outbound := [], inbound := [] }

/-- An instance with configuration `c` right after reset (R47, R350, R351), with no command issued yet. -/
def State.resetWith (c : Config) : State :=
  { cfg := c, status := 0, result := 0,
    txState := .notSending, txSize := 0, txSent := 0, txStartTime := 0,
    rxLife := .disabled, rxAcc := .waitingForStart, rxSize := 0, rxLastTime := 0, rxPollTime := 0, rxActive := false,
    mem := Memory.atReset, link := Link.atReset, events := [], pending := [] }

/-- The machine right after reset, for the instance TESTCFG (R9, R47, R350). DESIGN CHOICE (log 2): which instance. -/
def State.reset : State := State.resetWith Config.testCfg

end Sys2Proof.Machine
end

