-- ==== Sys2Proof/Machine/Flags.lean ====
section
/-! DEFINITION. Every coded word the block produces: STATUS with its error codes (10_state.md R23-R25, 60_exceptions.md
R311), the event words (R313-R316), the re-arm words (R322), and the register codes of the enumerated states (R27, R31,
R32). The block has no condition codes (R46). -/

namespace Sys2Proof.Machine

/-- The CERR codes by name (60_exceptions.md R311). -/
inductive CErr where
  | none
  | illegal
  | range
  | overlap
  | busy
  | key
  | codec
  | crc
  | rejected
deriving DecidableEq, Repr

/-- The number of a CERR code (R311). -/
def CErr.code : CErr → Nat
  | .none => 0
  | .illegal => 1
  | .range => 2
  | .overlap => 3
  | .busy => 4
  | .key => 5
  | .codec => 6
  | .crc => 7
  | .rejected => 8

/-- STATUS with these fields, the reserved bits hardwired 0 (R23). -/
def statusWord (ok : Bool) (cerr : CErr) : Word := BitVec.ofNat 32 (ok.toNat + 16 * cerr.code)

/-- STATUS.OK, bit 0 (R23). -/
def statusOk (w : Word) : Nat := w.toNat % 2

/-- STATUS.CERR, bits 7:4 (R23). -/
def statusCerr (w : Word) : Nat := w.toNat / 16 % 16

/-- The receive errors (R315). -/
inductive RxErr where
  | tooShort
  | overflow
  | startTimeout
  | crc
  | setupError
deriving DecidableEq, Repr

/-- The ARG of RX_ERROR (R315). -/
def RxErr.code : RxErr → Nat
  | .tooShort => 1
  | .overflow => 2
  | .startTimeout => 3
  | .crc => 4
  | .setupError => 5

/-- The transmit errors (R316). -/
inductive TxErr where
  | startTimeout
  | dataTimeout
  | endTimeout
deriving DecidableEq, Repr

/-- The ARG of TX_ERROR (R316). -/
def TxErr.code : TxErr → Nat
  | .startTimeout => 1
  | .dataTimeout => 2
  | .endTimeout => 3

/-- The events, one per listener callback of the source (R314). -/
inductive Event where
  | connChanged (connected : Bool)
  | msgReceived (header : Byte) (payloadSize : Nat)
  | msgSent
  | rxError (e : RxErr)
  | txError (e : TxErr)
deriving DecidableEq, Repr

/-- The word with these event fields: KIND 3:0, ARG 7:4, HEADER 15:8, PSIZE 23:16, the rest 0 (R313). -/
def eventWord (kind arg header psize : Nat) : Word :=
  BitVec.ofNat 32 (kind + arg * 2 ^ 4 + header * 2 ^ 8 + psize * 2 ^ 16)

/-- The word of an event (R314). -/
def Event.word : Event → Word
  | .connChanged c => eventWord 1 c.toNat 0 0
  | .msgReceived h p => eventWord 2 0 h.toNat p
  | .msgSent => eventWord 3 0 0 0
  | .rxError e => eventWord 4 e.code 0 0
  | .txError e => eventWord 5 e.code 0 0

/-- The re-arm requests (R322). -/
inductive Rearm where
  | immediate
  | delay (ms : Nat)
  | suspend
deriving DecidableEq, Repr

/-- The re-arm word: kind in bits 31:30, the delay in bits 29:0 (R322). -/
def Rearm.word : Rearm → Word
  | .immediate => 0x00000000#32
  | .delay ms => BitVec.ofNat 32 (0x40000000 + ms)
  | .suspend => 0x80000000#32

/-- The code of TX_STATE (R27). -/
def TxState.code : TxState → Nat
  | .notSending => 0
  | .sendingStartDelimiter => 1
  | .sendingData => 2
  | .sendingEndDelimiter => 3

/-- The code of RX_LIFE (R31). -/
def RxLife.code : RxLife → Nat
  | .disabled => 0
  | .waitingForTransport => 1
  | .polling => 2
  | .accumulating => 3
  | .delivering => 4

/-- The code of RX_ACC (R32). -/
def RxAcc.code : RxAcc → Nat
  | .waitingForStart => 0
  | .waitingForData => 1
  | .readingData => 2

/-- The error that names the sending state a deadline expired in, and none in NotSending, which has no deadline
(44_transmitter.md R205, R206; 60_exceptions.md R316). -/
def TxState.timeoutError? : TxState → Option TxErr
  | .notSending => none
  | .sendingStartDelimiter => some .startTimeout
  | .sendingData => some .dataTimeout
  | .sendingEndDelimiter => some .endTimeout

end Sys2Proof.Machine
end

