-- ==== Sys2Proof/Machine/Operands.lean ====
section
/-! DEFINITION. What an operand names: the buffer of a buffer id (20_memory.md R60, R61), who owns it (10_state.md R44), the
register of a register number (R41), the sizes of the message layout (42_message_layout.md R150-R154), and the age of a time
stamp (R39). -/

namespace Sys2Proof.Machine

/-- The buffer of a buffer id; id 3 is reserved and names none (R60, R61). -/
def regionOf : BufId → Option Region
  | .txb => some .txb
  | .rxb => some .rxb
  | .aux => some .aux
  | .reserved => none

/-- The range [off, off + n) lies in a buffer: "legal if and only if ... off + n ≤ BUF_CAP" (R61). -/
def inBuffer (c : Config) (off n : Nat) : Bool := decide (off + n ≤ c.bufCap)

/-- Buffer ownership: TXB "while TX_STATE ≠ NotSending", RXB "while RX_LIFE ≠ Disabled", "AUX has no owner" (R44). No
command names SCRATCH. -/
def State.owned (s : State) : Region → Bool
  | .txb => decide (s.txState ≠ .notSending)
  | .rxb => decide (s.rxLife ≠ .disabled)
  | .aux => false
  | .scratch => false

/-- The value REG_RD places in RESULT for each register number of R41, zero-extended to 32 bits, and none for every other
number. (log 13: TX_MIN_HEADROOM has no width in the spec.) -/
def State.register? (s : State) (number : Nat) : Option Word :=
  match number with
  | 0x00 => some s.status
  | 0x01 => some (BitVec.ofNat 32 s.txState.code)
  | 0x02 => some (s.txSize.setWidth 32)
  | 0x03 => some (s.txSent.setWidth 32)
  | 0x04 => some s.txStartTime
  | 0x08 => some (BitVec.ofNat 32 s.rxLife.code)
  | 0x09 => some (BitVec.ofNat 32 s.rxAcc.code)
  | 0x0A => some (s.rxSize.setWidth 32)
  | 0x0B => some s.rxLastTime
  | 0x0C => some s.rxPollTime
  | 0x0D => some (BitVec.ofNat 32 s.rxActive.toNat)
  | 0x10 => some (BitVec.ofNat 32 s.cfg.msm)
  | 0x11 => some (BitVec.ofNat 32 s.cfg.bufCap)
  | 0x12 => some (BitVec.ofNat 32 s.cfg.maxOut)
  | 0x13 => some (BitVec.ofNat 32 s.cfg.maxIn)
  | 0x14 => some (BitVec.ofNat 32 s.cfg.writeTimeoutMs)
  | 0x15 => some (BitVec.ofNat 32 s.cfg.readTimeoutMs)
  | 0x16 => some (BitVec.ofNat 32 s.cfg.pollPeriodMs)
  | 0x17 => some (BitVec.ofNat 32 s.cfg.disconnectedPollMs)
  | 0x18 => some (BitVec.ofNat 32 s.cfg.txMinHeadroom)
  | _ => none

/-- Frame offset of the low check byte Crc0 (R150). -/
def crc0Offset : Nat := 0

/-- Frame offset of the high check byte Crc1 (R150). -/
def crc1Offset : Nat := 1

/-- Frame offset of the Header (R150). -/
def headerOffset : Nat := 2

/-- Frame offset of the Payload (R150). -/
def payloadOffset : Nat := 3

/-- GetMessageSize(p) = min(p + 3, 255) (R153). -/
def messageSize (p : Nat) : Nat := min (p + 3) 255

/-- GetPayloadSize(m): "m ≥ 3 ? m − 3 : 0" (R154). -/
def payloadSize (m : Nat) : Nat := if 3 ≤ m then m - 3 else 0

/-- Elapsed time "(NOW − t) mod 2^32" (R39). -/
def elapsedMs (now stamp : Word) : Nat := (now - stamp).toNat

end Sys2Proof.Machine
end

