-- ==== Sys2Proof/Machine/Ops.lean ====
section
/-! DEFINITION. The named operations every meaning is written over: byte memory (20_memory.md R60-R65), the outcome of a
command with RAISING A COMMAND ERROR as one shared operation (00_scope.md R12, 60_exceptions.md R310, R326: the block has
no other exception and no return from one), the transport's calls and the clock (R13, R39, R66-R71), the command port
(R80), and one update per register. -/

namespace Sys2Proof.Machine

/-! ### Lists of written bytes -/

/-- The byte that a store's list holds at an offset, if any. -/
def cellAt : List Host.Cell → Nat → Option Byte
  | [], _ => none
  | (k, x) :: rest, a => if k = a then some x else cellAt rest a

/-- Write one byte, keeping offsets strictly rising. -/
def setCell : List Host.Cell → Nat → Byte → List Host.Cell
  | [], a, v => [(a, v)]
  | (k, x) :: rest, a, v =>
    if a < k then (a, v) :: (k, x) :: rest
    else if a = k then (a, v) :: rest
    else (k, x) :: setCell rest a v

/-- Every offset of the list is above `a`. -/
def cellsAbove (a : Nat) : List Host.Cell → Bool
  | [] => true
  | (k, _) :: rest => decide (a < k) && cellsAbove a rest

/-- The canonical form of a store: offsets strictly rising (log 14). -/
def cellsRising : List Host.Cell → Bool
  | [] => true
  | (k, _) :: rest => cellsAbove k rest && cellsRising rest

/-- Every offset of the list is below `cap`. -/
def cellsBelow (cap : Nat) : List Host.Cell → Bool
  | [] => true
  | (k, _) :: rest => decide (k < cap) && cellsBelow cap rest

/-! ### Buffer memory -/

/-- The list of a store. -/
def Memory.cells (m : Memory) : Region → List Host.Cell
  | .txb => m.txb
  | .rxb => m.rxb
  | .aux => m.aux
  | .scratch => m.scratch

/-- Replace the list of a store. -/
def Memory.withCells (m : Memory) (b : Region) (cs : List Host.Cell) : Memory :=
  match b with
  | .txb => { m with txb := cs }
  | .rxb => { m with rxb := cs }
  | .aux => { m with aux := cs }
  | .scratch => { m with scratch := cs }

/-- The store's number: the buffer id (R60), and 3 for SCRATCH, which no id names (R38). -/
def Region.number : Region → Nat
  | .txb => 0
  | .rxb => 1
  | .aux => 2
  | .scratch => 3

/-- What an offset that nothing has written reads as: the value it drew at reset (R47, R352; log 3), a free value. -/
def Memory.unlisted (b : Region) (off : Nat) : Byte := Config.freeResetByte b.number off

/-- `B[b][off]` (R11). Reads have no side effects (R65). -/
def Memory.readByte (m : Memory) (b : Region) (off : Nat) : Byte :=
  (cellAt (m.cells b) off).getD (Memory.unlisted b off)

/-- `B[b][off] <- v` (R11): "Buffer writes affect only the bytes written" (R65). -/
def Memory.writeByte (m : Memory) (b : Region) (off : Nat) (v : Byte) : Memory :=
  m.withCells b (setCell (m.cells b) off v)

/-- `MemRead(b, off, n)` (R11). -/
def Memory.readBytes (m : Memory) (b : Region) (off n : Nat) : List Byte :=
  (List.range n).map fun k => m.readByte b (off + k)

/-- `MemWrite(b, off, len(v), v)`, "in increasing index order" (R11). -/
def Memory.writeBytes (m : Memory) (b : Region) (off : Nat) : List Byte → Memory
  | [] => m
  | x :: rest => (m.writeByte b off x).writeBytes b (off + 1) rest

/-- The memory is in canonical form (log 14). -/
def Memory.wf (m : Memory) : Bool :=
  cellsRising m.txb && cellsRising m.rxb && cellsRising m.aux && cellsRising m.scratch

/-- Every listed byte lies inside its store: BUF_CAP bytes for a buffer (R37), MSM for SCRATCH (R38). -/
def Memory.within (m : Memory) (c : Config) : Bool :=
  cellsBelow c.bufCap m.txb && cellsBelow c.bufCap m.rxb && cellsBelow c.bufCap m.aux && cellsBelow c.msm m.scratch

/-! ### One update per register -/

/-- Replace buffer memory. -/
def State.withMem (s : State) (m : Memory) : State := { s with mem := m }

/-- Replace the transport edge. -/
def State.withLink (s : State) (l : Link) : State := { s with link := l }

/-- Replace the host's command list. -/
def State.withPending (s : State) (p : List Word) : State := { s with pending := p }

/-- STATUS and RESULT, "written only as a side effect of command completion" (R20). -/
def State.respond (s : State) (status result : Word) : State := { s with status := status, result := result }

/-- Replace the event list of the response. -/
def State.withEvents (s : State) (e : List Word) : State := { s with events := e }

/-- `TX_STATE <- t`. -/
def State.withTxState (s : State) (t : TxState) : State := { s with txState := t }

/-- `TX_SENT <- n`, an 8-bit register (R29; log 12). -/
def State.withTxSent (s : State) (n : Nat) : State := { s with txSent := BitVec.ofNat 8 n }

/-- `TX_SIZE <- n`, an 8-bit register (R28; log 12). -/
def State.withTxSize (s : State) (n : Nat) : State := { s with txSize := BitVec.ofNat 8 n }

/-- `TX_START_TIME <- now`. -/
def State.withTxStartTime (s : State) (now : Word) : State := { s with txStartTime := now }

/-- `RX_LIFE <- l`. -/
def State.withRxLife (s : State) (l : RxLife) : State := { s with rxLife := l }

/-- `RX_ACC <- a`. -/
def State.withRxAcc (s : State) (a : RxAcc) : State := { s with rxAcc := a }

/-- `RX_SIZE <- n`, an 8-bit register (R33; log 12). -/
def State.withRxSize (s : State) (n : Nat) : State := { s with rxSize := BitVec.ofNat 8 n }

/-- `RX_LAST_TIME <- now`. -/
def State.withRxLastTime (s : State) (now : Word) : State := { s with rxLastTime := now }

/-- `RX_POLL_TIME <- now`. -/
def State.withRxPollTime (s : State) (now : Word) : State := { s with rxPollTime := now }

/-- `RX_ACTIVE <- b`. -/
def State.withRxActive (s : State) (b : Bool) : State := { s with rxActive := b }

/-! ### The outcome of a command (R12) -/

/-- Empty the call list. -/
def Link.forgetCalls (l : Link) : Link := { l with calls := [] }

/-- A command begins: its response carries only its own events (R317), and the call list only its own calls (log 9). -/
def State.beginCommand (s : State) : State := (s.withEvents []).withLink s.link.forgetCalls

/-- `succeed(v)`: OK <- 1, CERR <- NONE, RESULT <- v (R12). -/
def State.succeed (s : State) (v : Word) : State := s.respond (statusWord true .none) v

/-- A reported failure: OK <- 0, CERR <- code, RESULT <- v. MSG_DECODE's CRC outcome writes a RESULT this way (R174). -/
def State.fail (s : State) (code : CErr) (v : Word) : State := s.respond (statusWord false code) v

/-- `raise CmdError(code)`: OK <- 0, CERR <- code, RESULT <- 0, and "No other state changes, except state the rule says was
already written before the raise" (R12). No state is saved and control goes nowhere (R326). -/
def State.raise (s : State) (code : CErr) : State := s.fail code 0

/-- `emit E`: append the event word to the command's list (R12, R317). -/
def State.emit (s : State) (e : Event) : State := s.withEvents (s.events ++ [e.word])

/-- `succeed(rearm)` at the end of a step command (R322). -/
def State.finishStep (s : State) (r : Rearm) : State := s.succeed r.word

/-- An illegal word: STATUS.OK <- 0, STATUS.CERR <- ILLEGAL, RESULT <- 0, and "no other effect" (R86). -/
def illegalCommand (s : State) : State := s.beginCommand.raise .illegal

/-! ### The clock and the transport (R13, R39, R66-R71)

Each returns the answer and the edge after the call. -/

/-- Sample NOW_MS (R39). -/
def Link.sampleNow (l : Link) : Word × Link :=
  match l.nowIn with
  | x :: rest => (x, { l with nowIn := rest })
  | [] => (Config.freeNow l.drawn, { l with drawn := l.drawn + 1 })

/-- Record a call (R66). -/
def Link.record (l : Link) (c : TCall) : Link := { l with calls := l.calls ++ [c] }

/-- Draw the answer of `T.connected()`, "with no constraint" (R67). -/
def Link.drawConnected (l : Link) : Bool × Link :=
  match l.connectedIn with
  | x :: rest => (x, { l with connectedIn := rest })
  | [] => (Config.freeConnected l.drawn, { l with drawn := l.drawn + 1 })

/-- Draw the answer of `T.availableForWrite()` (R68). -/
def Link.drawHeadroom (l : Link) : Nat × Link :=
  match l.headroomIn with
  | x :: rest => (x, { l with headroomIn := rest })
  | [] => (Config.freeHeadroom l.drawn, { l with drawn := l.drawn + 1 })

/-- Draw the number that bounds what `T.write` accepts (R68). -/
def Link.drawAccept (l : Link) : Nat × Link :=
  match l.acceptIn with
  | x :: rest => (x, { l with acceptIn := rest })
  | [] => (Config.freeAccept l.drawn, { l with drawn := l.drawn + 1 })

/-- Draw the answer of `T.available()` (R69). -/
def Link.drawAvailable (l : Link) : Nat × Link :=
  match l.availableIn with
  | x :: rest => (x, { l with availableIn := rest })
  | [] => (Config.freeAvailable l.drawn, { l with drawn := l.drawn + 1 })

/-- Draw the byte that `T.read()` returns (R69). -/
def Link.drawByte (l : Link) : Byte × Link :=
  match l.byteIn with
  | x :: rest => (x, { l with byteIn := rest })
  | [] => (Config.freeInByte l.drawn, { l with drawn := l.drawn + 1 })

/-- `T.connected()` (R67). -/
def Link.connected (l : Link) : Bool × Link :=
  (l.drawConnected.1, l.drawConnected.2.record (.connected l.drawConnected.1))

/-- `T.availableForWrite()` (R68). -/
def Link.availableForWrite (l : Link) : Nat × Link :=
  (l.drawHeadroom.1, l.drawHeadroom.2.record (.availableForWrite l.drawHeadroom.1))

/-- Append accepted bytes to the outbound stream (R68, R71). -/
def Link.transmit (l : Link) (bytes : List Byte) : Link := { l with outbound := l.outbound ++ bytes }

/-- Append a received byte to the inbound stream (R69, R71). -/
def Link.receive (l : Link) (x : Byte) : Link := { l with inbound := l.inbound ++ [x] }

/-- How many of the offered bytes the next `T.write` accepts: any w with 0 ≤ w ≤ len(seq) (R68; log 8). -/
def Link.acceptedCount (l : Link) (offered : List Byte) : Nat := min l.drawAccept.1 offered.length

/-- `T.write(offered)`: the accepted bytes are the first w, "appended to the outbound stream in order" (R68). -/
def Link.write (l : Link) (offered : List Byte) : Nat × Link :=
  (l.acceptedCount offered,
    (l.drawAccept.2.transmit (offered.take (l.acceptedCount offered))).record (.write offered (l.acceptedCount offered)))

/-- `T.available()` (R69). -/
def Link.available (l : Link) : Nat × Link :=
  (l.drawAvailable.1, l.drawAvailable.2.record (.available l.drawAvailable.1))

/-- `T.read()`: "removes the next byte from the inbound stream and returns it" (R69). -/
def Link.read (l : Link) : Byte × Link :=
  (l.drawByte.1, (l.drawByte.2.receive l.drawByte.1).record (.read l.drawByte.1))

/-- Sample NOW_MS, once, at the start of TX_SEND, TX_STEP or RX_STEP (R39). -/
def State.sampleNow (s : State) : Word × State := (s.link.sampleNow.1, s.withLink s.link.sampleNow.2)

/-- `T.connected()`. -/
def State.callConnected (s : State) : Bool × State := (s.link.connected.1, s.withLink s.link.connected.2)

/-- `T.availableForWrite()`. -/
def State.callAvailableForWrite (s : State) : Nat × State :=
  (s.link.availableForWrite.1, s.withLink s.link.availableForWrite.2)

/-- `T.write(offered)`. -/
def State.callWrite (s : State) (offered : List Byte) : Nat × State :=
  ((s.link.write offered).1, s.withLink (s.link.write offered).2)

/-- `T.available()`. -/
def State.callAvailable (s : State) : Nat × State := (s.link.available.1, s.withLink s.link.available.2)

/-- `T.read()`. -/
def State.callRead (s : State) : Byte × State := (s.link.read.1, s.withLink s.link.read.2)

/-- `T.begin(BAUDRATE)`, which returns nothing (R70). -/
def State.callBegin (s : State) : State := s.withLink (s.link.record (.beginLink s.cfg.baudrate))

/-- `T.end()`, which returns nothing (R70). -/
def State.callEnd (s : State) : State := s.withLink (s.link.record .endLink)

/-! ### The command port -/

/-- The command word delivered next, with the state after its delivery, or nothing where the host has issued none (R73,
R80; log 1). -/
def State.nextCommand? (s : State) : Option (Word × State) :=
  match s.pending with
  | [] => none
  | w :: rest => some (w, s.withPending rest)

/-- The host issues a command word as the next one. -/
def State.issue (s : State) (w : Word) : State := s.withPending (w :: s.pending)

end Sys2Proof.Machine
end

