-- ==== Sys2Proof/Machine/Codec.lean ====
section
/-! DEFINITION. The functions the codec commands and the Receiver share: CobsEncode and CobsDecode (40_frame_codec.md
R102, R105), Fletcher16 and KeyedCheck (41_integrity_check.md R132-R134), MessageEncode and MessageDecodeValidate
(43_message_codec.md R171, R172). -/

namespace Sys2Proof.Machine

/-- The delimiter, byte value 0x00 (R100). -/
def delimiter : Byte := 0x00#8

/-! ### CobsEncode (R102) -/

/-- The variables of CobsEncode: the output e, the index ci of the open run's code byte, and the open run's code. -/
structure CobsRun where
  out : List Byte
  codeAt : Nat
  code : Nat
deriving DecidableEq, Repr

/-- The start of CobsEncode: "placeholder for the first code byte, at index 0". -/
def CobsRun.start : CobsRun := { out := [0x00#8], codeAt := 0, code := 1 }

/-- `e[ci] <- code; ci <- len(e); e <- e ++ [0x00]; code <- 1`: close the open run and open the next. -/
def CobsRun.close (r : CobsRun) : CobsRun :=
  { out := r.out.set r.codeAt (BitVec.ofNat 8 r.code) ++ [0x00#8], codeAt := r.out.length, code := 1 }

/-- One input byte of the `for` loop of R102. -/
def CobsRun.push (r : CobsRun) (x : Byte) : CobsRun :=
  if x = delimiter then r.close
  else
    let r' : CobsRun := { r with out := r.out ++ [x], code := r.code + 1 }
    if r'.code = 0xFF then r'.close else r'

/-- `e[ci] <- code; return e`. -/
def CobsRun.finish (r : CobsRun) : List Byte := r.out.set r.codeAt (BitVec.ofNat 8 r.code)

/-- CobsEncode(d) (R102). -/
def cobsEncode (d : List Byte) : List Byte := (d.foldl CobsRun.push CobsRun.start).finish

/-- One message as it crosses the wire: start delimiter, stuffed bytes, end delimiter (42_message_layout.md R158). -/
def wireFormat (stuffed : List Byte) : List Byte := delimiter :: stuffed ++ [delimiter]

/-! ### CobsDecode (R105) -/

/-- What CobsDecode gives: (ok, w), and the memory with the bytes it wrote. -/
structure Decoded where
  ok : Bool
  size : Nat
  mem : Memory
deriving DecidableEq, Repr

/-- The inner `for` loop of R105: copy `k` bytes one by one, each read "as it stands at that moment" (R78). -/
def cobsCopy (src dst : Region) : (k r w : Nat) → Memory → Memory
  | 0, _, _, m => m
  | k + 1, r, w, m => cobsCopy src dst k (r + 1) (w + 1) (m.writeByte dst w (m.readByte src r))

/-- The `while` loop of R105 from read index r and write index w. Each pass reads at least one byte, so `n` passes of fuel
always suffice (R365). -/
def cobsDecodeFrom (src dst : Region) (n : Nat) : (fuel r w : Nat) → Memory → Decoded
  | 0, _, w, m => { ok := true, size := w, mem := m }
  | fuel + 1, r, w, m =>
    if r < n then
      let code := (m.readByte src r).toNat
      if code = 0 ∨ n < r + code then { ok := false, size := w, mem := m }
      else
        let m' := cobsCopy src dst (code - 1) (r + 1) w m
        if code ≠ 0xFF ∧ r + code ≠ n then
          cobsDecodeFrom src dst n fuel (r + code) (w + code) (m'.writeByte dst (w + (code - 1)) delimiter)
        else cobsDecodeFrom src dst n fuel (r + code) (w + (code - 1)) m'
    else { ok := true, size := w, mem := m }

/-- CobsDecode(src, dst, n) (R105). -/
def cobsDecode (src dst : Region) (n : Nat) (m : Memory) : Decoded := cobsDecodeFrom src dst n n 0 0 m

/-- DecodedSize = (ok ? w : 0) (R105). -/
def Decoded.decodedSize (d : Decoded) : Nat := if d.ok then d.size else 0

/-! ### The keyed check -/

/-- One byte folded into the Fletcher sums (s1, s2) (R132). -/
def fletcherPush (sums : Nat × Nat) (x : Byte) : Nat × Nat :=
  ((sums.1 + x.toNat) % 255, (sums.2 + (sums.1 + x.toNat) % 255) % 255)

/-- The Fletcher sums of a byte sequence, from zero (R132). PRESUMED by the spec itself (general knowledge G1; log 17). -/
def fletcherSums (x : List Byte) : Nat × Nat := x.foldl fletcherPush (0, 0)

/-- Fletcher16: s2 in bits 15:8, s1 in bits 7:0 (R132). -/
def fletcher16 (x : List Byte) : BitVec 16 := BitVec.ofNat 16 ((fletcherSums x).2 * 256 + (fletcherSums x).1)

/-- KeyedCheck(data) = Fletcher16(KEY ++ data) (R133). -/
def keyedCheck (c : Config) (data : List Byte) : BitVec 16 := fletcher16 (c.key ++ data)

/-- c[7:0], the byte at Crc0 (R63, R134). -/
def checkLow (c : BitVec 16) : Byte := BitVec.ofNat 8 (c.toNat % 256)

/-- c[15:8], the byte at Crc1 (R63, R134). -/
def checkHigh (c : BitVec 16) : Byte := BitVec.ofNat 8 (c.toNat / 256)

/-- A Frame with the given content from Header on: its check, low byte first, then the content (R134, R150). -/
def frameOf (c : Config) (content : List Byte) : List Byte :=
  checkLow (keyedCheck c content) :: checkHigh (keyedCheck c content) :: content

/-! ### MessageCodec -/

/-- The check of the content at [Header, n) written at Crc0 and Crc1 (R171). -/
def insertCheck (c : Config) (b : Region) (n : Nat) (m : Memory) : Memory :=
  let check := keyedCheck c (m.readBytes b headerOffset (n - headerOffset))
  (m.writeByte b crc0Offset (checkLow check)).writeByte b crc1Offset (checkHigh check)

/-- MessageEncode(b, n) without its return value n + 1: insert the check, copy the frame to SCRATCH, stuff the copy back
(R171, R38). -/
def messageEncode (c : Config) (b : Region) (n : Nat) (m : Memory) : Memory :=
  let m1 := insertCheck c b n m
  let m2 := m1.writeBytes .scratch 0 (m1.readBytes b 0 n)
  m2.writeBytes b 0 (cobsEncode (m2.readBytes .scratch 0 n))

/-- The result (valid, n, why) of MessageDecodeValidate, with the memory after the in-place decode (R172). -/
structure Validated where
  why : CErr
  size : Nat
  mem : Memory
deriving DecidableEq, Repr

/-- MessageDecodeValidate(b, size) (R172); `why` is NONE exactly when the result is valid. -/
def messageDecodeValidate (c : Config) (b : Region) (size : Nat) (m : Memory) : Validated :=
  let d := cobsDecode b b size m
  let n := d.decodedSize
  if n < Config.msgMin then { why := .codec, size := n, mem := d.mem }
  else
    let check := keyedCheck c (d.mem.readBytes b headerOffset (n - headerOffset))
    if d.mem.readByte b crc0Offset = checkLow check ∧ d.mem.readByte b crc1Offset = checkHigh check then
      { why := .none, size := n, mem := d.mem }
    else { why := .crc, size := n, mem := d.mem }

end Sys2Proof.Machine
end

