-- ==== Sys2Proof/Machine/FrameCodec.lean ====
section
/-! DEFINITION. The commands of the byte-stuffing codec, FRAME_ENCODE and FRAME_DECODE (40_frame_codec.md R112, R113). -/

namespace Sys2Proof.Machine

/-- FRAME_ENCODE: byte-stuff `n` bytes of one buffer into another (R112). -/
def execFrameEncode (src dst : BufId) (n : Nat) (s : State) : Result :=
  let s := s.beginCommand
  match regionOf src, regionOf dst with
  | some a, some b =>
    if s.cfg.msm < n then .next (s.raise .range)
    else if a = b then .next (s.raise .overlap)
    else if s.owned b then .next (s.raise .busy)
    else
      .next ((s.withMem (s.mem.writeBytes b 0 (cobsEncode (s.mem.readBytes a 0 n)))).succeed (BitVec.ofNat 32 (n + 1)))
  | _, _ => .next (s.raise .range)

/-- FRAME_DECODE: un-stuff `n` bytes of one buffer into another, or in place; on CODEC the bytes written so far remain
(R109, R113). -/
def execFrameDecode (src dst : BufId) (n : Nat) (s : State) : Result :=
  let s := s.beginCommand
  match regionOf src, regionOf dst with
  | some a, some b =>
    if s.cfg.bufCap < n then .next (s.raise .range)
    else if s.owned b then .next (s.raise .busy)
    else
      let d := cobsDecode a b n s.mem
      if d.ok = true ∧ 0 < d.size then .next ((s.withMem d.mem).succeed (BitVec.ofNat 32 d.size))
      else .next ((s.withMem d.mem).fail .codec 0)
  | _, _ => .next (s.raise .range)

end Sys2Proof.Machine
end

