-- ==== Sys2Proof/Machine/HostAccess.lean ====
section
/-! DEFINITION. The host access commands BUF_RD, BUF_WR and REG_RD (46_host_access.md R290-R293). -/

namespace Sys2Proof.Machine

/-- BUF_RD: read one buffer byte; never refused for ownership (R290). DESIGN CHOICE (log 20): R290's example gives 0xBB for
TXB offset 1 after scenario A's MSG_ENCODE; the model follows R171 and R173, which put 0x61 there and 0xBB at offset 2. Unsafe
if the example is right. -/
def execBufRd (buf : BufId) (off : Nat) (s : State) : Result :=
  let s := s.beginCommand
  match regionOf buf with
  | none => .next (s.raise .range)
  | some b =>
    if s.cfg.bufCap ≤ off then .next (s.raise .range)
    else .next (s.succeed ((s.mem.readByte b off).setWidth 32))

/-- BUF_WR: write one buffer byte (R291). -/
def execBufWr (buf : BufId) (off : Nat) (val : Byte) (s : State) : Result :=
  let s := s.beginCommand
  match regionOf buf with
  | none => .next (s.raise .range)
  | some b =>
    if s.cfg.bufCap ≤ off then .next (s.raise .range)
    else if s.owned b then .next (s.raise .busy)
    else .next ((s.withMem (s.mem.writeByte b off val)).succeed 0)

/-- REG_RD: read a register or a configuration constant; register 0 is "STATUS as it stood before this REG_RD" (R292). -/
def execRegRd (reg : Nat) (s : State) : Result :=
  let s := s.beginCommand
  match s.register? reg with
  | none => .next (s.raise .range)
  | some v => .next (s.succeed v)

end Sys2Proof.Machine
end

