-- ==== Sys2Proof/Machine/IntegrityCheck.lean ====
section
/-! DEFINITION. The commands of the keyed integrity check, CHECK_SETUP and CHECK_COMPUTE (41_integrity_check.md R137, R138). -/

namespace Sys2Proof.Machine

/-- CHECK_SETUP: report whether the key configuration is valid (R137). -/
def execCheckSetup (s : State) : Result :=
  let s := s.beginCommand
  .next (s.succeed (if s.cfg.keyValid then 1 else 0))

/-- CHECK_COMPUTE: the keyed check of the buffer range [off, off + len) (R138). -/
def execCheckCompute (buf : BufId) (off len : Nat) (s : State) : Result :=
  let s := s.beginCommand
  match regionOf buf with
  | none => .next (s.raise .range)
  | some b =>
    if inBuffer s.cfg off len = false then .next (s.raise .range)
    else if s.cfg.keyValid = false then .next (s.raise .key)
    else .next (s.succeed ((keyedCheck s.cfg (s.mem.readBytes b off len)).setWidth 32))

end Sys2Proof.Machine
end

