-- ==== Sys2Proof/Machine/Layout.lean ====
section
/-! DEFINITION. The commands of the message layout, LAYOUT_MSGSIZE and LAYOUT_PAYSIZE (42_message_layout.md R156, R157). -/

namespace Sys2Proof.Machine

/-- LAYOUT_MSGSIZE: payload size to message size, saturating at 255 (R156). -/
def execLayoutMsgsize (psize : Nat) (s : State) : Result :=
  let s := s.beginCommand
  .next (s.succeed (BitVec.ofNat 32 (messageSize psize)))

/-- LAYOUT_PAYSIZE: message size to payload size, floored at 0 (R157). -/
def execLayoutPaysize (msize : Nat) (s : State) : Result :=
  let s := s.beginCommand
  .next (s.succeed (BitVec.ofNat 32 (payloadSize msize)))

end Sys2Proof.Machine
end

