-- ==== Sys2Proof/Machine/MessageCodec.lean ====
section
/-! DEFINITION. The commands of the message codec, MSG_ENCODE and MSG_DECODE (43_message_codec.md R173, R174). -/

namespace Sys2Proof.Machine

/-- MSG_ENCODE: insert the check, then stuff the message in place (R173). -/
def execMsgEncode (buf : BufId) (n : Nat) (s : State) : Result :=
  let s := s.beginCommand
  match regionOf buf with
  | none => .next (s.raise .range)
  | some b =>
    if n < Config.msgMin ∨ s.cfg.msm < n then .next (s.raise .range)
    else if s.owned b then .next (s.raise .busy)
    else if s.cfg.keyValid = false then .next (s.raise .key)
    else .next ((s.withMem (messageEncode s.cfg b n s.mem)).succeed (BitVec.ofNat 32 (n + 1)))

/-- MSG_DECODE: un-stuff in place and validate the check; the decoded bytes stay in the buffer on failure too (R174,
R176). -/
def execMsgDecode (buf : BufId) (size : Nat) (s : State) : Result :=
  let s := s.beginCommand
  match regionOf buf with
  | none => .next (s.raise .range)
  | some b =>
    if s.cfg.bufCap < size then .next (s.raise .range)
    else if s.owned b then .next (s.raise .busy)
    else if s.cfg.keyValid = false then .next (s.raise .key)
    else
      let v := messageDecodeValidate s.cfg b size s.mem
      if v.why = .none then .next ((s.withMem v.mem).succeed (BitVec.ofNat 32 v.size))
      else if v.why = .codec then .next ((s.withMem v.mem).fail .codec 0)
      else .next ((s.withMem v.mem).fail .crc (BitVec.ofNat 32 v.size))

end Sys2Proof.Machine
end

