-- ==== Sys2Proof/Machine/Receiver.lean ====
section
/-! DEFINITION. The Receiver: RX_START, RX_STOP, RX_STEP and RX_WAKE (45_receiver.md R240-R262). -/

namespace Sys2Proof.Machine

/-- Set the accumulation state and the fill size together. -/
def State.withAccumulator (s : State) (a : RxAcc) (n : Nat) : State := (s.withRxAcc a).withRxSize n

/-- The accumulator reset and RX_ACTIVE cleared, in a new lifecycle state (R242, R243, R246). -/
def State.resetReceiver (s : State) (l : RxLife) : State :=
  ((s.withRxLife l).withAccumulator .waitingForStart 0).withRxActive false

/-- CONN_CHANGED(0), "if and only if it came from Polling or Accumulating, i.e. the link had been reported up" (R243, R246). -/
def State.reportLinkDown (s : State) : State :=
  if s.rxLife = .polling ∨ s.rxLife = .accumulating then s.emit (.connChanged false) else s

/-- RX_START: enable the Receiver (R242). -/
def execRxStart (s : State) : Result :=
  let s := s.beginCommand
  if s.rxLife ≠ .disabled then .next (s.succeed 0)
  else if s.cfg.keyValid = false then .next ((s.emit (.rxError .setupError)).raise .key)
  else .next ((s.callBegin.resetReceiver .waitingForTransport).succeed 0)

/-- RX_STOP: disable the Receiver from any state (R243). -/
def execRxStop (s : State) : Result :=
  let s := s.beginCommand
  if s.rxLife = .disabled then .next (s.succeed 0)
  else .next ((s.reportLinkDown.callEnd.resetReceiver .disabled).succeed 0)

/-- ProcessByte in WaitingForStart: a delimiter starts, anything else is discarded (R249). -/
def processWaitingForStart (x : Byte) (s : State) : State :=
  if x = delimiter then s.withRxAcc .waitingForData else s

/-- ProcessByte in WaitingForData: a delimiter is an idle marker, anything else is the first data byte (R250). -/
def processWaitingForData (x : Byte) (s : State) : State :=
  if x = delimiter then s
  else (s.withMem (s.mem.writeByte .rxb 0 x)).withAccumulator .readingData 1

/-- ProcessByte in ReadingData for a delimiter that closes fewer than MSG_MIN bytes (R251). -/
def processTooShort (s : State) : State :=
  (s.emit (.rxError .tooShort)).withAccumulator .waitingForData 0

/-- ProcessByte in ReadingData for a data byte: append it, or report the overflow and discard (R252). -/
def processAppend (x : Byte) (s : State) : State :=
  if s.rxSize.toNat < s.cfg.bufCap then
    (s.withMem (s.mem.writeByte .rxb s.rxSize.toNat x)).withRxSize (s.rxSize.toNat + 1)
  else (s.emit (.rxError .overflow)).withAccumulator .waitingForStart 0

/-- ProcessByte: whether the byte closes a frame, and the state after it (R249-R252). -/
def processByte (x : Byte) (s : State) : Bool × State :=
  match s.rxAcc with
  | .waitingForStart => (false, processWaitingForStart x s)
  | .waitingForData => (false, processWaitingForData x s)
  | .readingData =>
    if x = delimiter then
      if Config.msgMin ≤ s.rxSize.toNat then (true, s) else (false, processTooShort s)
    else (false, processAppend x s)

/-- What the read loop of an RX_STEP gives: closed, reads, and the state. -/
structure RxReads where
  closed : Bool
  reads : Nat
  state : State
deriving DecidableEq, Repr

/-- The read loop with `k` reads left: `T.available()` before every `T.read()`, stop at the first answer 0 and right after a
byte that closes a frame (R244, R248); every byte read stamps RX_LAST_TIME (R253). -/
def rxReadLoop (now : Word) : Nat → State → RxReads
  | 0, s => { closed := false, reads := 0, state := s }
  | k + 1, s =>
    let avail := s.callAvailable
    if avail.1 = 0 then { closed := false, reads := 0, state := avail.2 }
    else
      let byte := avail.2.callRead
      let p := processByte byte.1 (byte.2.withRxLastTime now)
      if p.1 then { closed := true, reads := 1, state := p.2 }
      else
        let rest := rxReadLoop now k p.2
        { rest with reads := rest.reads + 1 }

/-- The event of a delivery: MSG_RECEIVED with the header and the payload size, or RX_ERROR(Crc) "for why = CODEC and why =
CRC alike" (R254). -/
def deliveryEvent (v : Validated) : Event :=
  if v.why = .none then .msgReceived (v.mem.readByte .rxb headerOffset) (v.size - payloadOffset)
  else .rxError .crc

/-- Deliver, in RX_LIFE = Delivering (R254). -/
def rxDeliver (s : State) : State :=
  let v := messageDecodeValidate s.cfg .rxb s.rxSize.toNat s.mem
  ((s.withMem v.mem).emit (deliveryEvent v)).withAccumulator .waitingForData 0

/-- The idle timeout: only in a step that read nothing, in ReadingData, with more than READ_TIMEOUT_MS elapsed (R255). -/
def rxIdleCheck (now : Word) (reads : Nat) (s : State) : State :=
  if reads = 0 ∧ s.rxAcc = .readingData ∧ s.cfg.readTimeoutMs < elapsedMs now s.rxLastTime then
    (s.emit (.rxError .startTimeout)).withAccumulator .waitingForStart 0
  else s

/-- RX_ACTIVE and RX_POLL_TIME at the end of a connected step (R256). -/
def rxMarkActivity (now : Word) (reads : Nat) (s : State) : State :=
  if 0 < reads then (s.withRxActive true).withRxPollTime now else s.withRxActive false

/-- RX_LIFE at the end of a connected step (R256). -/
def rxSettleLife (s : State) : State :=
  s.withRxLife (if s.rxAcc = .readingData then .accumulating else .polling)

/-- The end of a connected step, with its re-arm request (R256, R257). -/
def rxFinish (now : Word) (reads : Nat) (s : State) : State :=
  (rxSettleLife (rxMarkActivity now reads s)).finishStep (if 0 < reads then .immediate else .delay s.cfg.pollPeriodMs)

/-- A connected step from its read loop on (R244). -/
def rxConnected (now : Word) (s : State) : State :=
  let r := rxReadLoop now s.cfg.maxIn s
  rxFinish now r.reads
    (if r.closed then rxDeliver (r.state.withRxLife .delivering) else rxIdleCheck now r.reads r.state)

/-- Link up: WaitingForTransport reports it and enters Polling (R247). -/
def rxLinkUp (s : State) : State :=
  if s.rxLife = .waitingForTransport then (s.emit (.connChanged true)).withRxLife .polling else s

/-- Link down in an enabled Receiver (R246). -/
def rxLinkDown (s : State) : State :=
  (s.reportLinkDown.resetReceiver .waitingForTransport).finishStep (.delay s.cfg.disconnectedPollMs)

/-- RX_STEP after sampling `now` (R244); a disabled Receiver's step does nothing (R245). -/
def rxStepAt (now : Word) (s : State) : State :=
  if s.rxLife = .disabled then s.finishStep .suspend
  else
    let conn := s.callConnected
    if conn.1 = false then rxLinkDown conn.2 else rxConnected now (rxLinkUp conn.2)

/-- RX_STEP: one scheduler step of the Receiver (R244). -/
def execRxStep (s : State) : Result :=
  let sample := s.beginCommand.sampleNow
  .next (rxStepAt sample.1 sample.2)

/-- RX_WAKE: the external byte-arrival notification; it reads no byte and sets no register but STATUS and RESULT (R258). -/
def execRxWake (s : State) : Result :=
  let s := s.beginCommand
  .next (s.finishStep (if s.rxLife = .disabled then .suspend else .immediate))

end Sys2Proof.Machine
end

