-- ==== Sys2Proof/Machine/Transmitter.lean ====
section
/-! DEFINITION. The Transmitter: TX_CANSEND, TX_SEND, TX_STEP and TX_STOP (44_transmitter.md R200-R215). -/

namespace Sys2Proof.Machine

/-- TX_CANSEND: report CanSend; "while sending, the result is 0 with no transport call" (R202, R203). -/
def execTxCansend (s : State) : Result :=
  let s := s.beginCommand
  if s.txState ≠ .notSending then .next (s.succeed 0)
  else
    let room := s.callAvailableForWrite
    .next (room.2.succeed (if s.cfg.txMinHeadroom ≤ room.1 then 1 else 0))

/-- The registers of an accepted send of `n` bytes (R204). -/
def startTransfer (now : Word) (n : Nat) (s : State) : State :=
  (((s.withTxSize n).withTxSent 0).withTxStartTime now).withTxState .sendingStartDelimiter

/-- TX_SEND: accept a send of `n` bytes of TXB (R204). -/
def execTxSend (n : Nat) (s : State) : Result :=
  let sample := s.beginCommand.sampleNow
  let s := sample.2
  if s.cfg.bufCap < n then .next (s.raise .range)
  else if n < Config.msgMin then .next (s.raise .rejected)
  else if s.txState ≠ .notSending then .next (s.raise .rejected)
  else
    let room := s.callAvailableForWrite
    if room.1 < s.cfg.txMinHeadroom then .next (room.2.raise .rejected)
    else .next ((startTransfer sample.1 n room.2).succeed 1)

/-- SendingStartDelimiter with `room` bytes of headroom (R208). -/
def txStartDelimiter (room : Nat) (s : State) : State :=
  if 1 ≤ room then
    let w := s.callWrite [delimiter]
    if w.1 = 1 then (w.2.withTxState .sendingData).finishStep .immediate else w.2.finishStep .immediate
  else s.finishStep .immediate

/-- How many bytes a data step offers: min(MAX_OUT, room, TX_SIZE - TX_SENT) (R209). -/
def txChunk (room : Nat) (s : State) : Nat := min s.cfg.maxOut (min room (s.txSize.toNat - s.txSent.toNat))

/-- The write of a data step, made "only if k > 0" (R209). -/
def txWriteChunk (room : Nat) (s : State) : State :=
  if 0 < txChunk room s then
    let w := s.callWrite (s.mem.readBytes .txb s.txSent.toNat (txChunk room s))
    w.2.withTxSent (s.txSent.toNat + w.1)
  else s

/-- SendingData with `room` bytes of headroom: "When TX_SENT reaches TX_SIZE, the same step sets TX_STATE to
SendingEndDelimiter" (R209). -/
def txData (room : Nat) (s : State) : State :=
  let s := txWriteChunk room s
  if s.txSent = s.txSize then (s.withTxState .sendingEndDelimiter).finishStep .immediate else s.finishStep .immediate

/-- SendingEndDelimiter with `room` bytes of headroom (R210). -/
def txEndDelimiter (room : Nat) (s : State) : State :=
  if 1 ≤ room then
    let w := s.callWrite [delimiter]
    if w.1 = 1 then ((w.2.withTxState .notSending).emit .msgSent).finishStep .suspend else w.2.finishStep .immediate
  else s.finishStep .immediate

/-- The one bounded unit of work of a connected sending step (R205). -/
def txWork (room : Nat) (s : State) : State :=
  if s.txState = .sendingStartDelimiter then txStartDelimiter room s
  else if s.txState = .sendingData then txData room s
  else txEndDelimiter room s

/-- A step of a sending Transmitter before whose deadline `now` lies: "stops re-arming" while the link is down (R207). -/
def txLinked (s : State) : State :=
  let conn := s.callConnected
  if conn.1 = false then conn.2.finishStep .suspend
  else
    let room := conn.2.callAvailableForWrite
    txWork room.1 room.2

/-- TX_STEP after sampling `now` (R205): the deadline first, which is strict and makes no transport call (R206). -/
def txStepAt (now : Word) (s : State) : State :=
  match s.txState.timeoutError? with
  | none => s.finishStep .suspend
  | some e =>
    if s.cfg.writeTimeoutMs < elapsedMs now s.txStartTime then
      ((s.withTxState .notSending).emit (.txError e)).finishStep .suspend
    else txLinked s

/-- TX_STEP: one scheduler step of the Transmitter (R205). -/
def execTxStep (s : State) : Result :=
  let sample := s.beginCommand.sampleNow
  .next (txStepAt sample.1 sample.2)

/-- TX_STOP: cancel any send; "TX_SIZE, TX_SENT, TX_START_TIME keep their values" (R212). -/
def execTxStop (s : State) : Result :=
  let s := s.beginCommand
  .next ((s.withTxState .notSending).succeed 0)

end Sys2Proof.Machine
end

