-- ==== Sys2Proof/Machine/Dispatch.lean ====
section
/-! DEFINITION. One arm per command of spec/opcode_table.json (30_encoding.md R84), each a call of its meaning. -/

namespace Sys2Proof.Machine

/-- The meaning of every command. -/
def exec (i : Instr) (s : State) : Host.Outcome State Fault Refusal :=
  match i with
  | .bufRd buf off => Sys2Proof.Machine.execBufRd buf off s
  | .bufWr buf off val => Sys2Proof.Machine.execBufWr buf off val s
  | .regRd reg => Sys2Proof.Machine.execRegRd reg s
  | .frameEncode src dst size => Sys2Proof.Machine.execFrameEncode src dst size s
  | .frameDecode src dst size => Sys2Proof.Machine.execFrameDecode src dst size s
  | .checkSetup => Sys2Proof.Machine.execCheckSetup s
  | .checkCompute buf off len => Sys2Proof.Machine.execCheckCompute buf off len s
  | .layoutMsgsize psize => Sys2Proof.Machine.execLayoutMsgsize psize s
  | .layoutPaysize msize => Sys2Proof.Machine.execLayoutPaysize msize s
  | .msgEncode buf msize => Sys2Proof.Machine.execMsgEncode buf msize s
  | .msgDecode buf esize => Sys2Proof.Machine.execMsgDecode buf esize s
  | .txCansend => Sys2Proof.Machine.execTxCansend s
  | .txSend size => Sys2Proof.Machine.execTxSend size s
  | .txStep => Sys2Proof.Machine.execTxStep s
  | .txStop => Sys2Proof.Machine.execTxStop s
  | .rxStart => Sys2Proof.Machine.execRxStart s
  | .rxStop => Sys2Proof.Machine.execRxStop s
  | .rxStep => Sys2Proof.Machine.execRxStep s
  | .rxWake => Sys2Proof.Machine.execRxWake s

end Sys2Proof.Machine
end

