-- ==== Sys2Proof/Machine/Step.lean ====
section
/-! DEFINITION. One step of the machine: the block takes the next command word from the host, decodes it and executes it
atomically to completion (00_scope.md R3, 20_memory.md R73, 30_encoding.md R80, R85). -/

namespace Sys2Proof.Machine

/-- One step. With no command issued nothing changes: "A host that stops issuing steps freezes both machines in their
current state" (70_reset_and_hazards.md R361, 60_exceptions.md R333; log 1). An illegal word raises CmdError(ILLEGAL) (R86). -/
def step (s : State) : Host.Outcome State Fault Refusal :=
  match s.nextCommand? with
  | none => .next s
  | some (w, s') =>
    match decode w with
    | .ok i => exec i s'
    | .error _ => .next (illegalCommand s')

/-- The state in which the host issues the command word with bits `w` as the next one: it stands for the host's delivery of
a command (log 1). A command is one 32-bit word (R80). -/
def State.withFetchWord (s : State) (nbits w : Nat) : State := s.issue (BitVec.ofNat 32 (w % 2 ^ nbits))

end Sys2Proof.Machine
end

