-- ==== Sys2Proof/Machine/Assembly.lean ====
section
/-! DEFINITION. The assembler of 30_encoding.md R89 as a function from one line of text to commands, with the
pseudo-instructions of R90. No command depends on it; a host may use it to write command words. Conventions that R89 leaves
open are in log 19. -/

namespace Sys2Proof.Machine

/-! ### Pseudo-instructions (R90) -/

/-- `BUF_FILL buf, off, b0, b1, ...`: one BUF_WR per byte at rising offsets (R90). -/
def bufFill (b : BufId) (off : Nat) : List Byte → List Instr
  | [] => []
  | x :: rest => .bufWr b off x :: bufFill b (off + 1) rest

/-- `LOAD_MSG h, p0, ...`: Header and Payload at TXB offsets 2 and up (R90). -/
def loadMsg (h : Byte) (p : List Byte) : List Instr := bufFill .txb headerOffset (h :: p)

/-- `SEND_MSG h, p0, ..., p(k−1)`: load, `MSG_ENCODE TXB, k+3`, `TX_SEND k+4` (R90). -/
def sendMsg (h : Byte) (p : List Byte) : List Instr :=
  loadMsg h p ++ [.msgEncode .txb (p.length + 3), .txSend (p.length + 4)]

/-- `RD_STATUS`: `REG_RD 0x00` (R90). -/
def rdStatus : List Instr := [.regRd 0x00]

/-! ### Text -/

/-- A blank character. -/
def isBlank (c : Char) : Bool := c == ' ' || c == '\t'

/-- The text without leading and trailing blanks. -/
def trimBlanks (cs : List Char) : List Char := ((cs.dropWhile isBlank).reverse.dropWhile isBlank).reverse

/-- The pieces of the text between commas. -/
def splitCommas : List Char → List (List Char)
  | [] => [[]]
  | c :: cs =>
    if c = ',' then [] :: splitCommas cs
    else
      match splitCommas cs with
      | [] => [[c]]
      | piece :: pieces => (c :: piece) :: pieces

/-- The value of a digit in a base up to 16. -/
def digit? (base : Nat) (c : Char) : Option Nat :=
  let n := c.toNat
  let d := if 48 ≤ n ∧ n ≤ 57 then n - 48 else if 65 ≤ n ∧ n ≤ 70 then n - 55 else if 97 ≤ n ∧ n ≤ 102 then n - 87 else 16
  if d < base then some d else none

/-- The number that digits write in a base, from the value of the digits before them. -/
def digits? (base : Nat) : Nat → List Char → Option Nat
  | acc, [] => some acc
  | acc, c :: cs =>
    match digit? base c with
    | some d => digits? base (acc * base + d) cs
    | none => none

/-- "A number is decimal, or hexadecimal with `0x`" (R89). -/
def number? : List Char → Option Nat
  | '0' :: 'x' :: c :: cs => digits? 16 0 (c :: cs)
  | c :: cs => digits? 10 0 (c :: cs)
  | [] => none

/-- A number that fits an 8-bit field (R81). -/
def byteOperand? (cs : List Char) : Option Nat :=
  match number? cs with
  | some n => if fitsField n then some n else none
  | none => none

/-- "A buffer operand is written `TXB`, `RXB` or `AUX`, or as the number 0, 1 or 2" (R89); 3 is accepted as the reserved id,
as 95_test_vectors.md writes it (log 19). -/
def bufferOperand? (cs : List Char) : Option BufId :=
  match String.ofList cs with
  | "TXB" => some .txb
  | "RXB" => some .rxb
  | "AUX" => some .aux
  | _ =>
    match number? cs with
    | some n => if n < 4 then some (.ofField n) else none
    | none => none

/-- "A REG_RD operand may also be the register's name from 10_state.md rule R41" (R89). -/
def registerOperand? (cs : List Char) : Option Nat :=
  match String.ofList cs with
  | "STATUS" => some 0x00
  | "TX_STATE" => some 0x01
  | "TX_SIZE" => some 0x02
  | "TX_SENT" => some 0x03
  | "TX_START_TIME" => some 0x04
  | "RX_LIFE" => some 0x08
  | "RX_ACC" => some 0x09
  | "RX_SIZE" => some 0x0A
  | "RX_LAST_TIME" => some 0x0B
  | "RX_POLL_TIME" => some 0x0C
  | "RX_ACTIVE" => some 0x0D
  | "MSM" => some 0x10
  | "BUF_CAP" => some 0x11
  | "MAX_OUT" => some 0x12
  | "MAX_IN" => some 0x13
  | "WRITE_TIMEOUT_MS" => some 0x14
  | "READ_TIMEOUT_MS" => some 0x15
  | "POLL_PERIOD_MS" => some 0x16
  | "DISCONNECTED_POLL_MS" => some 0x17
  | "TX_MIN_HEADROOM" => some 0x18
  | _ => byteOperand? cs

/-- A list of byte operands. -/
def byteOperands? : List (List Char) → Option (List Byte)
  | [] => some []
  | cs :: rest =>
    match byteOperand? cs, byteOperands? rest with
    | some n, some ns => some (BitVec.ofNat 8 n :: ns)
    | _, _ => none

/-- The commands of a mnemonic with its operands, in the operand order of R89 and R90. -/
def commands? (mnemonic : String) (operands : List (List Char)) : Option (List Instr) :=
  match mnemonic, operands with
  | "BUF_RD", [b, off] => do return [.bufRd (← bufferOperand? b) (← byteOperand? off)]
  | "BUF_WR", [b, off, val] => do
    return [.bufWr (← bufferOperand? b) (← byteOperand? off) (BitVec.ofNat 8 (← byteOperand? val))]
  | "REG_RD", [r] => do return [.regRd (← registerOperand? r)]
  | "FRAME_ENCODE", [src, dst, n] => do
    return [.frameEncode (← bufferOperand? src) (← bufferOperand? dst) (← byteOperand? n)]
  | "FRAME_DECODE", [src, dst, n] => do
    return [.frameDecode (← bufferOperand? src) (← bufferOperand? dst) (← byteOperand? n)]
  | "CHECK_SETUP", [] => some [.checkSetup]
  | "CHECK_COMPUTE", [b, off, len] => do
    return [.checkCompute (← bufferOperand? b) (← byteOperand? off) (← byteOperand? len)]
  | "LAYOUT_MSGSIZE", [p] => do return [.layoutMsgsize (← byteOperand? p)]
  | "LAYOUT_PAYSIZE", [m] => do return [.layoutPaysize (← byteOperand? m)]
  | "MSG_ENCODE", [b, n] => do return [.msgEncode (← bufferOperand? b) (← byteOperand? n)]
  | "MSG_DECODE", [b, n] => do return [.msgDecode (← bufferOperand? b) (← byteOperand? n)]
  | "TX_CANSEND", [] => some [.txCansend]
  | "TX_SEND", [n] => do return [.txSend (← byteOperand? n)]
  | "TX_STEP", [] => some [.txStep]
  | "TX_STOP", [] => some [.txStop]
  | "RX_START", [] => some [.rxStart]
  | "RX_STOP", [] => some [.rxStop]
  | "RX_STEP", [] => some [.rxStep]
  | "RX_WAKE", [] => some [.rxWake]
  | "BUF_FILL", b :: off :: bytes => do
    return bufFill (← bufferOperand? b) (← byteOperand? off) (← byteOperands? bytes)
  | "LOAD_MSG", h :: p => do return loadMsg (BitVec.ofNat 8 (← byteOperand? h)) (← byteOperands? p)
  | "SEND_MSG", h :: p => do return sendMsg (BitVec.ofNat 8 (← byteOperand? h)) (← byteOperands? p)
  | "RD_STATUS", [] => some rdStatus
  | _, _ => none

/-- The commands of one line, `MNEMONIC op1, op2, ...`, "Text after `;` is a comment" (R89); an empty line has none, and a
line of another form is refused (log 19). A line whose expansion leaves a field's range is refused too. -/
def assemble (line : String) : Option (List Instr) :=
  let text := trimBlanks (line.toList.takeWhile (· ≠ ';'))
  if text = [] then some []
  else
    let rest := trimBlanks (text.dropWhile fun c => !isBlank c)
    let operands := if rest = [] then [] else (splitCommas rest).map trimBlanks
    match commands? (String.ofList (text.takeWhile fun c => !isBlank c)) operands with
    | some is => if is.all Instr.wf then some is else none
    | none => none

end Sys2Proof.Machine
end

