-- ==== Sys2Proof/Safety.lean ====
section
/-! DEFINITION. What counts as a sound state of the block, in the terms claims use: the receiver invariants of 10_state.md
R42, the transmitter invariants of R43, the legal STATUS values of R23 and R25, and buffer memory in canonical form and
within its capacity (R37, R61). There is no unsafe step to rule out: no command faults (60_exceptions.md R310). -/

namespace Sys2Proof.Machine

/-- The state after a command whose whole effect is its response: STATUS, RESULT, and empty event and call lists (R293,
R317). -/
def State.responded (s : State) (status result : Word) : State :=
  { s with status := status, result := result, events := [], link := s.link.forgetCalls }

/-- "RX_LIFE ≠ Delivering ... RX_ACC = ReadingData if and only if RX_SIZE > 0 ..." (R42 i to v), "0 ≤ RX_SIZE ≤ BUF_CAP" (R33),
and an enabled Receiver has a valid key (45_receiver.md R254). -/
abbrev State.RxInv (s : State) : Prop :=
  s.rxLife ≠ .delivering
  ∧ (s.rxAcc = .readingData ↔ 0 < s.rxSize.toNat)
  ∧ (s.rxLife = .disabled ∨ s.rxLife = .waitingForTransport → s.rxAcc = .waitingForStart ∧ s.rxSize.toNat = 0)
  ∧ (s.rxLife = .accumulating → s.rxAcc = .readingData)
  ∧ (s.rxLife = .polling → s.rxAcc ≠ .readingData)
  ∧ s.rxSize.toNat ≤ s.cfg.bufCap
  ∧ (s.rxLife ≠ .disabled → s.cfg.keyValid = true)

/-- "TX_SENT ≤ TX_SIZE ≤ BUF_CAP. When TX_STATE = SendingStartDelimiter, TX_SENT = 0. When TX_STATE = SendingEndDelimiter,
TX_SENT = TX_SIZE" (R43), and a send in progress has at least MSG_MIN bytes (R28). -/
abbrev State.TxInv (s : State) : Prop :=
  s.txSent.toNat ≤ s.txSize.toNat
  ∧ s.txSize.toNat ≤ s.cfg.bufCap
  ∧ (s.txState = .sendingStartDelimiter → s.txSent.toNat = 0)
  ∧ (s.txState = .sendingEndDelimiter → s.txSent.toNat = s.txSize.toNat)
  ∧ (s.txState ≠ .notSending → Config.msgMin ≤ s.txSize.toNat)

/-- The memory is in canonical form and lists no byte outside a buffer's capacity (R37, R38, R61). -/
abbrev State.MemInv (s : State) : Prop := s.mem.wf = true ∧ s.mem.within s.cfg = true

/-- A STATUS value that some command can leave: OK = 1 with CERR = NONE, or OK = 0 with one of the codes of R311 (R23, R25). -/
abbrev LegalStatus (w : Word) : Prop :=
  w = statusWord true .none ∨ ∃ c ∈ [CErr.illegal, .range, .overlap, .busy, .key, .codec, .crc, .rejected],
    w = statusWord false c

/-- The invariant of every state that a run from reset of a legal configuration reaches at a command boundary. -/
abbrev State.Inv (s : State) : Prop := s.cfg.wf = true ∧ s.RxInv ∧ s.TxInv ∧ s.MemInv

/-- The bytes of the current transfer that are on the wire: nothing before the start delimiter, then the delimiter and
TXB[0..TX_SENT) (44_transmitter.md R208, R209, R214). -/
def State.sentSoFar (s : State) : List Byte :=
  match s.txState with
  | .notSending => []
  | .sendingStartDelimiter => []
  | .sendingData => delimiter :: s.mem.readBytes .txb 0 s.txSent.toNat
  | .sendingEndDelimiter => delimiter :: s.mem.readBytes .txb 0 s.txSize.toNat

/-- How many times a call list writes to the transport. -/
def writeCalls (cs : List TCall) : List (List Byte × Nat) :=
  cs.filterMap fun c => match c with
    | .write offered accepted => some (offered, accepted)
    | _ => none

/-- The bytes a call list reads from the transport. -/
def readCalls (cs : List TCall) : List Byte :=
  cs.filterMap fun c => match c with
    | .read x => some x
    | _ => none

/-- NOW as the next command samples it (R39). -/
def State.sampledNow (s : State) : Word := s.beginCommand.link.sampleNow.1

/-- The edge after a command has begun and sampled NOW (R39). -/
def State.sampledLink (s : State) : Link := s.beginCommand.link.sampleNow.2

/-- The answer of the `T.connected()` that a step command makes after sampling NOW (R205, R244). -/
def State.stepConnected (s : State) : Bool := s.sampledLink.connected.1

/-- The edge after that call. -/
def State.connectedLink (s : State) : Link := s.sampledLink.connected.2

/-- The answer of the `T.availableForWrite()` that a connected TX_STEP makes (R205). -/
def State.stepRoom (s : State) : Nat := s.connectedLink.availableForWrite.1

/-- The edge after that call. -/
def State.roomLink (s : State) : Link := s.connectedLink.availableForWrite.2

/-- The TXB bytes a data step offers to a transport with its headroom: TXB[TX_SENT..TX_SENT+k) with
k = min(MAX_OUT, room, TX_SIZE − TX_SENT) (R209). -/
def State.stepChunk (s : State) : List Byte :=
  s.mem.readBytes .txb s.txSent.toNat (min s.cfg.maxOut (min s.stepRoom (s.txSize.toNat - s.txSent.toNat)))

/-- The write deadline has passed: elapsed > WRITE_TIMEOUT_MS (R206). -/
abbrev State.writeDeadlinePassed (s : State) : Prop :=
  s.cfg.writeTimeoutMs < (s.sampledNow - s.txStartTime).toNat

/-- What a connected enabled step does before its first read: the link is reported up if it was not, and WaitingForTransport
has become Polling (45_receiver.md R247). -/
def State.linkReported (s : State) : State :=
  { s with
    rxLife := if s.rxLife = .waitingForTransport then .polling else s.rxLife,
    events := if s.rxLife = .waitingForTransport then [0x11#32] else [] }

/-- The edge after reading exactly these bytes, a positive `T.available()` before each `T.read()` (45_receiver.md R248), or
nothing where the transport does not give them. -/
def Link.readsBytes : Link → List Byte → Option Link
  | l, [] => some l
  | l, x :: xs =>
    if l.available.1 ≠ 0 ∧ l.available.2.read.1 = x then l.available.2.read.2.readsBytes xs else none

/-- The state after ProcessByte of each of these bytes in turn, or nothing where one of them closes a frame (45_receiver.md
R249-R252). -/
def State.accumulate : State → List Byte → Option State
  | s, [] => some s
  | s, x :: xs => if (processByte x s).1 then none else (processByte x s).2.accumulate xs

/-- An index of an input at which CobsDecode reads a code byte: the first, and after each code its end, while input is left
(R105). -/
inductive CodeAt (input : List Byte) : Nat → Prop
  | first : input ≠ [] → CodeAt input 0
  | next (r : Nat) (x : Byte) : CodeAt input r → input[r]? = some x → x ≠ 0 → r + x.toNat < input.length →
      CodeAt input (r + x.toNat)

end Sys2Proof.Machine
end

