-- ==== Sys2Proof/Certificates/Slice0/Obligations.lean ====
section
/-! DEFINITION. The statements for the provers, from the spec's numbered rules. Status words are written as numbers: 0x01 is
OK, 0x10 ILLEGAL, 0x20 RANGE, 0x30 OVERLAP, 0x40 BUSY, 0x50 KEY, 0x60 CODEC, 0x70 CRC, 0x80 REJECTED (10_state.md R23,
60_exceptions.md R311). `s.responded status result` is s with only its response written. -/

open Sys2Proof Sys2Proof.Machine

/-! ### Encoding -/

/-- Decode and encode agree on every command and every operand its fields can hold (30_encoding.md R81, R83, R84, R85). -/
def Obligations.EncodedCommandDecodesBack : Prop :=
  ∀ i : Instr, i.wf = true → decode (encode i) = .ok i

/-- "A field not listed for an opcode is ignored by that opcode: it may hold any value, and the value has no effect" (R83);
and no bit of a listed field is dropped. -/
def Obligations.DecodingReadsExactlyTheUsedFields : Prop :=
  ∀ (w : Word) (i : Instr), decode w = .ok i →
    i.wf = true ∧ encode i = w &&& i.usedBits ∧ ∀ w' : Word, w' &&& i.usedBits = w &&& i.usedBits → decode w' = .ok i

/-- "Thus a command is selected exactly by `(w & 0x0000F0FF) == OPC`" (R85): a word decodes to a command of opcode OPC exactly
when its masked bits are OPC. -/
def Obligations.CommandIsSelectedByMaskedOpcode : Prop :=
  ∀ w : Word,
    (∀ i, decode w = .ok i → w &&& 0x0000F0FF#32 = BitVec.ofNat 32 i.opcode)
    ∧ (∀ opc ∈ [0x01, 0x02, 0x03, 0x10, 0x11, 0x20, 0x21, 0x30, 0x31, 0x40, 0x41, 0x50, 0x51, 0x52, 0x53, 0x60, 0x61, 0x62, 0x63],
        w &&& 0x0000F0FF#32 = BitVec.ofNat 32 opc → ∃ i, decode w = .ok i ∧ i.opcode = opc)

/-- R86: every word with w[15:12] ≠ 0 and every word whose OPC is not in the map is illegal, and an illegal word sets
STATUS and RESULT "It has no other effect. In particular, it calls no transport function and emits no event." -/
def Obligations.IllegalWordsOnlyReportIllegal : Prop :=
  ∀ (s : State) (w : Word) (rest : List Word), s.pending = w :: rest →
    (w.toNat / 2 ^ 12 % 16 ≠ 0
      ∨ w.toNat % 256 ∉ [0x01, 0x02, 0x03, 0x10, 0x11, 0x20, 0x21, 0x30, 0x31, 0x40, 0x41, 0x50, 0x51, 0x52, 0x53, 0x60, 0x61,
          0x62, 0x63]) →
    step s = .next (({ s with pending := rest } : State).responded 0x10#32 0)

/-- The worked encodings of R91: each assembly line is one command, with this word, which decodes to it. -/
def Obligations.WorkedEncodingsHold : Prop :=
  ∀ row ∈ [("BUF_WR TXB, 2, 7", 0x07020002#32, Instr.bufWr .txb 2 7#8),
      ("MSG_ENCODE TXB, 3", 0x00030040#32, .msgEncode .txb 3),
      ("TX_SEND 4", 0x00040051#32, .txSend 4),
      ("TX_STEP", 0x00000052#32, .txStep),
      ("FRAME_ENCODE AUX, TXB, 5", 0x00050210#32, .frameEncode .aux .txb 5),
      ("FRAME_DECODE RXB, RXB, 6", 0x00060511#32, .frameDecode .rxb .rxb 6),
      ("CHECK_COMPUTE AUX, 1, 4", 0x01040221#32, .checkCompute .aux 1 4),
      ("REG_RD RX_SIZE", 0x000A0003#32, .regRd 0x0A),
      ("RX_STEP", 0x00000062#32, .rxStep)],
    assemble row.1 = some [row.2.2] ∧ encode row.2.2 = row.2.1 ∧ decode row.2.1 = .ok row.2.2

/-! ### The step -/

/-- The block executes the commands "one at a time, in the order the host issues them" (20_memory.md R73): a step takes the
next word off the list and runs its command. With no command issued nothing changes (the model's form of R361, log 1). -/
def Obligations.StepRunsTheDecodedCommand : Prop :=
  (∀ (s : State) (w : Word) (rest : List Word) (i : Instr), s.pending = w :: rest → decode w = .ok i →
    step s = exec i { s with pending := rest })
  ∧ ∀ s : State, s.pending = [] → step s = .next s

/-- "The block has no trap ... The next command executes normally, whatever the code was" (60_exceptions.md R310): a step
from any state answers a next state. -/
def Obligations.EveryStepAnswersANextState : Prop :=
  ∀ s : State, ∃ t, step s = .next t

/-! ### Invariants -/

/-- R42, the receiver invariants at every command boundary, which the spec marks as derived from R242 to R256 (with R33's bound,
and the valid key of R254): every step keeps them. -/
def Obligations.StepKeepsReceiverInvariant : Prop :=
  ∀ s t : State, s.cfg.wf = true → s.RxInv → step s = .next t → t.RxInv

/-- R43, the transmitter invariants at every command boundary, which the spec marks as derived from R204 and R208 to R210 (with
the least size of R28): every step keeps them. -/
def Obligations.StepKeepsTransmitterInvariant : Prop :=
  ∀ s t : State, s.cfg.wf = true → s.TxInv → step s = .next t → t.TxInv

/-- Every step keeps buffer memory canonical and writes no byte outside a buffer's capacity (10_state.md R37, R38, 20_memory.md
R61). The canonical form is the model's own (log 14). -/
def Obligations.StepKeepsMemoryCanonicalAndInBounds : Prop :=
  ∀ s t : State, s.cfg.wf = true → s.RxInv → s.MemInv → step s = .next t → t.MemInv

/-- The three invariants hold right after the reset of an instance of any legal configuration (R47). -/
def Obligations.ResetMeetsTheInvariants : Prop :=
  ∀ c : Config, c.wf = true → (State.resetWith c).Inv

/-- R350: what reset leaves in every register; R351: no transport call and no event. -/
def Obligations.ResetLeavesEveryRegisterAtItsValue : Prop :=
  ∀ c : Config, let s := State.resetWith c
    s.status = 0 ∧ s.result = 0 ∧ s.txState = .notSending ∧ s.txSize = 0 ∧ s.txSent = 0 ∧ s.txStartTime = 0
    ∧ s.rxLife = .disabled ∧ s.rxAcc = .waitingForStart ∧ s.rxSize = 0 ∧ s.rxLastTime = 0 ∧ s.rxPollTime = 0
    ∧ s.rxActive = false ∧ s.cfg = c ∧ s.events = [] ∧ s.link.calls = []

/-- R25: after every command STATUS.CERR is NONE where OK = 1, and one of the codes of R311 where OK = 0; the reserved bits are
0 (R23). -/
def Obligations.EveryCommandLeavesALegalStatus : Prop :=
  ∀ (i : Instr) (s t : State), exec i s = .next t →
    LegalStatus t.status
    ∧ (t.status.toNat % 2 = 1 → t.status.toNat / 16 % 16 = 0)
    ∧ (t.status.toNat % 2 = 0 → 1 ≤ t.status.toNat / 16 % 16 ∧ t.status.toNat / 16 % 16 ≤ 8)

/-- R40: "No command changes them", the configuration parameters. -/
def Obligations.NoCommandChangesTheConfiguration : Prop :=
  ∀ (i : Instr) (s t : State), exec i s = .next t → t.cfg = s.cfg

/-! ### Host access -/

/-- R290: BUF_RD returns the byte at any offset below BUF_CAP of any buffer, whoever owns it, and raises RANGE elsewhere; it
changes only STATUS and RESULT. -/
def Obligations.BufRdReadsOneByte : Prop :=
  ∀ (buf : BufId) (off : Nat) (s : State),
    (buf = .reserved ∨ s.cfg.bufCap ≤ off → exec (.bufRd buf off) s = .next (s.responded 0x20#32 0))
    ∧ ∀ b, regionOf buf = some b → off < s.cfg.bufCap →
        exec (.bufRd buf off) s = .next (s.responded 0x01#32 ((s.mem.readByte b off).setWidth 32))

/-- R291: BUF_WR writes one byte of a buffer that no running machine owns and changes no other byte; RANGE, then BUSY. -/
def Obligations.BufWrWritesOneByte : Prop :=
  ∀ (buf : BufId) (off : Nat) (val : Byte) (s : State),
    (buf = .reserved ∨ s.cfg.bufCap ≤ off → exec (.bufWr buf off val) s = .next (s.responded 0x20#32 0))
    ∧ ∀ b, regionOf buf = some b → off < s.cfg.bufCap →
        (s.owned b = true → exec (.bufWr buf off val) s = .next (s.responded 0x40#32 0))
        ∧ (s.owned b = false → ∃ m : Memory,
            exec (.bufWr buf off val) s = .next { s.responded 0x01#32 0 with mem := m }
            ∧ m.readByte b off = val
            ∧ ∀ b' off', (b' ≠ b ∨ off' ≠ off) → m.readByte b' off' = s.mem.readByte b' off')

/-- R41 and R292: REG_RD of each number of the table gives that register or constant, zero-extended, STATUS as it stood before;
every other number raises RANGE. It changes only STATUS and RESULT. -/
def Obligations.RegRdReadsTheRegisterTable : Prop :=
  ∀ s : State,
    let table : List (Nat × Nat) :=
      [(0x00, s.status.toNat), (0x01, s.txState.code), (0x02, s.txSize.toNat), (0x03, s.txSent.toNat),
       (0x04, s.txStartTime.toNat), (0x08, s.rxLife.code), (0x09, s.rxAcc.code), (0x0A, s.rxSize.toNat),
       (0x0B, s.rxLastTime.toNat), (0x0C, s.rxPollTime.toNat), (0x0D, s.rxActive.toNat), (0x10, s.cfg.msm),
       (0x11, s.cfg.msm + 1), (0x12, s.cfg.maxOut), (0x13, s.cfg.maxIn), (0x14, s.cfg.writeTimeoutMs),
       (0x15, s.cfg.readTimeoutMs), (0x16, s.cfg.pollPeriodMs), (0x17, s.cfg.disconnectedPollMs), (0x18, s.cfg.txMinHeadroom)]
    (∀ row ∈ table, exec (.regRd row.1) s = .next (s.responded 0x01#32 (BitVec.ofNat 32 row.2)))
    ∧ ∀ r, r ∉ table.map Prod.fst → exec (.regRd r) s = .next (s.responded 0x20#32 0)

/-! ### Buffer memory -/

/-- "Buffer writes affect only the bytes written" (20_memory.md R65), and a written byte reads back. -/
def Obligations.WrittenBytesReadBack : Prop :=
  ∀ (m : Memory) (b : Region) (off : Nat) (bytes : List Byte),
    (m.writeBytes b off bytes).readBytes b off bytes.length = bytes
    ∧ ∀ b' a, (b' ≠ b ∨ a < off ∨ off + bytes.length ≤ a) → (m.writeBytes b off bytes).readByte b' a = m.readByte b' a

/-! ### FrameCodec -/

/-- R103, which the spec marks as derived from R102: "No byte of CobsEncode(d) is 0x00." -/
def Obligations.StuffedBytesHoldNoDelimiter : Prop :=
  ∀ d : List Byte, ∀ x ∈ cobsEncode d, x ≠ 0x00#8

/-- R104, which the spec marks as derived from R102: len(CobsEncode(d)) = n + 1 + s, with s the sum of floor(run length / 254) over the maximal runs of non-zero bytes of
d; for n ≤ 253 it is n + 1. -/
def Obligations.StuffedLengthFormula : Prop :=
  ∀ d : List Byte,
    (cobsEncode d).length = d.length + 1 + ((d.splitOn 0x00#8).map fun run => run.length / 254).sum
    ∧ (d.length ≤ 253 → (cobsEncode d).length = d.length + 1)

/-- R110, which the spec marks as derived from R102 and R105: CobsDecode applied to CobsEncode(d), in place or from one store to another, returns (true, len(d)) and writes
exactly d; for d empty, CobsEncode(d) = [0x01] and the decoded size is 0. -/
def Obligations.DecodeInvertsEncode : Prop :=
  (∀ (d : List Byte) (m : Memory) (src dst : Region),
    m.readBytes src 0 (cobsEncode d).length = cobsEncode d →
    let r := cobsDecode src dst (cobsEncode d).length m
    r.ok = true ∧ r.size = d.length ∧ r.mem.readBytes dst 0 d.length = d ∧ r.decodedSize = d.length)
  ∧ cobsEncode [] = [0x01#8]

/-- R106: an input is malformed exactly when some code byte is 0x00 or its run would pass the end of the input. -/
def Obligations.MalformedInputsAreExactlyTwo : Prop :=
  ∀ (m : Memory) (src dst : Region) (n : Nat),
    (cobsDecode src dst n m).ok = false ↔
      ∃ r x, CodeAt (m.readBytes src 0 n) r ∧ (m.readBytes src 0 n)[r]? = some x ∧ (x = 0 ∨ n < r + x.toNat)

/-- R107, which the spec marks as derived from R105: CobsDecode reads only B[src][0..n) and writes only B[dst][0..w), w ≤ n − 1 when n ≥ 1 and w = 0 when n = 0. -/
def Obligations.DecodeStaysInBounds : Prop :=
  ∀ (m : Memory) (src dst : Region) (n : Nat),
    let r := cobsDecode src dst n m
    (1 ≤ n → r.size ≤ n - 1) ∧ (n = 0 → r.size = 0)
    ∧ (∀ b off, (b ≠ dst ∨ r.size ≤ off) → r.mem.readByte b off = m.readByte b off)
    ∧ ∀ m' : Memory, m'.readBytes src 0 n = m.readBytes src 0 n →
        let r' := cobsDecode src dst n m'
        r'.ok = r.ok ∧ r'.size = r.size ∧ r'.mem.readBytes dst 0 r.size = r.mem.readBytes dst 0 r.size

/-- R108, which the spec marks as derived from R105: "the in-place result equals the result of decoding a copy of the original input". -/
def Obligations.InPlaceDecodeEqualsDecodeOfACopy : Prop :=
  ∀ (m : Memory) (b copy : Region) (n : Nat), m.readBytes copy 0 n = m.readBytes b 0 n →
    let inPlace := cobsDecode b b n m
    let fromCopy := cobsDecode copy b n m
    inPlace.ok = fromCopy.ok ∧ inPlace.size = fromCopy.size
    ∧ ∀ b' off, inPlace.mem.readByte b' off = fromCopy.mem.readByte b' off

/-- R112: FRAME_ENCODE writes CobsEncode of the source's first n bytes at the destination's start and changes no other byte;
RANGE, OVERLAP, BUSY in that priority. -/
def Obligations.FrameEncodeStuffsAcrossBuffers : Prop :=
  ∀ (src dst : BufId) (n : Nat) (s : State), s.cfg.wf = true →
    (src = .reserved ∨ dst = .reserved ∨ s.cfg.msm < n → exec (.frameEncode src dst n) s = .next (s.responded 0x20#32 0))
    ∧ ∀ a b, regionOf src = some a → regionOf dst = some b → n ≤ s.cfg.msm →
        (src = dst → exec (.frameEncode src dst n) s = .next (s.responded 0x30#32 0))
        ∧ (src ≠ dst → s.owned b = true → exec (.frameEncode src dst n) s = .next (s.responded 0x40#32 0))
        ∧ (src ≠ dst → s.owned b = false → ∃ m : Memory,
            exec (.frameEncode src dst n) s = .next { s.responded 0x01#32 (BitVec.ofNat 32 (n + 1)) with mem := m }
            ∧ m.readBytes b 0 (n + 1) = cobsEncode (s.mem.readBytes a 0 n)
            ∧ ∀ b' off, (b' ≠ b ∨ n + 1 ≤ off) → m.readByte b' off = s.mem.readByte b' off)

/-- R113: FRAME_DECODE leaves CobsDecode's memory and its size, or CODEC for a malformed input and for size 0; no byte
outside the decoded ones changes; RANGE, then BUSY. -/
def Obligations.FrameDecodeUnstuffs : Prop :=
  ∀ (src dst : BufId) (n : Nat) (s : State),
    (src = .reserved ∨ dst = .reserved ∨ s.cfg.bufCap < n → exec (.frameDecode src dst n) s = .next (s.responded 0x20#32 0))
    ∧ ∀ a b, regionOf src = some a → regionOf dst = some b → n ≤ s.cfg.bufCap →
        (s.owned b = true → exec (.frameDecode src dst n) s = .next (s.responded 0x40#32 0))
        ∧ (s.owned b = false →
            let r := cobsDecode a b n s.mem
            (exec (.frameDecode src dst n) s =
              if r.ok = true ∧ 0 < r.size then
                .next { s.responded 0x01#32 (BitVec.ofNat 32 r.size) with mem := r.mem }
              else .next { s.responded 0x60#32 0 with mem := r.mem })
            ∧ ∀ b' off, (b' ≠ b ∨ r.size ≤ off) → r.mem.readByte b' off = s.mem.readByte b' off)

/-! ### The keyed check -/

/-- R137: CHECK_SETUP reports 1 exactly when KEY_LEN ≥ 1, and always with OK. -/
def Obligations.CheckSetupReportsTheKey : Prop :=
  ∀ s : State, exec .checkSetup s = .next (s.responded 0x01#32 (if 1 ≤ s.cfg.key.length then 1 else 0))

/-- R138 with R133 (the arithmetic of Fletcher16 is the spec's own general knowledge, R132, log 17): CHECK_COMPUTE gives Fletcher16 of the key and then the range, at most 0xFEFE; RANGE, then KEY. -/
def Obligations.CheckComputeGivesTheKeyedCheck : Prop :=
  ∀ (buf : BufId) (off len : Nat) (s : State),
    (buf = .reserved ∨ s.cfg.bufCap < off + len → exec (.checkCompute buf off len) s = .next (s.responded 0x20#32 0))
    ∧ ∀ b, regionOf buf = some b → off + len ≤ s.cfg.bufCap →
        (s.cfg.key = [] → exec (.checkCompute buf off len) s = .next (s.responded 0x50#32 0))
        ∧ (s.cfg.key ≠ [] → ∃ v : Word,
            exec (.checkCompute buf off len) s = .next (s.responded 0x01#32 v)
            ∧ v = (fletcher16 (s.cfg.key ++ s.mem.readBytes b off len)).setWidth 32 ∧ v.toNat ≤ 0xFEFE)

/-- R136, which the spec marks as derived from R132 and R133 (log 17): (a) neither check byte is 0xFF; (b) 0x00 and 0xFF are interchangeable in the data; (c) keys with equal Fletcher sums
give equal checks for all data; (d) the check is a function of the key and the data alone. -/
def Obligations.KeyedCheckArithmetic : Prop :=
  (∀ x : List Byte, checkLow (fletcher16 x) ≠ 0xFF#8 ∧ checkHigh (fletcher16 x) ≠ 0xFF#8)
  ∧ (∀ x y : List Byte, fletcher16 (x ++ [0xFF#8] ++ y) = fletcher16 (x ++ [0x00#8] ++ y))
  ∧ (∀ c c' : Config, fletcher16 c.key = fletcher16 c'.key → ∀ data, keyedCheck c data = keyedCheck c' data)
  ∧ ∀ c c' : Config, c.key = c'.key → ∀ data, keyedCheck c data = keyedCheck c' data

/-! ### Message layout -/

/-- R156 and R157: the two layout commands, which never fail. -/
def Obligations.LayoutCommandsConvertSizes : Prop :=
  ∀ (n : Nat) (s : State),
    exec (.layoutMsgsize n) s = .next (s.responded 0x01#32 (BitVec.ofNat 32 (min (n + 3) 255)))
    ∧ exec (.layoutPaysize n) s = .next (s.responded 0x01#32 (BitVec.ofNat 32 (if 3 ≤ n then n - 3 else 0)))

/-- R155, which the spec marks as derived from R153 and R154: GetMessageSize(GetPayloadSize(n)) = n for 3 ≤ n ≤ 255, and 3 for n < 3. -/
def Obligations.LayoutConversionsAgree : Prop :=
  ∀ n : Nat, (3 ≤ n → n ≤ 255 → messageSize (payloadSize n) = n) ∧ (n < 3 → messageSize (payloadSize n) = 3)

/-! ### MessageCodec -/

/-- R173 with R171 and R134: MSG_ENCODE leaves the stuffed frame of the check (low byte first) and the content from Header on;
the bytes at offsets 0 and 1 are ignored; no other byte changes but the first n of SCRATCH; RANGE, BUSY, KEY in that priority. -/
def Obligations.MsgEncodeBuildsTheStuffedFrame : Prop :=
  ∀ (buf : BufId) (n : Nat) (s : State), s.cfg.wf = true →
    (buf = .reserved ∨ n < 3 ∨ s.cfg.msm < n → exec (.msgEncode buf n) s = .next (s.responded 0x20#32 0))
    ∧ ∀ b, regionOf buf = some b → 3 ≤ n → n ≤ s.cfg.msm →
        (s.owned b = true → exec (.msgEncode buf n) s = .next (s.responded 0x40#32 0))
        ∧ (s.owned b = false → s.cfg.key = [] → exec (.msgEncode buf n) s = .next (s.responded 0x50#32 0))
        ∧ (s.owned b = false → s.cfg.key ≠ [] → ∃ m : Memory,
            exec (.msgEncode buf n) s = .next { s.responded 0x01#32 (BitVec.ofNat 32 (n + 1)) with mem := m }
            ∧ m.readBytes b 0 (n + 1) = cobsEncode (frameOf s.cfg (s.mem.readBytes b 2 (n - 2)))
            ∧ ∀ b' off, (b' ≠ .scratch ∨ n ≤ off) → (b' ≠ b ∨ n + 1 ≤ off) → m.readByte b' off = s.mem.readByte b' off)

/-- R174 with R172: MSG_DECODE un-stuffs in place and reports the size of a valid frame, CODEC with RESULT 0 for a failed or
short decode, CRC with RESULT n for a mismatch; no byte outside the decoded ones changes; RANGE, BUSY, KEY before these. -/
def Obligations.MsgDecodeValidatesTheFrame : Prop :=
  ∀ (buf : BufId) (size : Nat) (s : State),
    (buf = .reserved ∨ s.cfg.bufCap < size → exec (.msgDecode buf size) s = .next (s.responded 0x20#32 0))
    ∧ ∀ b, regionOf buf = some b → size ≤ s.cfg.bufCap →
        (s.owned b = true → exec (.msgDecode buf size) s = .next (s.responded 0x40#32 0))
        ∧ (s.owned b = false → s.cfg.key = [] → exec (.msgDecode buf size) s = .next (s.responded 0x50#32 0))
        ∧ (s.owned b = false → s.cfg.key ≠ [] →
            let r := cobsDecode b b size s.mem
            let check := fletcher16 (s.cfg.key ++ r.mem.readBytes b 2 (r.size - 2))
            (exec (.msgDecode buf size) s =
              if r.ok = false ∨ r.size < 3 then .next { s.responded 0x60#32 0 with mem := r.mem }
              else if r.mem.readByte b 0 = checkLow check ∧ r.mem.readByte b 1 = checkHigh check then
                .next { s.responded 0x01#32 (BitVec.ofNat 32 r.size) with mem := r.mem }
              else .next { s.responded 0x70#32 (BitVec.ofNat 32 r.size) with mem := r.mem })
            ∧ ∀ b' off, (b' ≠ b ∨ r.size ≤ off) → r.mem.readByte b' off = s.mem.readByte b' off)

/-- R177, the round trip, which the spec marks as derived from R171, R172 and R110: MSG_ENCODE and then MSG_DECODE of a message with any header and any payload of at most PSM bytes
gives OK, its size, and the header and payload back. -/
def Obligations.MessageRoundTrip : Prop :=
  ∀ (s : State) (buf : BufId) (b : Region) (h : Byte) (p : List Byte),
    s.cfg.wf = true → s.cfg.key ≠ [] → regionOf buf = some b → s.owned b = false → p.length ≤ s.cfg.psm →
    s.mem.readByte b 2 = h → s.mem.readBytes b 3 p.length = p →
    ∃ t u : State, exec (.msgEncode buf (p.length + 3)) s = .next t ∧ exec (.msgDecode buf (p.length + 4)) t = .next u
      ∧ u.status = 0x01#32 ∧ u.result = BitVec.ofNat 32 (p.length + 3)
      ∧ u.mem.readByte b 2 = h ∧ u.mem.readBytes b 3 p.length = p

/-! ### The transport -/

/-- R68: `T.write(seq)` accepts some w with 0 ≤ w ≤ len(seq), and exactly seq[0..w) is appended to the outbound stream. How w is
drawn, and that the streams and the calls are recorded in the state, are the model's choices (log 8, log 9, log 10). -/
def Obligations.TransportWriteAppendsAcceptedBytes : Prop :=
  ∀ (l : Link) (offered : List Byte),
    let w := (l.write offered).1
    w ≤ offered.length ∧ (l.write offered).2.outbound = l.outbound ++ offered.take w
    ∧ (l.write offered).2.calls = l.calls ++ [.write offered w] ∧ (l.write offered).2.inbound = l.inbound

/-! ### Transmitter -/

/-- R203: TX_CANSEND reports 1 exactly when no send is in progress and the transport's headroom is at least TX_MIN_HEADROOM;
while sending it makes no transport call. -/
def Obligations.TxCansendReportsCanSend : Prop :=
  ∀ s : State,
    (s.txState ≠ .notSending → exec .txCansend s = .next (s.responded 0x01#32 0))
    ∧ (s.txState = .notSending →
        let room := s.beginCommand.link.availableForWrite
        exec .txCansend s =
          .next { s.responded 0x01#32 (if s.cfg.txMinHeadroom ≤ room.1 then 1 else 0) with link := room.2 })

/-- R204: TX_SEND accepts a send of MSG_MIN ≤ n ≤ BUF_CAP bytes when the Transmitter is idle and the headroom suffices, and
records its size and start time; RANGE, then REJECTED, with every TX register unchanged. -/
def Obligations.TxSendAcceptsOrRejects : Prop :=
  ∀ (n : Nat) (s : State),
    let sampled := s.sampledLink
    let room := sampled.availableForWrite
    (s.cfg.bufCap < n → exec (.txSend n) s = .next { s.responded 0x20#32 0 with link := sampled })
    ∧ (n ≤ s.cfg.bufCap → n < 3 ∨ s.txState ≠ .notSending →
        exec (.txSend n) s = .next { s.responded 0x80#32 0 with link := sampled })
    ∧ (n ≤ s.cfg.bufCap → 3 ≤ n → s.txState = .notSending → room.1 < s.cfg.txMinHeadroom →
        exec (.txSend n) s = .next { s.responded 0x80#32 0 with link := room.2 })
    ∧ (n ≤ s.cfg.bufCap → 3 ≤ n → s.txState = .notSending → s.cfg.txMinHeadroom ≤ room.1 →
        exec (.txSend n) s = .next { s.responded 0x01#32 1 with
          link := room.2, txSize := BitVec.ofNat 8 n, txSent := 0, txStartTime := s.sampledNow,
          txState := .sendingStartDelimiter })

/-- R205 in NotSending (SUSPEND, no transport call), R206 (the deadline: no transport call, NotSending, exactly one TX_ERROR
naming the state) and R207 (link down: nothing written, no state changed, SUSPEND). -/
def Obligations.TxStepSuspends : Prop :=
  ∀ s : State,
    (s.txState = .notSending → exec .txStep s = .next { s.responded 0x01#32 0x80000000#32 with link := s.sampledLink })
    ∧ (s.txState ≠ .notSending → s.writeDeadlinePassed →
        exec .txStep s = .next { s.responded 0x01#32 0x80000000#32 with
          link := s.sampledLink, txState := .notSending,
          events := [match s.txState with
            | .sendingStartDelimiter => 0x15#32
            | .sendingData => 0x25#32
            | _ => 0x35#32] })
    ∧ (s.txState ≠ .notSending → ¬ s.writeDeadlinePassed → s.stepConnected = false →
        exec .txStep s = .next { s.responded 0x01#32 0x80000000#32 with link := s.connectedLink })

/-- R208: in SendingStartDelimiter with headroom the step offers the delimiter and moves on only when it is accepted; without
headroom it makes no write call. -/
def Obligations.TxStepWritesTheStartDelimiter : Prop :=
  ∀ s : State, s.txState = .sendingStartDelimiter → ¬ s.writeDeadlinePassed → s.stepConnected = true →
    let w := s.roomLink.write [0x00#8]
    (s.stepRoom = 0 → exec .txStep s = .next { s.responded 0x01#32 0 with link := s.roomLink })
    ∧ (1 ≤ s.stepRoom → exec .txStep s = .next { s.responded 0x01#32 0 with
          link := w.2, txState := if w.1 = 1 then .sendingData else .sendingStartDelimiter })

/-- R209: in SendingData the step offers TXB[TX_SENT..TX_SENT+k) in one write, only if k > 0, adds what was accepted, and when
TX_SENT reaches TX_SIZE moves on. -/
def Obligations.TxStepWritesADataChunk : Prop :=
  ∀ s : State, s.cfg.wf = true → s.TxInv → s.txState = .sendingData → ¬ s.writeDeadlinePassed → s.stepConnected = true →
    let w := s.roomLink.write s.stepChunk
    let sent := s.txSent.toNat + w.1
    ((s.stepRoom = 0 ∨ s.txSent = s.txSize) → exec .txStep s = .next { s.responded 0x01#32 0 with
        link := s.roomLink, txState := if s.txSent = s.txSize then .sendingEndDelimiter else .sendingData })
    ∧ (1 ≤ s.stepRoom → s.txSent ≠ s.txSize →
        s.stepChunk.length = min s.cfg.maxOut (min s.stepRoom (s.txSize.toNat - s.txSent.toNat)) ∧ 0 < s.stepChunk.length
        ∧ sent ≤ s.txSize.toNat
        ∧ exec .txStep s = .next { s.responded 0x01#32 0 with
            link := w.2, txSent := BitVec.ofNat 8 sent,
            txState := if sent = s.txSize.toNat then .sendingEndDelimiter else .sendingData })

/-- R210: in SendingEndDelimiter with headroom the step offers the delimiter; when it is accepted the send is complete, with
MSG_SENT and SUSPEND; otherwise the state is unchanged and the request IMMEDIATE. -/
def Obligations.TxStepWritesTheEndDelimiter : Prop :=
  ∀ s : State, s.txState = .sendingEndDelimiter → ¬ s.writeDeadlinePassed → s.stepConnected = true →
    let w := s.roomLink.write [0x00#8]
    (s.stepRoom = 0 → exec .txStep s = .next { s.responded 0x01#32 0 with link := s.roomLink })
    ∧ (1 ≤ s.stepRoom → w.1 ≠ 1 → exec .txStep s = .next { s.responded 0x01#32 0 with link := w.2 })
    ∧ (1 ≤ s.stepRoom → w.1 = 1 → exec .txStep s = .next { s.responded 0x01#32 0x80000000#32 with
          link := w.2, txState := .notSending, events := [0x03#32] })

/-- R212: TX_STOP cancels any send with no transport call and no event; the other TX registers keep their values. -/
def Obligations.TxStopCancelsTheSend : Prop :=
  ∀ s : State, exec .txStop s = .next { s.responded 0x01#32 0 with txState := .notSending }

/-- R213 and R214, which the spec marks as derived from R201 to R212: while a send runs, the wire holds what was there before it and then exactly the transfer's bytes so far, and
TXB does not change; a send ends by a TX_STEP that emits MSG_SENT with the whole of 0x00, TXB[0..TX_SIZE), 0x00 on the wire, by
a TX_STEP that emits exactly one TX_ERROR, or by TX_STOP, which emits nothing; the last two leave a prefix of that sequence. -/
def Obligations.ATransferPutsExactlyItsFrameOnTheWire : Prop :=
  ∀ (s t : State) (i : Instr) (before : List Byte),
    s.cfg.wf = true → s.TxInv → s.txState ≠ .notSending → s.link.outbound = before ++ s.sentSoFar → exec i s = .next t →
    let frame := wireFormat (s.mem.readBytes .txb 0 s.txSize.toNat)
    t.mem.txb = s.mem.txb ∧ t.txSize = s.txSize ∧ s.sentSoFar <+: frame
    ∧ ((t.txState ≠ .notSending ∧ 0x03#32 ∉ t.events ∧ t.link.outbound = before ++ t.sentSoFar)
      ∨ (i = .txStep ∧ t.txState = .notSending ∧ t.events = [0x03#32] ∧ t.link.outbound = before ++ frame)
      ∨ (i = .txStep ∧ t.txState = .notSending ∧ (∃ e : TxErr, t.events = [(Event.txError e).word])
          ∧ t.link.outbound = before ++ s.sentSoFar)
      ∨ (i = .txStop ∧ t.txState = .notSending ∧ t.events = [] ∧ t.link.outbound = before ++ s.sentSoFar))

/-! ### Receiver -/

/-- R242: RX_START begins the link of a disabled Receiver with a valid key; it is a successful no-op while running; without a
valid key it emits RX_ERROR(SetupError) and raises KEY. -/
def Obligations.RxStartEnablesTheReceiver : Prop :=
  ∀ s : State,
    (s.rxLife ≠ .disabled → exec .rxStart s = .next (s.responded 0x01#32 0))
    ∧ (s.rxLife = .disabled → s.cfg.key = [] →
        exec .rxStart s = .next { s.responded 0x50#32 0 with events := [0x54#32] })
    ∧ (s.rxLife = .disabled → s.cfg.key ≠ [] →
        exec .rxStart s = .next { s.responded 0x01#32 0 with
          link := { s.link with calls := [.beginLink s.cfg.baudrate] },
          rxLife := .waitingForTransport, rxAcc := .waitingForStart, rxSize := 0, rxActive := false })

/-- R243: RX_STOP disables a running Receiver, ends the link, and reports it down only if it was reported up. -/
def Obligations.RxStopDisablesTheReceiver : Prop :=
  ∀ s : State,
    (s.rxLife = .disabled → exec .rxStop s = .next (s.responded 0x01#32 0))
    ∧ (s.rxLife ≠ .disabled →
        exec .rxStop s = .next { s.responded 0x01#32 0 with
          link := { s.link with calls := [.endLink] },
          events := if s.rxLife = .polling ∨ s.rxLife = .accumulating then [0x01#32] else [],
          rxLife := .disabled, rxAcc := .waitingForStart, rxSize := 0, rxActive := false })

/-- R258: RX_WAKE asks for an immediate step of an enabled Receiver and changes nothing else. -/
def Obligations.RxWakeOnlyAnswers : Prop :=
  ∀ s : State, exec .rxWake s = .next (s.responded 0x01#32 (if s.rxLife = .disabled then 0x80000000#32 else 0x00000000#32))

/-- R245 (a disabled Receiver's step does nothing) and R246 (link down: accumulator dropped, WaitingForTransport, CONN_CHANGED(0)
if the link was reported up, the coarse delay, no byte read). -/
def Obligations.RxStepWithoutALink : Prop :=
  ∀ s : State,
    (s.rxLife = .disabled → exec .rxStep s = .next { s.responded 0x01#32 0x80000000#32 with link := s.sampledLink })
    ∧ (s.rxLife ≠ .disabled → s.stepConnected = false →
        exec .rxStep s = .next { s.responded 0x01#32 (BitVec.ofNat 32 (0x40000000 + s.cfg.disconnectedPollMs)) with
          link := s.connectedLink,
          events := if s.rxLife = .polling ∨ s.rxLife = .accumulating then [0x01#32] else [],
          rxLife := .waitingForTransport, rxAcc := .waitingForStart, rxSize := 0, rxActive := false })

/-- R247, R253 and R255 to R257 for a connected step that closes no frame. The link is reported up if it was not. With no byte
read, an accumulation idle for more than READ_TIMEOUT_MS is dropped with RX_ERROR(StartTimeout), the poll becomes passive and
the request is the relaxed delay. With bytes read, until MAX_IN of them or until `T.available()` answers 0, each is processed in
order, both time stamps become NOW, the poll becomes active, the request is IMMEDIATE, and no timeout is checked. -/
def Obligations.RxStepThatClosesNoFrame : Prop :=
  ∀ s : State, s.rxLife ≠ .disabled → s.stepConnected = true →
    (s.cfg.wf = true → s.connectedLink.available.1 = 0 →
      let timeout : Prop := s.rxAcc = .readingData ∧ s.cfg.readTimeoutMs < (s.sampledNow - s.rxLastTime).toNat
      let up : List Word := if s.rxLife = .waitingForTransport then [0x11#32] else []
      (timeout → exec .rxStep s = .next { s.responded 0x01#32 (BitVec.ofNat 32 (0x40000000 + s.cfg.pollPeriodMs)) with
          link := s.connectedLink.available.2, events := up ++ [0x34#32],
          rxLife := .polling, rxAcc := .waitingForStart, rxSize := 0, rxActive := false })
      ∧ (¬ timeout → exec .rxStep s = .next { s.responded 0x01#32 (BitVec.ofNat 32 (0x40000000 + s.cfg.pollPeriodMs)) with
          link := s.connectedLink.available.2, events := up,
          rxLife := if s.rxAcc = .readingData then .accumulating else .polling, rxActive := false }))
    ∧ ∀ (xs : List Byte) (l' : Link) (u : State), xs ≠ [] →
        s.connectedLink.readsBytes xs = some l' → s.linkReported.accumulate xs = some u →
        (∀ w ∈ u.events, w ∈ [0x11#32, 0x14#32, 0x24#32])
        ∧ (∀ b off, b ≠ .rxb → u.mem.readByte b off = s.mem.readByte b off)
        ∧ (xs.length = s.cfg.maxIn → exec .rxStep s = .next { u with
            status := 0x01#32, result := 0x00000000#32, link := l',
            rxLastTime := s.sampledNow, rxPollTime := s.sampledNow, rxActive := true,
            rxLife := if u.rxAcc = .readingData then .accumulating else .polling })
        ∧ (xs.length < s.cfg.maxIn → l'.available.1 = 0 → exec .rxStep s = .next { u with
            status := 0x01#32, result := 0x00000000#32, link := l'.available.2,
            rxLastTime := s.sampledNow, rxPollTime := s.sampledNow, rxActive := true,
            rxLife := if u.rxAcc = .readingData then .accumulating else .polling })

/-- R249 to R252: what each accumulation state does with a byte, and when it closes a frame. -/
def Obligations.EveryByteIsClassified : Prop :=
  ∀ (x : Byte) (s : State),
    (s.rxAcc = .waitingForStart →
      processByte x s = (false, { s with rxAcc := if x = 0x00#8 then .waitingForData else .waitingForStart }))
    ∧ (s.rxAcc = .waitingForData → x = 0x00#8 → processByte x s = (false, s))
    ∧ (s.rxAcc = .waitingForData → x ≠ 0x00#8 → ∃ m : Memory,
        processByte x s = (false, { s with mem := m, rxAcc := .readingData, rxSize := 1 })
        ∧ m.readByte .rxb 0 = x ∧ ∀ b off, (b ≠ .rxb ∨ off ≠ 0) → m.readByte b off = s.mem.readByte b off)
    ∧ (s.rxAcc = .readingData → x = 0x00#8 → 3 ≤ s.rxSize.toNat → processByte x s = (true, s))
    ∧ (s.rxAcc = .readingData → x = 0x00#8 → s.rxSize.toNat < 3 →
        processByte x s = (false, { s with events := s.events ++ [0x14#32], rxAcc := .waitingForData, rxSize := 0 }))
    ∧ (s.rxAcc = .readingData → x ≠ 0x00#8 → s.rxSize.toNat < s.cfg.bufCap → ∃ m : Memory,
        processByte x s = (false, { s with mem := m, rxSize := s.rxSize + 1 })
        ∧ m.readByte .rxb s.rxSize.toNat = x
        ∧ ∀ b off, (b ≠ .rxb ∨ off ≠ s.rxSize.toNat) → m.readByte b off = s.mem.readByte b off)
    ∧ (s.rxAcc = .readingData → x ≠ 0x00#8 → s.cfg.bufCap ≤ s.rxSize.toNat →
        processByte x s = (false, { s with events := s.events ++ [0x24#32], rxAcc := .waitingForStart, rxSize := 0 }))

/-- R248 and R365: one RX_STEP makes at most MAX_IN reads and no write; one TX_STEP makes at most one write, of at most MAX_OUT
bytes, and no read. -/
def Obligations.StepsDoBoundedTransportWork : Prop :=
  ∀ s t : State, s.cfg.wf = true →
    (exec .rxStep s = .next t → (readCalls t.link.calls).length ≤ s.cfg.maxIn ∧ writeCalls t.link.calls = []
      ∧ t.link.inbound = s.link.inbound ++ readCalls t.link.calls)
    ∧ (exec .txStep s = .next t → readCalls t.link.calls = [] ∧ (writeCalls t.link.calls).length ≤ 1
      ∧ ∀ w ∈ writeCalls t.link.calls, w.1.length ≤ s.cfg.maxOut ∧ w.2 ≤ w.1.length)

/-- R261, which the spec marks as derived: "No delivery without validation": where an RX_STEP's response carries MSG_RECEIVED(h, p), RXB holds a frame whose
stored check is the keyed check of its content, with header h and p payload bytes, and p ≤ PSM. -/
def Obligations.NoDeliveryWithoutValidation : Prop :=
  ∀ (s t : State) (h : Byte) (p : Nat), s.cfg.wf = true → s.RxInv → p < 256 → exec .rxStep s = .next t →
    (Event.msgReceived h p).word ∈ t.events →
    p ≤ s.cfg.psm ∧ t.mem.readByte .rxb 2 = h
    ∧ let check := fletcher16 (s.cfg.key ++ t.mem.readBytes .rxb 2 (p + 1))
      t.mem.readByte .rxb 0 = checkLow check ∧ t.mem.readByte .rxb 1 = checkHigh check

/-- R251, R253, R254, R256 and R257 for a connected step that closes a frame, from any enabled state: the bytes before the
delimiter are processed in order, the frame is un-stuffed in place, and the step emits MSG_RECEIVED for a valid frame and exactly
RX_ERROR(Crc) = 0x44 for any other, un-stuffing failure, short frame and check mismatch alike. And from Transmitter to Receiver
(R158, R260, R262): in one step from Polling and WaitingForData, the stuffed frame of a header and payload with a delimiter
delivers exactly that header and payload. -/
def Obligations.RxStepThatClosesAFrame : Prop :=
  (∀ (s : State) (xs : List Byte) (l' : Link) (u : State), s.rxLife ≠ .disabled → s.stepConnected = true →
    xs.length + 1 ≤ s.cfg.maxIn → s.connectedLink.readsBytes (xs ++ [0x00#8]) = some l' →
    s.linkReported.accumulate xs = some u → u.rxAcc = .readingData → 3 ≤ u.rxSize.toNat →
    let r := cobsDecode .rxb .rxb u.rxSize.toNat u.mem
    let check := fletcher16 (s.cfg.key ++ r.mem.readBytes .rxb 2 (r.size - 2))
    let valid : Prop := r.ok = true ∧ 3 ≤ r.size
      ∧ r.mem.readByte .rxb 0 = checkLow check ∧ r.mem.readByte .rxb 1 = checkHigh check
    (∀ w ∈ u.events, w ∈ [0x11#32, 0x14#32, 0x24#32])
    ∧ (∀ b off, b ≠ .rxb → r.mem.readByte b off = s.mem.readByte b off)
    ∧ (valid → exec .rxStep s = .next { u with
        status := 0x01#32, result := 0x00000000#32, mem := r.mem, link := l',
        events := u.events ++ [(Event.msgReceived (r.mem.readByte .rxb 2) (r.size - 3)).word],
        rxLife := .polling, rxAcc := .waitingForData, rxSize := 0, rxActive := true,
        rxLastTime := s.sampledNow, rxPollTime := s.sampledNow })
    ∧ (¬ valid → exec .rxStep s = .next { u with
        status := 0x01#32, result := 0x00000000#32, mem := r.mem, link := l',
        events := u.events ++ [0x44#32],
        rxLife := .polling, rxAcc := .waitingForData, rxSize := 0, rxActive := true,
        rxLastTime := s.sampledNow, rxPollTime := s.sampledNow }))
  ∧ (∀ (s : State) (h : Byte) (p : List Byte) (counts : List Nat) (later : List Byte),
    let stuffed := cobsEncode (frameOf s.cfg (h :: p))
    s.cfg.wf = true → s.cfg.key ≠ [] → p.length ≤ s.cfg.psm →
    s.rxLife = .polling → s.rxAcc = .waitingForData → s.stepConnected = true →
    stuffed.length + 1 ≤ s.cfg.maxIn → (∀ n ∈ counts, n ≠ 0) → counts.length = stuffed.length + 1 →
    s.connectedLink.availableIn = counts → s.connectedLink.byteIn = stuffed ++ [0x00#8] ++ later →
    ∃ t, exec .rxStep s = .next t ∧ t.events = [(Event.msgReceived h p.length).word]
      ∧ t.status = 0x01#32 ∧ t.result = 0x00000000#32
      ∧ t.rxLife = .polling ∧ t.rxAcc = .waitingForData ∧ t.rxSize = 0 ∧ t.rxActive = true
      ∧ t.rxLastTime = s.sampledNow ∧ t.rxPollTime = s.sampledNow
      ∧ t.mem.readByte .rxb 2 = h ∧ t.mem.readBytes .rxb 3 p.length = p
      ∧ t.link.byteIn = later ∧ t.link.inbound = s.link.inbound ++ stuffed ++ [0x00#8]
      ∧ (∀ b off, (b ≠ .rxb ∨ stuffed.length ≤ off) → t.mem.readByte b off = s.mem.readByte b off)
      ∧ t.txState = s.txState ∧ t.txSize = s.txSize ∧ t.txSent = s.txSent ∧ t.txStartTime = s.txStartTime ∧ t.cfg = s.cfg
      ∧ t.pending = s.pending ∧ t.link.outbound = s.link.outbound)

/-! ### Whole-machine rules -/

/-- R44: a buffer owned by a running machine is written by no command but, for RXB, the Receiver's own step (the Transmitter's
own step only reads TXB, 44_transmitter.md R201). -/
def Obligations.OwnedBuffersAreNotWritten : Prop :=
  ∀ (i : Instr) (s t : State), exec i s = .next t →
    (s.txState ≠ .notSending → t.mem.txb = s.mem.txb)
    ∧ (s.rxLife ≠ .disabled → i ≠ .rxStep → t.mem.rxb = s.mem.rxb)

/-- R331: the two machines "share no register and no buffer": a TX command leaves every RX register and every buffer, and an RX
command every TX register and TXB, AUX and SCRATCH, as they were. -/
def Obligations.TransmitterAndReceiverShareNothing : Prop :=
  ∀ (i : Instr) (s t : State), exec i s = .next t →
    ((i ∈ [Instr.txCansend, .txStep, .txStop] ∨ ∃ n, i = .txSend n) →
      t.rxLife = s.rxLife ∧ t.rxAcc = s.rxAcc ∧ t.rxSize = s.rxSize ∧ t.rxLastTime = s.rxLastTime
      ∧ t.rxPollTime = s.rxPollTime ∧ t.rxActive = s.rxActive ∧ t.mem = s.mem)
    ∧ (i ∈ [Instr.rxStart, .rxStop, .rxStep, .rxWake] →
      t.txState = s.txState ∧ t.txSize = s.txSize ∧ t.txSent = s.txSent ∧ t.txStartTime = s.txStartTime
      ∧ t.mem.txb = s.mem.txb ∧ t.mem.aux = s.mem.aux ∧ t.mem.scratch = s.mem.scratch)

/-- R66: "The block calls it only from TX_STEP, TX_CANSEND, TX_SEND, RX_START, RX_STOP and RX_STEP"; and R317: "Only RX_START,
RX_STOP, RX_STEP and TX_STEP emit events". -/
def Obligations.OnlyLinkCommandsCallOrEmit : Prop :=
  ∀ (i : Instr) (s t : State), exec i s = .next t →
    ((i ∉ [Instr.txStep, .txCansend, .rxStart, .rxStop, .rxStep] ∧ ∀ n, i ≠ .txSend n) → t.link = s.link.forgetCalls)
    ∧ (i ∉ [Instr.rxStart, .rxStop, .rxStep, .txStep] → t.events = [])

/-- R312: a command that raises RANGE, OVERLAP, BUSY or KEY "has made no write, no transport call and no event", RX_START's
SetupError event excepted; only STATUS and RESULT change, and a sample of NOW may be taken. -/
def Obligations.ACommandRefusedUpToKeyHasNoEffect : Prop :=
  ∀ (i : Instr) (s t : State), exec i s = .next t → t.status ∈ [0x20#32, 0x30#32, 0x40#32, 0x50#32] →
    t = { s.responded t.status 0 with
          events := if i = .rxStart then [0x54#32] else [],
          link := match i with
            | .txSend _ => s.sampledLink
            | _ => s.link.forgetCalls }

/-- R46: "no command's behaviour depends on an earlier command's outcome. The one exception is REG_RD 0x00, which only reports
the value." -/
def Obligations.NoCommandReadsAnEarlierOutcome : Prop :=
  ∀ (i : Instr) (s : State) (status result : Word) (events : List Word), i ≠ .regRd 0 →
    exec i { s with status := status, result := result, events := events } = exec i s

/-- R135, R40 and R136 (c), which the spec marks as derived: the key shows in no command's effect but through its Fletcher sums; replacing it by another
non-empty key with equal sums changes nothing but the key itself. -/
def Obligations.KeysWithEqualSumsAreIndistinguishable : Prop :=
  ∀ (i : Instr) (s t : State) (key : List Byte),
    s.cfg.key ≠ [] → key ≠ [] → fletcher16 key = fletcher16 s.cfg.key → exec i s = .next t →
    exec i { s with cfg := { s.cfg with key := key } } = .next { t with cfg := { t.cfg with key := key } }

/-- R322: the RESULT of TX_STEP, RX_STEP and RX_WAKE is IMMEDIATE, DELAY(d) with 0 ≤ d ≤ 2^30 − 1, or SUSPEND; kind 3 is never
written. -/
def Obligations.ReArmRequestsAreWellFormed : Prop :=
  ∀ (i : Instr) (s t : State), s.cfg.wf = true → i ∈ [Instr.txStep, .rxStep, .rxWake] → exec i s = .next t →
    t.result = 0x00000000#32 ∨ t.result = 0x80000000#32
    ∨ ∃ d : Nat, d ≤ 2 ^ 30 - 1 ∧ t.result.toNat = 0x40000000 + d

/-- R90: the pseudo-instructions expand to exactly these commands. A line of text that assembles gives
commands that all have an encoding (the assembler's conventions are the model's, log 19). -/
def Obligations.PseudoInstructionsExpand : Prop :=
  (∀ (b : BufId) (off : Nat) (bytes : List Byte),
    bufFill b off bytes = (List.range bytes.length).map fun k => Instr.bufWr b (off + k) (bytes.getD k 0))
  ∧ (∀ (h : Byte) (p : List Byte), loadMsg h p = bufFill .txb 2 (h :: p)
      ∧ sendMsg h p = bufFill .txb 2 (h :: p) ++ [.msgEncode .txb (p.length + 3), .txSend (p.length + 4)])
  ∧ rdStatus = [.regRd 0]
  ∧ ∀ line is, assemble line = some is → ∀ i ∈ is, i.wf = true ∧ decode (encode i) = .ok i
end

