-- ==== Sys2Proof/Laws/State.lean ====
section
/-! SUPPORT. One lemma per field of State per update, each true by rfl, so that no proof unfolds a record update. -/

namespace Sys2Proof.Machine

/-! ### withMem -/

@[simp] theorem State.withMem_cfg (s : State) (m : Memory) : (s.withMem m).cfg = s.cfg := rfl
@[simp] theorem State.withMem_status (s : State) (m : Memory) : (s.withMem m).status = s.status := rfl
@[simp] theorem State.withMem_result (s : State) (m : Memory) : (s.withMem m).result = s.result := rfl
@[simp] theorem State.withMem_txState (s : State) (m : Memory) : (s.withMem m).txState = s.txState := rfl
@[simp] theorem State.withMem_txSize (s : State) (m : Memory) : (s.withMem m).txSize = s.txSize := rfl
@[simp] theorem State.withMem_txSent (s : State) (m : Memory) : (s.withMem m).txSent = s.txSent := rfl
@[simp] theorem State.withMem_txStartTime (s : State) (m : Memory) : (s.withMem m).txStartTime = s.txStartTime := rfl
@[simp] theorem State.withMem_rxLife (s : State) (m : Memory) : (s.withMem m).rxLife = s.rxLife := rfl
@[simp] theorem State.withMem_rxAcc (s : State) (m : Memory) : (s.withMem m).rxAcc = s.rxAcc := rfl
@[simp] theorem State.withMem_rxSize (s : State) (m : Memory) : (s.withMem m).rxSize = s.rxSize := rfl
@[simp] theorem State.withMem_rxLastTime (s : State) (m : Memory) : (s.withMem m).rxLastTime = s.rxLastTime := rfl
@[simp] theorem State.withMem_rxPollTime (s : State) (m : Memory) : (s.withMem m).rxPollTime = s.rxPollTime := rfl
@[simp] theorem State.withMem_rxActive (s : State) (m : Memory) : (s.withMem m).rxActive = s.rxActive := rfl
@[simp] theorem State.withMem_mem (s : State) (m : Memory) : (s.withMem m).mem = m := rfl
@[simp] theorem State.withMem_link (s : State) (m : Memory) : (s.withMem m).link = s.link := rfl
@[simp] theorem State.withMem_events (s : State) (m : Memory) : (s.withMem m).events = s.events := rfl
@[simp] theorem State.withMem_pending (s : State) (m : Memory) : (s.withMem m).pending = s.pending := rfl

/-! ### withLink -/

@[simp] theorem State.withLink_cfg (s : State) (l : Link) : (s.withLink l).cfg = s.cfg := rfl
@[simp] theorem State.withLink_status (s : State) (l : Link) : (s.withLink l).status = s.status := rfl
@[simp] theorem State.withLink_result (s : State) (l : Link) : (s.withLink l).result = s.result := rfl
@[simp] theorem State.withLink_txState (s : State) (l : Link) : (s.withLink l).txState = s.txState := rfl
@[simp] theorem State.withLink_txSize (s : State) (l : Link) : (s.withLink l).txSize = s.txSize := rfl
@[simp] theorem State.withLink_txSent (s : State) (l : Link) : (s.withLink l).txSent = s.txSent := rfl
@[simp] theorem State.withLink_txStartTime (s : State) (l : Link) : (s.withLink l).txStartTime = s.txStartTime := rfl
@[simp] theorem State.withLink_rxLife (s : State) (l : Link) : (s.withLink l).rxLife = s.rxLife := rfl
@[simp] theorem State.withLink_rxAcc (s : State) (l : Link) : (s.withLink l).rxAcc = s.rxAcc := rfl
@[simp] theorem State.withLink_rxSize (s : State) (l : Link) : (s.withLink l).rxSize = s.rxSize := rfl
@[simp] theorem State.withLink_rxLastTime (s : State) (l : Link) : (s.withLink l).rxLastTime = s.rxLastTime := rfl
@[simp] theorem State.withLink_rxPollTime (s : State) (l : Link) : (s.withLink l).rxPollTime = s.rxPollTime := rfl
@[simp] theorem State.withLink_rxActive (s : State) (l : Link) : (s.withLink l).rxActive = s.rxActive := rfl
@[simp] theorem State.withLink_mem (s : State) (l : Link) : (s.withLink l).mem = s.mem := rfl
@[simp] theorem State.withLink_link (s : State) (l : Link) : (s.withLink l).link = l := rfl
@[simp] theorem State.withLink_events (s : State) (l : Link) : (s.withLink l).events = s.events := rfl
@[simp] theorem State.withLink_pending (s : State) (l : Link) : (s.withLink l).pending = s.pending := rfl

/-! ### withPending -/

@[simp] theorem State.withPending_cfg (s : State) (p : List Word) : (s.withPending p).cfg = s.cfg := rfl
@[simp] theorem State.withPending_status (s : State) (p : List Word) : (s.withPending p).status = s.status := rfl
@[simp] theorem State.withPending_result (s : State) (p : List Word) : (s.withPending p).result = s.result := rfl
@[simp] theorem State.withPending_txState (s : State) (p : List Word) : (s.withPending p).txState = s.txState := rfl
@[simp] theorem State.withPending_txSize (s : State) (p : List Word) : (s.withPending p).txSize = s.txSize := rfl
@[simp] theorem State.withPending_txSent (s : State) (p : List Word) : (s.withPending p).txSent = s.txSent := rfl
@[simp] theorem State.withPending_txStartTime (s : State) (p : List Word) : (s.withPending p).txStartTime = s.txStartTime := rfl
@[simp] theorem State.withPending_rxLife (s : State) (p : List Word) : (s.withPending p).rxLife = s.rxLife := rfl
@[simp] theorem State.withPending_rxAcc (s : State) (p : List Word) : (s.withPending p).rxAcc = s.rxAcc := rfl
@[simp] theorem State.withPending_rxSize (s : State) (p : List Word) : (s.withPending p).rxSize = s.rxSize := rfl
@[simp] theorem State.withPending_rxLastTime (s : State) (p : List Word) : (s.withPending p).rxLastTime = s.rxLastTime := rfl
@[simp] theorem State.withPending_rxPollTime (s : State) (p : List Word) : (s.withPending p).rxPollTime = s.rxPollTime := rfl
@[simp] theorem State.withPending_rxActive (s : State) (p : List Word) : (s.withPending p).rxActive = s.rxActive := rfl
@[simp] theorem State.withPending_mem (s : State) (p : List Word) : (s.withPending p).mem = s.mem := rfl
@[simp] theorem State.withPending_link (s : State) (p : List Word) : (s.withPending p).link = s.link := rfl
@[simp] theorem State.withPending_events (s : State) (p : List Word) : (s.withPending p).events = s.events := rfl
@[simp] theorem State.withPending_pending (s : State) (p : List Word) : (s.withPending p).pending = p := rfl

/-! ### respond -/

@[simp] theorem State.respond_cfg (s : State) (w v : Word) : (s.respond w v).cfg = s.cfg := rfl
@[simp] theorem State.respond_status (s : State) (w v : Word) : (s.respond w v).status = w := rfl
@[simp] theorem State.respond_result (s : State) (w v : Word) : (s.respond w v).result = v := rfl
@[simp] theorem State.respond_txState (s : State) (w v : Word) : (s.respond w v).txState = s.txState := rfl
@[simp] theorem State.respond_txSize (s : State) (w v : Word) : (s.respond w v).txSize = s.txSize := rfl
@[simp] theorem State.respond_txSent (s : State) (w v : Word) : (s.respond w v).txSent = s.txSent := rfl
@[simp] theorem State.respond_txStartTime (s : State) (w v : Word) : (s.respond w v).txStartTime = s.txStartTime := rfl
@[simp] theorem State.respond_rxLife (s : State) (w v : Word) : (s.respond w v).rxLife = s.rxLife := rfl
@[simp] theorem State.respond_rxAcc (s : State) (w v : Word) : (s.respond w v).rxAcc = s.rxAcc := rfl
@[simp] theorem State.respond_rxSize (s : State) (w v : Word) : (s.respond w v).rxSize = s.rxSize := rfl
@[simp] theorem State.respond_rxLastTime (s : State) (w v : Word) : (s.respond w v).rxLastTime = s.rxLastTime := rfl
@[simp] theorem State.respond_rxPollTime (s : State) (w v : Word) : (s.respond w v).rxPollTime = s.rxPollTime := rfl
@[simp] theorem State.respond_rxActive (s : State) (w v : Word) : (s.respond w v).rxActive = s.rxActive := rfl
@[simp] theorem State.respond_mem (s : State) (w v : Word) : (s.respond w v).mem = s.mem := rfl
@[simp] theorem State.respond_link (s : State) (w v : Word) : (s.respond w v).link = s.link := rfl
@[simp] theorem State.respond_events (s : State) (w v : Word) : (s.respond w v).events = s.events := rfl
@[simp] theorem State.respond_pending (s : State) (w v : Word) : (s.respond w v).pending = s.pending := rfl

/-! ### withEvents -/

@[simp] theorem State.withEvents_cfg (s : State) (e : List Word) : (s.withEvents e).cfg = s.cfg := rfl
@[simp] theorem State.withEvents_status (s : State) (e : List Word) : (s.withEvents e).status = s.status := rfl
@[simp] theorem State.withEvents_result (s : State) (e : List Word) : (s.withEvents e).result = s.result := rfl
@[simp] theorem State.withEvents_txState (s : State) (e : List Word) : (s.withEvents e).txState = s.txState := rfl
@[simp] theorem State.withEvents_txSize (s : State) (e : List Word) : (s.withEvents e).txSize = s.txSize := rfl
@[simp] theorem State.withEvents_txSent (s : State) (e : List Word) : (s.withEvents e).txSent = s.txSent := rfl
@[simp] theorem State.withEvents_txStartTime (s : State) (e : List Word) : (s.withEvents e).txStartTime = s.txStartTime := rfl
@[simp] theorem State.withEvents_rxLife (s : State) (e : List Word) : (s.withEvents e).rxLife = s.rxLife := rfl
@[simp] theorem State.withEvents_rxAcc (s : State) (e : List Word) : (s.withEvents e).rxAcc = s.rxAcc := rfl
@[simp] theorem State.withEvents_rxSize (s : State) (e : List Word) : (s.withEvents e).rxSize = s.rxSize := rfl
@[simp] theorem State.withEvents_rxLastTime (s : State) (e : List Word) : (s.withEvents e).rxLastTime = s.rxLastTime := rfl
@[simp] theorem State.withEvents_rxPollTime (s : State) (e : List Word) : (s.withEvents e).rxPollTime = s.rxPollTime := rfl
@[simp] theorem State.withEvents_rxActive (s : State) (e : List Word) : (s.withEvents e).rxActive = s.rxActive := rfl
@[simp] theorem State.withEvents_mem (s : State) (e : List Word) : (s.withEvents e).mem = s.mem := rfl
@[simp] theorem State.withEvents_link (s : State) (e : List Word) : (s.withEvents e).link = s.link := rfl
@[simp] theorem State.withEvents_events (s : State) (e : List Word) : (s.withEvents e).events = e := rfl
@[simp] theorem State.withEvents_pending (s : State) (e : List Word) : (s.withEvents e).pending = s.pending := rfl

/-! ### withTxState -/

@[simp] theorem State.withTxState_cfg (s : State) (t : TxState) : (s.withTxState t).cfg = s.cfg := rfl
@[simp] theorem State.withTxState_status (s : State) (t : TxState) : (s.withTxState t).status = s.status := rfl
@[simp] theorem State.withTxState_result (s : State) (t : TxState) : (s.withTxState t).result = s.result := rfl
@[simp] theorem State.withTxState_txState (s : State) (t : TxState) : (s.withTxState t).txState = t := rfl
@[simp] theorem State.withTxState_txSize (s : State) (t : TxState) : (s.withTxState t).txSize = s.txSize := rfl
@[simp] theorem State.withTxState_txSent (s : State) (t : TxState) : (s.withTxState t).txSent = s.txSent := rfl
@[simp] theorem State.withTxState_txStartTime (s : State) (t : TxState) : (s.withTxState t).txStartTime = s.txStartTime := rfl
@[simp] theorem State.withTxState_rxLife (s : State) (t : TxState) : (s.withTxState t).rxLife = s.rxLife := rfl
@[simp] theorem State.withTxState_rxAcc (s : State) (t : TxState) : (s.withTxState t).rxAcc = s.rxAcc := rfl
@[simp] theorem State.withTxState_rxSize (s : State) (t : TxState) : (s.withTxState t).rxSize = s.rxSize := rfl
@[simp] theorem State.withTxState_rxLastTime (s : State) (t : TxState) : (s.withTxState t).rxLastTime = s.rxLastTime := rfl
@[simp] theorem State.withTxState_rxPollTime (s : State) (t : TxState) : (s.withTxState t).rxPollTime = s.rxPollTime := rfl
@[simp] theorem State.withTxState_rxActive (s : State) (t : TxState) : (s.withTxState t).rxActive = s.rxActive := rfl
@[simp] theorem State.withTxState_mem (s : State) (t : TxState) : (s.withTxState t).mem = s.mem := rfl
@[simp] theorem State.withTxState_link (s : State) (t : TxState) : (s.withTxState t).link = s.link := rfl
@[simp] theorem State.withTxState_events (s : State) (t : TxState) : (s.withTxState t).events = s.events := rfl
@[simp] theorem State.withTxState_pending (s : State) (t : TxState) : (s.withTxState t).pending = s.pending := rfl

/-! ### withTxSize -/

@[simp] theorem State.withTxSize_cfg (s : State) (n : Nat) : (s.withTxSize n).cfg = s.cfg := rfl
@[simp] theorem State.withTxSize_status (s : State) (n : Nat) : (s.withTxSize n).status = s.status := rfl
@[simp] theorem State.withTxSize_result (s : State) (n : Nat) : (s.withTxSize n).result = s.result := rfl
@[simp] theorem State.withTxSize_txState (s : State) (n : Nat) : (s.withTxSize n).txState = s.txState := rfl
@[simp] theorem State.withTxSize_txSize (s : State) (n : Nat) : (s.withTxSize n).txSize = BitVec.ofNat 8 n := rfl
@[simp] theorem State.withTxSize_txSent (s : State) (n : Nat) : (s.withTxSize n).txSent = s.txSent := rfl
@[simp] theorem State.withTxSize_txStartTime (s : State) (n : Nat) : (s.withTxSize n).txStartTime = s.txStartTime := rfl
@[simp] theorem State.withTxSize_rxLife (s : State) (n : Nat) : (s.withTxSize n).rxLife = s.rxLife := rfl
@[simp] theorem State.withTxSize_rxAcc (s : State) (n : Nat) : (s.withTxSize n).rxAcc = s.rxAcc := rfl
@[simp] theorem State.withTxSize_rxSize (s : State) (n : Nat) : (s.withTxSize n).rxSize = s.rxSize := rfl
@[simp] theorem State.withTxSize_rxLastTime (s : State) (n : Nat) : (s.withTxSize n).rxLastTime = s.rxLastTime := rfl
@[simp] theorem State.withTxSize_rxPollTime (s : State) (n : Nat) : (s.withTxSize n).rxPollTime = s.rxPollTime := rfl
@[simp] theorem State.withTxSize_rxActive (s : State) (n : Nat) : (s.withTxSize n).rxActive = s.rxActive := rfl
@[simp] theorem State.withTxSize_mem (s : State) (n : Nat) : (s.withTxSize n).mem = s.mem := rfl
@[simp] theorem State.withTxSize_link (s : State) (n : Nat) : (s.withTxSize n).link = s.link := rfl
@[simp] theorem State.withTxSize_events (s : State) (n : Nat) : (s.withTxSize n).events = s.events := rfl
@[simp] theorem State.withTxSize_pending (s : State) (n : Nat) : (s.withTxSize n).pending = s.pending := rfl

/-! ### withTxSent -/

@[simp] theorem State.withTxSent_cfg (s : State) (n : Nat) : (s.withTxSent n).cfg = s.cfg := rfl
@[simp] theorem State.withTxSent_status (s : State) (n : Nat) : (s.withTxSent n).status = s.status := rfl
@[simp] theorem State.withTxSent_result (s : State) (n : Nat) : (s.withTxSent n).result = s.result := rfl
@[simp] theorem State.withTxSent_txState (s : State) (n : Nat) : (s.withTxSent n).txState = s.txState := rfl
@[simp] theorem State.withTxSent_txSize (s : State) (n : Nat) : (s.withTxSent n).txSize = s.txSize := rfl
@[simp] theorem State.withTxSent_txSent (s : State) (n : Nat) : (s.withTxSent n).txSent = BitVec.ofNat 8 n := rfl
@[simp] theorem State.withTxSent_txStartTime (s : State) (n : Nat) : (s.withTxSent n).txStartTime = s.txStartTime := rfl
@[simp] theorem State.withTxSent_rxLife (s : State) (n : Nat) : (s.withTxSent n).rxLife = s.rxLife := rfl
@[simp] theorem State.withTxSent_rxAcc (s : State) (n : Nat) : (s.withTxSent n).rxAcc = s.rxAcc := rfl
@[simp] theorem State.withTxSent_rxSize (s : State) (n : Nat) : (s.withTxSent n).rxSize = s.rxSize := rfl
@[simp] theorem State.withTxSent_rxLastTime (s : State) (n : Nat) : (s.withTxSent n).rxLastTime = s.rxLastTime := rfl
@[simp] theorem State.withTxSent_rxPollTime (s : State) (n : Nat) : (s.withTxSent n).rxPollTime = s.rxPollTime := rfl
@[simp] theorem State.withTxSent_rxActive (s : State) (n : Nat) : (s.withTxSent n).rxActive = s.rxActive := rfl
@[simp] theorem State.withTxSent_mem (s : State) (n : Nat) : (s.withTxSent n).mem = s.mem := rfl
@[simp] theorem State.withTxSent_link (s : State) (n : Nat) : (s.withTxSent n).link = s.link := rfl
@[simp] theorem State.withTxSent_events (s : State) (n : Nat) : (s.withTxSent n).events = s.events := rfl
@[simp] theorem State.withTxSent_pending (s : State) (n : Nat) : (s.withTxSent n).pending = s.pending := rfl

/-! ### withTxStartTime -/

@[simp] theorem State.withTxStartTime_cfg (s : State) (t : Word) : (s.withTxStartTime t).cfg = s.cfg := rfl
@[simp] theorem State.withTxStartTime_status (s : State) (t : Word) : (s.withTxStartTime t).status = s.status := rfl
@[simp] theorem State.withTxStartTime_result (s : State) (t : Word) : (s.withTxStartTime t).result = s.result := rfl
@[simp] theorem State.withTxStartTime_txState (s : State) (t : Word) : (s.withTxStartTime t).txState = s.txState := rfl
@[simp] theorem State.withTxStartTime_txSize (s : State) (t : Word) : (s.withTxStartTime t).txSize = s.txSize := rfl
@[simp] theorem State.withTxStartTime_txSent (s : State) (t : Word) : (s.withTxStartTime t).txSent = s.txSent := rfl
@[simp] theorem State.withTxStartTime_txStartTime (s : State) (t : Word) : (s.withTxStartTime t).txStartTime = t := rfl
@[simp] theorem State.withTxStartTime_rxLife (s : State) (t : Word) : (s.withTxStartTime t).rxLife = s.rxLife := rfl
@[simp] theorem State.withTxStartTime_rxAcc (s : State) (t : Word) : (s.withTxStartTime t).rxAcc = s.rxAcc := rfl
@[simp] theorem State.withTxStartTime_rxSize (s : State) (t : Word) : (s.withTxStartTime t).rxSize = s.rxSize := rfl
@[simp] theorem State.withTxStartTime_rxLastTime (s : State) (t : Word) : (s.withTxStartTime t).rxLastTime = s.rxLastTime := rfl
@[simp] theorem State.withTxStartTime_rxPollTime (s : State) (t : Word) : (s.withTxStartTime t).rxPollTime = s.rxPollTime := rfl
@[simp] theorem State.withTxStartTime_rxActive (s : State) (t : Word) : (s.withTxStartTime t).rxActive = s.rxActive := rfl
@[simp] theorem State.withTxStartTime_mem (s : State) (t : Word) : (s.withTxStartTime t).mem = s.mem := rfl
@[simp] theorem State.withTxStartTime_link (s : State) (t : Word) : (s.withTxStartTime t).link = s.link := rfl
@[simp] theorem State.withTxStartTime_events (s : State) (t : Word) : (s.withTxStartTime t).events = s.events := rfl
@[simp] theorem State.withTxStartTime_pending (s : State) (t : Word) : (s.withTxStartTime t).pending = s.pending := rfl

/-! ### withRxLife -/

@[simp] theorem State.withRxLife_cfg (s : State) (l : RxLife) : (s.withRxLife l).cfg = s.cfg := rfl
@[simp] theorem State.withRxLife_status (s : State) (l : RxLife) : (s.withRxLife l).status = s.status := rfl
@[simp] theorem State.withRxLife_result (s : State) (l : RxLife) : (s.withRxLife l).result = s.result := rfl
@[simp] theorem State.withRxLife_txState (s : State) (l : RxLife) : (s.withRxLife l).txState = s.txState := rfl
@[simp] theorem State.withRxLife_txSize (s : State) (l : RxLife) : (s.withRxLife l).txSize = s.txSize := rfl
@[simp] theorem State.withRxLife_txSent (s : State) (l : RxLife) : (s.withRxLife l).txSent = s.txSent := rfl
@[simp] theorem State.withRxLife_txStartTime (s : State) (l : RxLife) : (s.withRxLife l).txStartTime = s.txStartTime := rfl
@[simp] theorem State.withRxLife_rxLife (s : State) (l : RxLife) : (s.withRxLife l).rxLife = l := rfl
@[simp] theorem State.withRxLife_rxAcc (s : State) (l : RxLife) : (s.withRxLife l).rxAcc = s.rxAcc := rfl
@[simp] theorem State.withRxLife_rxSize (s : State) (l : RxLife) : (s.withRxLife l).rxSize = s.rxSize := rfl
@[simp] theorem State.withRxLife_rxLastTime (s : State) (l : RxLife) : (s.withRxLife l).rxLastTime = s.rxLastTime := rfl
@[simp] theorem State.withRxLife_rxPollTime (s : State) (l : RxLife) : (s.withRxLife l).rxPollTime = s.rxPollTime := rfl
@[simp] theorem State.withRxLife_rxActive (s : State) (l : RxLife) : (s.withRxLife l).rxActive = s.rxActive := rfl
@[simp] theorem State.withRxLife_mem (s : State) (l : RxLife) : (s.withRxLife l).mem = s.mem := rfl
@[simp] theorem State.withRxLife_link (s : State) (l : RxLife) : (s.withRxLife l).link = s.link := rfl
@[simp] theorem State.withRxLife_events (s : State) (l : RxLife) : (s.withRxLife l).events = s.events := rfl
@[simp] theorem State.withRxLife_pending (s : State) (l : RxLife) : (s.withRxLife l).pending = s.pending := rfl

/-! ### withRxAcc -/

@[simp] theorem State.withRxAcc_cfg (s : State) (a : RxAcc) : (s.withRxAcc a).cfg = s.cfg := rfl
@[simp] theorem State.withRxAcc_status (s : State) (a : RxAcc) : (s.withRxAcc a).status = s.status := rfl
@[simp] theorem State.withRxAcc_result (s : State) (a : RxAcc) : (s.withRxAcc a).result = s.result := rfl
@[simp] theorem State.withRxAcc_txState (s : State) (a : RxAcc) : (s.withRxAcc a).txState = s.txState := rfl
@[simp] theorem State.withRxAcc_txSize (s : State) (a : RxAcc) : (s.withRxAcc a).txSize = s.txSize := rfl
@[simp] theorem State.withRxAcc_txSent (s : State) (a : RxAcc) : (s.withRxAcc a).txSent = s.txSent := rfl
@[simp] theorem State.withRxAcc_txStartTime (s : State) (a : RxAcc) : (s.withRxAcc a).txStartTime = s.txStartTime := rfl
@[simp] theorem State.withRxAcc_rxLife (s : State) (a : RxAcc) : (s.withRxAcc a).rxLife = s.rxLife := rfl
@[simp] theorem State.withRxAcc_rxAcc (s : State) (a : RxAcc) : (s.withRxAcc a).rxAcc = a := rfl
@[simp] theorem State.withRxAcc_rxSize (s : State) (a : RxAcc) : (s.withRxAcc a).rxSize = s.rxSize := rfl
@[simp] theorem State.withRxAcc_rxLastTime (s : State) (a : RxAcc) : (s.withRxAcc a).rxLastTime = s.rxLastTime := rfl
@[simp] theorem State.withRxAcc_rxPollTime (s : State) (a : RxAcc) : (s.withRxAcc a).rxPollTime = s.rxPollTime := rfl
@[simp] theorem State.withRxAcc_rxActive (s : State) (a : RxAcc) : (s.withRxAcc a).rxActive = s.rxActive := rfl
@[simp] theorem State.withRxAcc_mem (s : State) (a : RxAcc) : (s.withRxAcc a).mem = s.mem := rfl
@[simp] theorem State.withRxAcc_link (s : State) (a : RxAcc) : (s.withRxAcc a).link = s.link := rfl
@[simp] theorem State.withRxAcc_events (s : State) (a : RxAcc) : (s.withRxAcc a).events = s.events := rfl
@[simp] theorem State.withRxAcc_pending (s : State) (a : RxAcc) : (s.withRxAcc a).pending = s.pending := rfl

/-! ### withRxSize -/

@[simp] theorem State.withRxSize_cfg (s : State) (n : Nat) : (s.withRxSize n).cfg = s.cfg := rfl
@[simp] theorem State.withRxSize_status (s : State) (n : Nat) : (s.withRxSize n).status = s.status := rfl
@[simp] theorem State.withRxSize_result (s : State) (n : Nat) : (s.withRxSize n).result = s.result := rfl
@[simp] theorem State.withRxSize_txState (s : State) (n : Nat) : (s.withRxSize n).txState = s.txState := rfl
@[simp] theorem State.withRxSize_txSize (s : State) (n : Nat) : (s.withRxSize n).txSize = s.txSize := rfl
@[simp] theorem State.withRxSize_txSent (s : State) (n : Nat) : (s.withRxSize n).txSent = s.txSent := rfl
@[simp] theorem State.withRxSize_txStartTime (s : State) (n : Nat) : (s.withRxSize n).txStartTime = s.txStartTime := rfl
@[simp] theorem State.withRxSize_rxLife (s : State) (n : Nat) : (s.withRxSize n).rxLife = s.rxLife := rfl
@[simp] theorem State.withRxSize_rxAcc (s : State) (n : Nat) : (s.withRxSize n).rxAcc = s.rxAcc := rfl
@[simp] theorem State.withRxSize_rxSize (s : State) (n : Nat) : (s.withRxSize n).rxSize = BitVec.ofNat 8 n := rfl
@[simp] theorem State.withRxSize_rxLastTime (s : State) (n : Nat) : (s.withRxSize n).rxLastTime = s.rxLastTime := rfl
@[simp] theorem State.withRxSize_rxPollTime (s : State) (n : Nat) : (s.withRxSize n).rxPollTime = s.rxPollTime := rfl
@[simp] theorem State.withRxSize_rxActive (s : State) (n : Nat) : (s.withRxSize n).rxActive = s.rxActive := rfl
@[simp] theorem State.withRxSize_mem (s : State) (n : Nat) : (s.withRxSize n).mem = s.mem := rfl
@[simp] theorem State.withRxSize_link (s : State) (n : Nat) : (s.withRxSize n).link = s.link := rfl
@[simp] theorem State.withRxSize_events (s : State) (n : Nat) : (s.withRxSize n).events = s.events := rfl
@[simp] theorem State.withRxSize_pending (s : State) (n : Nat) : (s.withRxSize n).pending = s.pending := rfl

/-! ### withRxLastTime -/

@[simp] theorem State.withRxLastTime_cfg (s : State) (t : Word) : (s.withRxLastTime t).cfg = s.cfg := rfl
@[simp] theorem State.withRxLastTime_status (s : State) (t : Word) : (s.withRxLastTime t).status = s.status := rfl
@[simp] theorem State.withRxLastTime_result (s : State) (t : Word) : (s.withRxLastTime t).result = s.result := rfl
@[simp] theorem State.withRxLastTime_txState (s : State) (t : Word) : (s.withRxLastTime t).txState = s.txState := rfl
@[simp] theorem State.withRxLastTime_txSize (s : State) (t : Word) : (s.withRxLastTime t).txSize = s.txSize := rfl
@[simp] theorem State.withRxLastTime_txSent (s : State) (t : Word) : (s.withRxLastTime t).txSent = s.txSent := rfl
@[simp] theorem State.withRxLastTime_txStartTime (s : State) (t : Word) : (s.withRxLastTime t).txStartTime = s.txStartTime := rfl
@[simp] theorem State.withRxLastTime_rxLife (s : State) (t : Word) : (s.withRxLastTime t).rxLife = s.rxLife := rfl
@[simp] theorem State.withRxLastTime_rxAcc (s : State) (t : Word) : (s.withRxLastTime t).rxAcc = s.rxAcc := rfl
@[simp] theorem State.withRxLastTime_rxSize (s : State) (t : Word) : (s.withRxLastTime t).rxSize = s.rxSize := rfl
@[simp] theorem State.withRxLastTime_rxLastTime (s : State) (t : Word) : (s.withRxLastTime t).rxLastTime = t := rfl
@[simp] theorem State.withRxLastTime_rxPollTime (s : State) (t : Word) : (s.withRxLastTime t).rxPollTime = s.rxPollTime := rfl
@[simp] theorem State.withRxLastTime_rxActive (s : State) (t : Word) : (s.withRxLastTime t).rxActive = s.rxActive := rfl
@[simp] theorem State.withRxLastTime_mem (s : State) (t : Word) : (s.withRxLastTime t).mem = s.mem := rfl
@[simp] theorem State.withRxLastTime_link (s : State) (t : Word) : (s.withRxLastTime t).link = s.link := rfl
@[simp] theorem State.withRxLastTime_events (s : State) (t : Word) : (s.withRxLastTime t).events = s.events := rfl
@[simp] theorem State.withRxLastTime_pending (s : State) (t : Word) : (s.withRxLastTime t).pending = s.pending := rfl

/-! ### withRxPollTime -/

@[simp] theorem State.withRxPollTime_cfg (s : State) (t : Word) : (s.withRxPollTime t).cfg = s.cfg := rfl
@[simp] theorem State.withRxPollTime_status (s : State) (t : Word) : (s.withRxPollTime t).status = s.status := rfl
@[simp] theorem State.withRxPollTime_result (s : State) (t : Word) : (s.withRxPollTime t).result = s.result := rfl
@[simp] theorem State.withRxPollTime_txState (s : State) (t : Word) : (s.withRxPollTime t).txState = s.txState := rfl
@[simp] theorem State.withRxPollTime_txSize (s : State) (t : Word) : (s.withRxPollTime t).txSize = s.txSize := rfl
@[simp] theorem State.withRxPollTime_txSent (s : State) (t : Word) : (s.withRxPollTime t).txSent = s.txSent := rfl
@[simp] theorem State.withRxPollTime_txStartTime (s : State) (t : Word) : (s.withRxPollTime t).txStartTime = s.txStartTime := rfl
@[simp] theorem State.withRxPollTime_rxLife (s : State) (t : Word) : (s.withRxPollTime t).rxLife = s.rxLife := rfl
@[simp] theorem State.withRxPollTime_rxAcc (s : State) (t : Word) : (s.withRxPollTime t).rxAcc = s.rxAcc := rfl
@[simp] theorem State.withRxPollTime_rxSize (s : State) (t : Word) : (s.withRxPollTime t).rxSize = s.rxSize := rfl
@[simp] theorem State.withRxPollTime_rxLastTime (s : State) (t : Word) : (s.withRxPollTime t).rxLastTime = s.rxLastTime := rfl
@[simp] theorem State.withRxPollTime_rxPollTime (s : State) (t : Word) : (s.withRxPollTime t).rxPollTime = t := rfl
@[simp] theorem State.withRxPollTime_rxActive (s : State) (t : Word) : (s.withRxPollTime t).rxActive = s.rxActive := rfl
@[simp] theorem State.withRxPollTime_mem (s : State) (t : Word) : (s.withRxPollTime t).mem = s.mem := rfl
@[simp] theorem State.withRxPollTime_link (s : State) (t : Word) : (s.withRxPollTime t).link = s.link := rfl
@[simp] theorem State.withRxPollTime_events (s : State) (t : Word) : (s.withRxPollTime t).events = s.events := rfl
@[simp] theorem State.withRxPollTime_pending (s : State) (t : Word) : (s.withRxPollTime t).pending = s.pending := rfl

/-! ### withRxActive -/

@[simp] theorem State.withRxActive_cfg (s : State) (b : Bool) : (s.withRxActive b).cfg = s.cfg := rfl
@[simp] theorem State.withRxActive_status (s : State) (b : Bool) : (s.withRxActive b).status = s.status := rfl
@[simp] theorem State.withRxActive_result (s : State) (b : Bool) : (s.withRxActive b).result = s.result := rfl
@[simp] theorem State.withRxActive_txState (s : State) (b : Bool) : (s.withRxActive b).txState = s.txState := rfl
@[simp] theorem State.withRxActive_txSize (s : State) (b : Bool) : (s.withRxActive b).txSize = s.txSize := rfl
@[simp] theorem State.withRxActive_txSent (s : State) (b : Bool) : (s.withRxActive b).txSent = s.txSent := rfl
@[simp] theorem State.withRxActive_txStartTime (s : State) (b : Bool) : (s.withRxActive b).txStartTime = s.txStartTime := rfl
@[simp] theorem State.withRxActive_rxLife (s : State) (b : Bool) : (s.withRxActive b).rxLife = s.rxLife := rfl
@[simp] theorem State.withRxActive_rxAcc (s : State) (b : Bool) : (s.withRxActive b).rxAcc = s.rxAcc := rfl
@[simp] theorem State.withRxActive_rxSize (s : State) (b : Bool) : (s.withRxActive b).rxSize = s.rxSize := rfl
@[simp] theorem State.withRxActive_rxLastTime (s : State) (b : Bool) : (s.withRxActive b).rxLastTime = s.rxLastTime := rfl
@[simp] theorem State.withRxActive_rxPollTime (s : State) (b : Bool) : (s.withRxActive b).rxPollTime = s.rxPollTime := rfl
@[simp] theorem State.withRxActive_rxActive (s : State) (b : Bool) : (s.withRxActive b).rxActive = b := rfl
@[simp] theorem State.withRxActive_mem (s : State) (b : Bool) : (s.withRxActive b).mem = s.mem := rfl
@[simp] theorem State.withRxActive_link (s : State) (b : Bool) : (s.withRxActive b).link = s.link := rfl
@[simp] theorem State.withRxActive_events (s : State) (b : Bool) : (s.withRxActive b).events = s.events := rfl
@[simp] theorem State.withRxActive_pending (s : State) (b : Bool) : (s.withRxActive b).pending = s.pending := rfl

/-! ### beginCommand -/

@[simp] theorem State.beginCommand_cfg (s : State) : (s.beginCommand).cfg = s.cfg := rfl
@[simp] theorem State.beginCommand_status (s : State) : (s.beginCommand).status = s.status := rfl
@[simp] theorem State.beginCommand_result (s : State) : (s.beginCommand).result = s.result := rfl
@[simp] theorem State.beginCommand_txState (s : State) : (s.beginCommand).txState = s.txState := rfl
@[simp] theorem State.beginCommand_txSize (s : State) : (s.beginCommand).txSize = s.txSize := rfl
@[simp] theorem State.beginCommand_txSent (s : State) : (s.beginCommand).txSent = s.txSent := rfl
@[simp] theorem State.beginCommand_txStartTime (s : State) : (s.beginCommand).txStartTime = s.txStartTime := rfl
@[simp] theorem State.beginCommand_rxLife (s : State) : (s.beginCommand).rxLife = s.rxLife := rfl
@[simp] theorem State.beginCommand_rxAcc (s : State) : (s.beginCommand).rxAcc = s.rxAcc := rfl
@[simp] theorem State.beginCommand_rxSize (s : State) : (s.beginCommand).rxSize = s.rxSize := rfl
@[simp] theorem State.beginCommand_rxLastTime (s : State) : (s.beginCommand).rxLastTime = s.rxLastTime := rfl
@[simp] theorem State.beginCommand_rxPollTime (s : State) : (s.beginCommand).rxPollTime = s.rxPollTime := rfl
@[simp] theorem State.beginCommand_rxActive (s : State) : (s.beginCommand).rxActive = s.rxActive := rfl
@[simp] theorem State.beginCommand_mem (s : State) : (s.beginCommand).mem = s.mem := rfl
@[simp] theorem State.beginCommand_link (s : State) : (s.beginCommand).link = s.link.forgetCalls := rfl
@[simp] theorem State.beginCommand_events (s : State) : (s.beginCommand).events = [] := rfl
@[simp] theorem State.beginCommand_pending (s : State) : (s.beginCommand).pending = s.pending := rfl

/-! ### succeed -/

@[simp] theorem State.succeed_cfg (s : State) (v : Word) : (s.succeed v).cfg = s.cfg := rfl
@[simp] theorem State.succeed_status (s : State) (v : Word) : (s.succeed v).status = statusWord true .none := rfl
@[simp] theorem State.succeed_result (s : State) (v : Word) : (s.succeed v).result = v := rfl
@[simp] theorem State.succeed_txState (s : State) (v : Word) : (s.succeed v).txState = s.txState := rfl
@[simp] theorem State.succeed_txSize (s : State) (v : Word) : (s.succeed v).txSize = s.txSize := rfl
@[simp] theorem State.succeed_txSent (s : State) (v : Word) : (s.succeed v).txSent = s.txSent := rfl
@[simp] theorem State.succeed_txStartTime (s : State) (v : Word) : (s.succeed v).txStartTime = s.txStartTime := rfl
@[simp] theorem State.succeed_rxLife (s : State) (v : Word) : (s.succeed v).rxLife = s.rxLife := rfl
@[simp] theorem State.succeed_rxAcc (s : State) (v : Word) : (s.succeed v).rxAcc = s.rxAcc := rfl
@[simp] theorem State.succeed_rxSize (s : State) (v : Word) : (s.succeed v).rxSize = s.rxSize := rfl
@[simp] theorem State.succeed_rxLastTime (s : State) (v : Word) : (s.succeed v).rxLastTime = s.rxLastTime := rfl
@[simp] theorem State.succeed_rxPollTime (s : State) (v : Word) : (s.succeed v).rxPollTime = s.rxPollTime := rfl
@[simp] theorem State.succeed_rxActive (s : State) (v : Word) : (s.succeed v).rxActive = s.rxActive := rfl
@[simp] theorem State.succeed_mem (s : State) (v : Word) : (s.succeed v).mem = s.mem := rfl
@[simp] theorem State.succeed_link (s : State) (v : Word) : (s.succeed v).link = s.link := rfl
@[simp] theorem State.succeed_events (s : State) (v : Word) : (s.succeed v).events = s.events := rfl
@[simp] theorem State.succeed_pending (s : State) (v : Word) : (s.succeed v).pending = s.pending := rfl

/-! ### fail -/

@[simp] theorem State.fail_cfg (s : State) (c : CErr) (v : Word) : (s.fail c v).cfg = s.cfg := rfl
@[simp] theorem State.fail_status (s : State) (c : CErr) (v : Word) : (s.fail c v).status = statusWord false c := rfl
@[simp] theorem State.fail_result (s : State) (c : CErr) (v : Word) : (s.fail c v).result = v := rfl
@[simp] theorem State.fail_txState (s : State) (c : CErr) (v : Word) : (s.fail c v).txState = s.txState := rfl
@[simp] theorem State.fail_txSize (s : State) (c : CErr) (v : Word) : (s.fail c v).txSize = s.txSize := rfl
@[simp] theorem State.fail_txSent (s : State) (c : CErr) (v : Word) : (s.fail c v).txSent = s.txSent := rfl
@[simp] theorem State.fail_txStartTime (s : State) (c : CErr) (v : Word) : (s.fail c v).txStartTime = s.txStartTime := rfl
@[simp] theorem State.fail_rxLife (s : State) (c : CErr) (v : Word) : (s.fail c v).rxLife = s.rxLife := rfl
@[simp] theorem State.fail_rxAcc (s : State) (c : CErr) (v : Word) : (s.fail c v).rxAcc = s.rxAcc := rfl
@[simp] theorem State.fail_rxSize (s : State) (c : CErr) (v : Word) : (s.fail c v).rxSize = s.rxSize := rfl
@[simp] theorem State.fail_rxLastTime (s : State) (c : CErr) (v : Word) : (s.fail c v).rxLastTime = s.rxLastTime := rfl
@[simp] theorem State.fail_rxPollTime (s : State) (c : CErr) (v : Word) : (s.fail c v).rxPollTime = s.rxPollTime := rfl
@[simp] theorem State.fail_rxActive (s : State) (c : CErr) (v : Word) : (s.fail c v).rxActive = s.rxActive := rfl
@[simp] theorem State.fail_mem (s : State) (c : CErr) (v : Word) : (s.fail c v).mem = s.mem := rfl
@[simp] theorem State.fail_link (s : State) (c : CErr) (v : Word) : (s.fail c v).link = s.link := rfl
@[simp] theorem State.fail_events (s : State) (c : CErr) (v : Word) : (s.fail c v).events = s.events := rfl
@[simp] theorem State.fail_pending (s : State) (c : CErr) (v : Word) : (s.fail c v).pending = s.pending := rfl

/-! ### raise -/

@[simp] theorem State.raise_cfg (s : State) (c : CErr) : (s.raise c).cfg = s.cfg := rfl
@[simp] theorem State.raise_status (s : State) (c : CErr) : (s.raise c).status = statusWord false c := rfl
@[simp] theorem State.raise_result (s : State) (c : CErr) : (s.raise c).result = 0 := rfl
@[simp] theorem State.raise_txState (s : State) (c : CErr) : (s.raise c).txState = s.txState := rfl
@[simp] theorem State.raise_txSize (s : State) (c : CErr) : (s.raise c).txSize = s.txSize := rfl
@[simp] theorem State.raise_txSent (s : State) (c : CErr) : (s.raise c).txSent = s.txSent := rfl
@[simp] theorem State.raise_txStartTime (s : State) (c : CErr) : (s.raise c).txStartTime = s.txStartTime := rfl
@[simp] theorem State.raise_rxLife (s : State) (c : CErr) : (s.raise c).rxLife = s.rxLife := rfl
@[simp] theorem State.raise_rxAcc (s : State) (c : CErr) : (s.raise c).rxAcc = s.rxAcc := rfl
@[simp] theorem State.raise_rxSize (s : State) (c : CErr) : (s.raise c).rxSize = s.rxSize := rfl
@[simp] theorem State.raise_rxLastTime (s : State) (c : CErr) : (s.raise c).rxLastTime = s.rxLastTime := rfl
@[simp] theorem State.raise_rxPollTime (s : State) (c : CErr) : (s.raise c).rxPollTime = s.rxPollTime := rfl
@[simp] theorem State.raise_rxActive (s : State) (c : CErr) : (s.raise c).rxActive = s.rxActive := rfl
@[simp] theorem State.raise_mem (s : State) (c : CErr) : (s.raise c).mem = s.mem := rfl
@[simp] theorem State.raise_link (s : State) (c : CErr) : (s.raise c).link = s.link := rfl
@[simp] theorem State.raise_events (s : State) (c : CErr) : (s.raise c).events = s.events := rfl
@[simp] theorem State.raise_pending (s : State) (c : CErr) : (s.raise c).pending = s.pending := rfl

/-! ### emit -/

@[simp] theorem State.emit_cfg (s : State) (e : Event) : (s.emit e).cfg = s.cfg := rfl
@[simp] theorem State.emit_status (s : State) (e : Event) : (s.emit e).status = s.status := rfl
@[simp] theorem State.emit_result (s : State) (e : Event) : (s.emit e).result = s.result := rfl
@[simp] theorem State.emit_txState (s : State) (e : Event) : (s.emit e).txState = s.txState := rfl
@[simp] theorem State.emit_txSize (s : State) (e : Event) : (s.emit e).txSize = s.txSize := rfl
@[simp] theorem State.emit_txSent (s : State) (e : Event) : (s.emit e).txSent = s.txSent := rfl
@[simp] theorem State.emit_txStartTime (s : State) (e : Event) : (s.emit e).txStartTime = s.txStartTime := rfl
@[simp] theorem State.emit_rxLife (s : State) (e : Event) : (s.emit e).rxLife = s.rxLife := rfl
@[simp] theorem State.emit_rxAcc (s : State) (e : Event) : (s.emit e).rxAcc = s.rxAcc := rfl
@[simp] theorem State.emit_rxSize (s : State) (e : Event) : (s.emit e).rxSize = s.rxSize := rfl
@[simp] theorem State.emit_rxLastTime (s : State) (e : Event) : (s.emit e).rxLastTime = s.rxLastTime := rfl
@[simp] theorem State.emit_rxPollTime (s : State) (e : Event) : (s.emit e).rxPollTime = s.rxPollTime := rfl
@[simp] theorem State.emit_rxActive (s : State) (e : Event) : (s.emit e).rxActive = s.rxActive := rfl
@[simp] theorem State.emit_mem (s : State) (e : Event) : (s.emit e).mem = s.mem := rfl
@[simp] theorem State.emit_link (s : State) (e : Event) : (s.emit e).link = s.link := rfl
@[simp] theorem State.emit_events (s : State) (e : Event) : (s.emit e).events = s.events ++ [e.word] := rfl
@[simp] theorem State.emit_pending (s : State) (e : Event) : (s.emit e).pending = s.pending := rfl

/-! ### finishStep -/

@[simp] theorem State.finishStep_cfg (s : State) (r : Rearm) : (s.finishStep r).cfg = s.cfg := rfl
@[simp] theorem State.finishStep_status (s : State) (r : Rearm) : (s.finishStep r).status = statusWord true .none := rfl
@[simp] theorem State.finishStep_result (s : State) (r : Rearm) : (s.finishStep r).result = r.word := rfl
@[simp] theorem State.finishStep_txState (s : State) (r : Rearm) : (s.finishStep r).txState = s.txState := rfl
@[simp] theorem State.finishStep_txSize (s : State) (r : Rearm) : (s.finishStep r).txSize = s.txSize := rfl
@[simp] theorem State.finishStep_txSent (s : State) (r : Rearm) : (s.finishStep r).txSent = s.txSent := rfl
@[simp] theorem State.finishStep_txStartTime (s : State) (r : Rearm) : (s.finishStep r).txStartTime = s.txStartTime := rfl
@[simp] theorem State.finishStep_rxLife (s : State) (r : Rearm) : (s.finishStep r).rxLife = s.rxLife := rfl
@[simp] theorem State.finishStep_rxAcc (s : State) (r : Rearm) : (s.finishStep r).rxAcc = s.rxAcc := rfl
@[simp] theorem State.finishStep_rxSize (s : State) (r : Rearm) : (s.finishStep r).rxSize = s.rxSize := rfl
@[simp] theorem State.finishStep_rxLastTime (s : State) (r : Rearm) : (s.finishStep r).rxLastTime = s.rxLastTime := rfl
@[simp] theorem State.finishStep_rxPollTime (s : State) (r : Rearm) : (s.finishStep r).rxPollTime = s.rxPollTime := rfl
@[simp] theorem State.finishStep_rxActive (s : State) (r : Rearm) : (s.finishStep r).rxActive = s.rxActive := rfl
@[simp] theorem State.finishStep_mem (s : State) (r : Rearm) : (s.finishStep r).mem = s.mem := rfl
@[simp] theorem State.finishStep_link (s : State) (r : Rearm) : (s.finishStep r).link = s.link := rfl
@[simp] theorem State.finishStep_events (s : State) (r : Rearm) : (s.finishStep r).events = s.events := rfl
@[simp] theorem State.finishStep_pending (s : State) (r : Rearm) : (s.finishStep r).pending = s.pending := rfl

/-! ### callBegin -/

@[simp] theorem State.callBegin_cfg (s : State) : (s.callBegin).cfg = s.cfg := rfl
@[simp] theorem State.callBegin_status (s : State) : (s.callBegin).status = s.status := rfl
@[simp] theorem State.callBegin_result (s : State) : (s.callBegin).result = s.result := rfl
@[simp] theorem State.callBegin_txState (s : State) : (s.callBegin).txState = s.txState := rfl
@[simp] theorem State.callBegin_txSize (s : State) : (s.callBegin).txSize = s.txSize := rfl
@[simp] theorem State.callBegin_txSent (s : State) : (s.callBegin).txSent = s.txSent := rfl
@[simp] theorem State.callBegin_txStartTime (s : State) : (s.callBegin).txStartTime = s.txStartTime := rfl
@[simp] theorem State.callBegin_rxLife (s : State) : (s.callBegin).rxLife = s.rxLife := rfl
@[simp] theorem State.callBegin_rxAcc (s : State) : (s.callBegin).rxAcc = s.rxAcc := rfl
@[simp] theorem State.callBegin_rxSize (s : State) : (s.callBegin).rxSize = s.rxSize := rfl
@[simp] theorem State.callBegin_rxLastTime (s : State) : (s.callBegin).rxLastTime = s.rxLastTime := rfl
@[simp] theorem State.callBegin_rxPollTime (s : State) : (s.callBegin).rxPollTime = s.rxPollTime := rfl
@[simp] theorem State.callBegin_rxActive (s : State) : (s.callBegin).rxActive = s.rxActive := rfl
@[simp] theorem State.callBegin_mem (s : State) : (s.callBegin).mem = s.mem := rfl
@[simp] theorem State.callBegin_link (s : State) : (s.callBegin).link = s.link.record (.beginLink s.cfg.baudrate) := rfl
@[simp] theorem State.callBegin_events (s : State) : (s.callBegin).events = s.events := rfl
@[simp] theorem State.callBegin_pending (s : State) : (s.callBegin).pending = s.pending := rfl

/-! ### callEnd -/

@[simp] theorem State.callEnd_cfg (s : State) : (s.callEnd).cfg = s.cfg := rfl
@[simp] theorem State.callEnd_status (s : State) : (s.callEnd).status = s.status := rfl
@[simp] theorem State.callEnd_result (s : State) : (s.callEnd).result = s.result := rfl
@[simp] theorem State.callEnd_txState (s : State) : (s.callEnd).txState = s.txState := rfl
@[simp] theorem State.callEnd_txSize (s : State) : (s.callEnd).txSize = s.txSize := rfl
@[simp] theorem State.callEnd_txSent (s : State) : (s.callEnd).txSent = s.txSent := rfl
@[simp] theorem State.callEnd_txStartTime (s : State) : (s.callEnd).txStartTime = s.txStartTime := rfl
@[simp] theorem State.callEnd_rxLife (s : State) : (s.callEnd).rxLife = s.rxLife := rfl
@[simp] theorem State.callEnd_rxAcc (s : State) : (s.callEnd).rxAcc = s.rxAcc := rfl
@[simp] theorem State.callEnd_rxSize (s : State) : (s.callEnd).rxSize = s.rxSize := rfl
@[simp] theorem State.callEnd_rxLastTime (s : State) : (s.callEnd).rxLastTime = s.rxLastTime := rfl
@[simp] theorem State.callEnd_rxPollTime (s : State) : (s.callEnd).rxPollTime = s.rxPollTime := rfl
@[simp] theorem State.callEnd_rxActive (s : State) : (s.callEnd).rxActive = s.rxActive := rfl
@[simp] theorem State.callEnd_mem (s : State) : (s.callEnd).mem = s.mem := rfl
@[simp] theorem State.callEnd_link (s : State) : (s.callEnd).link = s.link.record .endLink := rfl
@[simp] theorem State.callEnd_events (s : State) : (s.callEnd).events = s.events := rfl
@[simp] theorem State.callEnd_pending (s : State) : (s.callEnd).pending = s.pending := rfl

/-! ### withAccumulator -/

@[simp] theorem State.withAccumulator_cfg (s : State) (a : RxAcc) (n : Nat) : (s.withAccumulator a n).cfg = s.cfg := rfl
@[simp] theorem State.withAccumulator_status (s : State) (a : RxAcc) (n : Nat) : (s.withAccumulator a n).status = s.status := rfl
@[simp] theorem State.withAccumulator_result (s : State) (a : RxAcc) (n : Nat) : (s.withAccumulator a n).result = s.result := rfl
@[simp] theorem State.withAccumulator_txState (s : State) (a : RxAcc) (n : Nat) : (s.withAccumulator a n).txState = s.txState := rfl
@[simp] theorem State.withAccumulator_txSize (s : State) (a : RxAcc) (n : Nat) : (s.withAccumulator a n).txSize = s.txSize := rfl
@[simp] theorem State.withAccumulator_txSent (s : State) (a : RxAcc) (n : Nat) : (s.withAccumulator a n).txSent = s.txSent := rfl
@[simp] theorem State.withAccumulator_txStartTime (s : State) (a : RxAcc) (n : Nat) : (s.withAccumulator a n).txStartTime = s.txStartTime := rfl
@[simp] theorem State.withAccumulator_rxLife (s : State) (a : RxAcc) (n : Nat) : (s.withAccumulator a n).rxLife = s.rxLife := rfl
@[simp] theorem State.withAccumulator_rxAcc (s : State) (a : RxAcc) (n : Nat) : (s.withAccumulator a n).rxAcc = a := rfl
@[simp] theorem State.withAccumulator_rxSize (s : State) (a : RxAcc) (n : Nat) : (s.withAccumulator a n).rxSize = BitVec.ofNat 8 n := rfl
@[simp] theorem State.withAccumulator_rxLastTime (s : State) (a : RxAcc) (n : Nat) : (s.withAccumulator a n).rxLastTime = s.rxLastTime := rfl
@[simp] theorem State.withAccumulator_rxPollTime (s : State) (a : RxAcc) (n : Nat) : (s.withAccumulator a n).rxPollTime = s.rxPollTime := rfl
@[simp] theorem State.withAccumulator_rxActive (s : State) (a : RxAcc) (n : Nat) : (s.withAccumulator a n).rxActive = s.rxActive := rfl
@[simp] theorem State.withAccumulator_mem (s : State) (a : RxAcc) (n : Nat) : (s.withAccumulator a n).mem = s.mem := rfl
@[simp] theorem State.withAccumulator_link (s : State) (a : RxAcc) (n : Nat) : (s.withAccumulator a n).link = s.link := rfl
@[simp] theorem State.withAccumulator_events (s : State) (a : RxAcc) (n : Nat) : (s.withAccumulator a n).events = s.events := rfl
@[simp] theorem State.withAccumulator_pending (s : State) (a : RxAcc) (n : Nat) : (s.withAccumulator a n).pending = s.pending := rfl

/-! ### resetReceiver -/

@[simp] theorem State.resetReceiver_cfg (s : State) (l : RxLife) : (s.resetReceiver l).cfg = s.cfg := rfl
@[simp] theorem State.resetReceiver_status (s : State) (l : RxLife) : (s.resetReceiver l).status = s.status := rfl
@[simp] theorem State.resetReceiver_result (s : State) (l : RxLife) : (s.resetReceiver l).result = s.result := rfl
@[simp] theorem State.resetReceiver_txState (s : State) (l : RxLife) : (s.resetReceiver l).txState = s.txState := rfl
@[simp] theorem State.resetReceiver_txSize (s : State) (l : RxLife) : (s.resetReceiver l).txSize = s.txSize := rfl
@[simp] theorem State.resetReceiver_txSent (s : State) (l : RxLife) : (s.resetReceiver l).txSent = s.txSent := rfl
@[simp] theorem State.resetReceiver_txStartTime (s : State) (l : RxLife) : (s.resetReceiver l).txStartTime = s.txStartTime := rfl
@[simp] theorem State.resetReceiver_rxLife (s : State) (l : RxLife) : (s.resetReceiver l).rxLife = l := rfl
@[simp] theorem State.resetReceiver_rxAcc (s : State) (l : RxLife) : (s.resetReceiver l).rxAcc = .waitingForStart := rfl
@[simp] theorem State.resetReceiver_rxSize (s : State) (l : RxLife) : (s.resetReceiver l).rxSize = 0 := rfl
@[simp] theorem State.resetReceiver_rxLastTime (s : State) (l : RxLife) : (s.resetReceiver l).rxLastTime = s.rxLastTime := rfl
@[simp] theorem State.resetReceiver_rxPollTime (s : State) (l : RxLife) : (s.resetReceiver l).rxPollTime = s.rxPollTime := rfl
@[simp] theorem State.resetReceiver_rxActive (s : State) (l : RxLife) : (s.resetReceiver l).rxActive = false := rfl
@[simp] theorem State.resetReceiver_mem (s : State) (l : RxLife) : (s.resetReceiver l).mem = s.mem := rfl
@[simp] theorem State.resetReceiver_link (s : State) (l : RxLife) : (s.resetReceiver l).link = s.link := rfl
@[simp] theorem State.resetReceiver_events (s : State) (l : RxLife) : (s.resetReceiver l).events = s.events := rfl
@[simp] theorem State.resetReceiver_pending (s : State) (l : RxLife) : (s.resetReceiver l).pending = s.pending := rfl

/-! ### sampleNow -/

@[simp] theorem State.sampleNow_cfg (s : State) : (s.sampleNow).2.cfg = s.cfg := rfl
@[simp] theorem State.sampleNow_status (s : State) : (s.sampleNow).2.status = s.status := rfl
@[simp] theorem State.sampleNow_result (s : State) : (s.sampleNow).2.result = s.result := rfl
@[simp] theorem State.sampleNow_txState (s : State) : (s.sampleNow).2.txState = s.txState := rfl
@[simp] theorem State.sampleNow_txSize (s : State) : (s.sampleNow).2.txSize = s.txSize := rfl
@[simp] theorem State.sampleNow_txSent (s : State) : (s.sampleNow).2.txSent = s.txSent := rfl
@[simp] theorem State.sampleNow_txStartTime (s : State) : (s.sampleNow).2.txStartTime = s.txStartTime := rfl
@[simp] theorem State.sampleNow_rxLife (s : State) : (s.sampleNow).2.rxLife = s.rxLife := rfl
@[simp] theorem State.sampleNow_rxAcc (s : State) : (s.sampleNow).2.rxAcc = s.rxAcc := rfl
@[simp] theorem State.sampleNow_rxSize (s : State) : (s.sampleNow).2.rxSize = s.rxSize := rfl
@[simp] theorem State.sampleNow_rxLastTime (s : State) : (s.sampleNow).2.rxLastTime = s.rxLastTime := rfl
@[simp] theorem State.sampleNow_rxPollTime (s : State) : (s.sampleNow).2.rxPollTime = s.rxPollTime := rfl
@[simp] theorem State.sampleNow_rxActive (s : State) : (s.sampleNow).2.rxActive = s.rxActive := rfl
@[simp] theorem State.sampleNow_mem (s : State) : (s.sampleNow).2.mem = s.mem := rfl
@[simp] theorem State.sampleNow_link (s : State) : (s.sampleNow).2.link = s.link.sampleNow.2 := rfl
@[simp] theorem State.sampleNow_events (s : State) : (s.sampleNow).2.events = s.events := rfl
@[simp] theorem State.sampleNow_pending (s : State) : (s.sampleNow).2.pending = s.pending := rfl

/-! ### callConnected -/

@[simp] theorem State.callConnected_cfg (s : State) : (s.callConnected).2.cfg = s.cfg := rfl
@[simp] theorem State.callConnected_status (s : State) : (s.callConnected).2.status = s.status := rfl
@[simp] theorem State.callConnected_result (s : State) : (s.callConnected).2.result = s.result := rfl
@[simp] theorem State.callConnected_txState (s : State) : (s.callConnected).2.txState = s.txState := rfl
@[simp] theorem State.callConnected_txSize (s : State) : (s.callConnected).2.txSize = s.txSize := rfl
@[simp] theorem State.callConnected_txSent (s : State) : (s.callConnected).2.txSent = s.txSent := rfl
@[simp] theorem State.callConnected_txStartTime (s : State) : (s.callConnected).2.txStartTime = s.txStartTime := rfl
@[simp] theorem State.callConnected_rxLife (s : State) : (s.callConnected).2.rxLife = s.rxLife := rfl
@[simp] theorem State.callConnected_rxAcc (s : State) : (s.callConnected).2.rxAcc = s.rxAcc := rfl
@[simp] theorem State.callConnected_rxSize (s : State) : (s.callConnected).2.rxSize = s.rxSize := rfl
@[simp] theorem State.callConnected_rxLastTime (s : State) : (s.callConnected).2.rxLastTime = s.rxLastTime := rfl
@[simp] theorem State.callConnected_rxPollTime (s : State) : (s.callConnected).2.rxPollTime = s.rxPollTime := rfl
@[simp] theorem State.callConnected_rxActive (s : State) : (s.callConnected).2.rxActive = s.rxActive := rfl
@[simp] theorem State.callConnected_mem (s : State) : (s.callConnected).2.mem = s.mem := rfl
@[simp] theorem State.callConnected_link (s : State) : (s.callConnected).2.link = s.link.connected.2 := rfl
@[simp] theorem State.callConnected_events (s : State) : (s.callConnected).2.events = s.events := rfl
@[simp] theorem State.callConnected_pending (s : State) : (s.callConnected).2.pending = s.pending := rfl

/-! ### callAvailableForWrite -/

@[simp] theorem State.callAvailableForWrite_cfg (s : State) : (s.callAvailableForWrite).2.cfg = s.cfg := rfl
@[simp] theorem State.callAvailableForWrite_status (s : State) : (s.callAvailableForWrite).2.status = s.status := rfl
@[simp] theorem State.callAvailableForWrite_result (s : State) : (s.callAvailableForWrite).2.result = s.result := rfl
@[simp] theorem State.callAvailableForWrite_txState (s : State) : (s.callAvailableForWrite).2.txState = s.txState := rfl
@[simp] theorem State.callAvailableForWrite_txSize (s : State) : (s.callAvailableForWrite).2.txSize = s.txSize := rfl
@[simp] theorem State.callAvailableForWrite_txSent (s : State) : (s.callAvailableForWrite).2.txSent = s.txSent := rfl
@[simp] theorem State.callAvailableForWrite_txStartTime (s : State) : (s.callAvailableForWrite).2.txStartTime = s.txStartTime := rfl
@[simp] theorem State.callAvailableForWrite_rxLife (s : State) : (s.callAvailableForWrite).2.rxLife = s.rxLife := rfl
@[simp] theorem State.callAvailableForWrite_rxAcc (s : State) : (s.callAvailableForWrite).2.rxAcc = s.rxAcc := rfl
@[simp] theorem State.callAvailableForWrite_rxSize (s : State) : (s.callAvailableForWrite).2.rxSize = s.rxSize := rfl
@[simp] theorem State.callAvailableForWrite_rxLastTime (s : State) : (s.callAvailableForWrite).2.rxLastTime = s.rxLastTime := rfl
@[simp] theorem State.callAvailableForWrite_rxPollTime (s : State) : (s.callAvailableForWrite).2.rxPollTime = s.rxPollTime := rfl
@[simp] theorem State.callAvailableForWrite_rxActive (s : State) : (s.callAvailableForWrite).2.rxActive = s.rxActive := rfl
@[simp] theorem State.callAvailableForWrite_mem (s : State) : (s.callAvailableForWrite).2.mem = s.mem := rfl
@[simp] theorem State.callAvailableForWrite_link (s : State) : (s.callAvailableForWrite).2.link = s.link.availableForWrite.2 := rfl
@[simp] theorem State.callAvailableForWrite_events (s : State) : (s.callAvailableForWrite).2.events = s.events := rfl
@[simp] theorem State.callAvailableForWrite_pending (s : State) : (s.callAvailableForWrite).2.pending = s.pending := rfl

/-! ### callWrite -/

@[simp] theorem State.callWrite_cfg (s : State) (o : List Byte) : (s.callWrite o).2.cfg = s.cfg := rfl
@[simp] theorem State.callWrite_status (s : State) (o : List Byte) : (s.callWrite o).2.status = s.status := rfl
@[simp] theorem State.callWrite_result (s : State) (o : List Byte) : (s.callWrite o).2.result = s.result := rfl
@[simp] theorem State.callWrite_txState (s : State) (o : List Byte) : (s.callWrite o).2.txState = s.txState := rfl
@[simp] theorem State.callWrite_txSize (s : State) (o : List Byte) : (s.callWrite o).2.txSize = s.txSize := rfl
@[simp] theorem State.callWrite_txSent (s : State) (o : List Byte) : (s.callWrite o).2.txSent = s.txSent := rfl
@[simp] theorem State.callWrite_txStartTime (s : State) (o : List Byte) : (s.callWrite o).2.txStartTime = s.txStartTime := rfl
@[simp] theorem State.callWrite_rxLife (s : State) (o : List Byte) : (s.callWrite o).2.rxLife = s.rxLife := rfl
@[simp] theorem State.callWrite_rxAcc (s : State) (o : List Byte) : (s.callWrite o).2.rxAcc = s.rxAcc := rfl
@[simp] theorem State.callWrite_rxSize (s : State) (o : List Byte) : (s.callWrite o).2.rxSize = s.rxSize := rfl
@[simp] theorem State.callWrite_rxLastTime (s : State) (o : List Byte) : (s.callWrite o).2.rxLastTime = s.rxLastTime := rfl
@[simp] theorem State.callWrite_rxPollTime (s : State) (o : List Byte) : (s.callWrite o).2.rxPollTime = s.rxPollTime := rfl
@[simp] theorem State.callWrite_rxActive (s : State) (o : List Byte) : (s.callWrite o).2.rxActive = s.rxActive := rfl
@[simp] theorem State.callWrite_mem (s : State) (o : List Byte) : (s.callWrite o).2.mem = s.mem := rfl
@[simp] theorem State.callWrite_link (s : State) (o : List Byte) : (s.callWrite o).2.link = (s.link.write o).2 := rfl
@[simp] theorem State.callWrite_events (s : State) (o : List Byte) : (s.callWrite o).2.events = s.events := rfl
@[simp] theorem State.callWrite_pending (s : State) (o : List Byte) : (s.callWrite o).2.pending = s.pending := rfl

/-! ### callAvailable -/

@[simp] theorem State.callAvailable_cfg (s : State) : (s.callAvailable).2.cfg = s.cfg := rfl
@[simp] theorem State.callAvailable_status (s : State) : (s.callAvailable).2.status = s.status := rfl
@[simp] theorem State.callAvailable_result (s : State) : (s.callAvailable).2.result = s.result := rfl
@[simp] theorem State.callAvailable_txState (s : State) : (s.callAvailable).2.txState = s.txState := rfl
@[simp] theorem State.callAvailable_txSize (s : State) : (s.callAvailable).2.txSize = s.txSize := rfl
@[simp] theorem State.callAvailable_txSent (s : State) : (s.callAvailable).2.txSent = s.txSent := rfl
@[simp] theorem State.callAvailable_txStartTime (s : State) : (s.callAvailable).2.txStartTime = s.txStartTime := rfl
@[simp] theorem State.callAvailable_rxLife (s : State) : (s.callAvailable).2.rxLife = s.rxLife := rfl
@[simp] theorem State.callAvailable_rxAcc (s : State) : (s.callAvailable).2.rxAcc = s.rxAcc := rfl
@[simp] theorem State.callAvailable_rxSize (s : State) : (s.callAvailable).2.rxSize = s.rxSize := rfl
@[simp] theorem State.callAvailable_rxLastTime (s : State) : (s.callAvailable).2.rxLastTime = s.rxLastTime := rfl
@[simp] theorem State.callAvailable_rxPollTime (s : State) : (s.callAvailable).2.rxPollTime = s.rxPollTime := rfl
@[simp] theorem State.callAvailable_rxActive (s : State) : (s.callAvailable).2.rxActive = s.rxActive := rfl
@[simp] theorem State.callAvailable_mem (s : State) : (s.callAvailable).2.mem = s.mem := rfl
@[simp] theorem State.callAvailable_link (s : State) : (s.callAvailable).2.link = s.link.available.2 := rfl
@[simp] theorem State.callAvailable_events (s : State) : (s.callAvailable).2.events = s.events := rfl
@[simp] theorem State.callAvailable_pending (s : State) : (s.callAvailable).2.pending = s.pending := rfl

/-! ### callRead -/

@[simp] theorem State.callRead_cfg (s : State) : (s.callRead).2.cfg = s.cfg := rfl
@[simp] theorem State.callRead_status (s : State) : (s.callRead).2.status = s.status := rfl
@[simp] theorem State.callRead_result (s : State) : (s.callRead).2.result = s.result := rfl
@[simp] theorem State.callRead_txState (s : State) : (s.callRead).2.txState = s.txState := rfl
@[simp] theorem State.callRead_txSize (s : State) : (s.callRead).2.txSize = s.txSize := rfl
@[simp] theorem State.callRead_txSent (s : State) : (s.callRead).2.txSent = s.txSent := rfl
@[simp] theorem State.callRead_txStartTime (s : State) : (s.callRead).2.txStartTime = s.txStartTime := rfl
@[simp] theorem State.callRead_rxLife (s : State) : (s.callRead).2.rxLife = s.rxLife := rfl
@[simp] theorem State.callRead_rxAcc (s : State) : (s.callRead).2.rxAcc = s.rxAcc := rfl
@[simp] theorem State.callRead_rxSize (s : State) : (s.callRead).2.rxSize = s.rxSize := rfl
@[simp] theorem State.callRead_rxLastTime (s : State) : (s.callRead).2.rxLastTime = s.rxLastTime := rfl
@[simp] theorem State.callRead_rxPollTime (s : State) : (s.callRead).2.rxPollTime = s.rxPollTime := rfl
@[simp] theorem State.callRead_rxActive (s : State) : (s.callRead).2.rxActive = s.rxActive := rfl
@[simp] theorem State.callRead_mem (s : State) : (s.callRead).2.mem = s.mem := rfl
@[simp] theorem State.callRead_link (s : State) : (s.callRead).2.link = s.link.read.2 := rfl
@[simp] theorem State.callRead_events (s : State) : (s.callRead).2.events = s.events := rfl
@[simp] theorem State.callRead_pending (s : State) : (s.callRead).2.pending = s.pending := rfl

/-! ### startTransfer -/

@[simp] theorem startTransfer_cfg (s : State) (t : Word) (n : Nat) : (startTransfer t n s).cfg = s.cfg := rfl
@[simp] theorem startTransfer_status (s : State) (t : Word) (n : Nat) : (startTransfer t n s).status = s.status := rfl
@[simp] theorem startTransfer_result (s : State) (t : Word) (n : Nat) : (startTransfer t n s).result = s.result := rfl
@[simp] theorem startTransfer_txState (s : State) (t : Word) (n : Nat) : (startTransfer t n s).txState = .sendingStartDelimiter := rfl
@[simp] theorem startTransfer_txSize (s : State) (t : Word) (n : Nat) : (startTransfer t n s).txSize = BitVec.ofNat 8 n := rfl
@[simp] theorem startTransfer_txSent (s : State) (t : Word) (n : Nat) : (startTransfer t n s).txSent = 0 := rfl
@[simp] theorem startTransfer_txStartTime (s : State) (t : Word) (n : Nat) : (startTransfer t n s).txStartTime = t := rfl
@[simp] theorem startTransfer_rxLife (s : State) (t : Word) (n : Nat) : (startTransfer t n s).rxLife = s.rxLife := rfl
@[simp] theorem startTransfer_rxAcc (s : State) (t : Word) (n : Nat) : (startTransfer t n s).rxAcc = s.rxAcc := rfl
@[simp] theorem startTransfer_rxSize (s : State) (t : Word) (n : Nat) : (startTransfer t n s).rxSize = s.rxSize := rfl
@[simp] theorem startTransfer_rxLastTime (s : State) (t : Word) (n : Nat) : (startTransfer t n s).rxLastTime = s.rxLastTime := rfl
@[simp] theorem startTransfer_rxPollTime (s : State) (t : Word) (n : Nat) : (startTransfer t n s).rxPollTime = s.rxPollTime := rfl
@[simp] theorem startTransfer_rxActive (s : State) (t : Word) (n : Nat) : (startTransfer t n s).rxActive = s.rxActive := rfl
@[simp] theorem startTransfer_mem (s : State) (t : Word) (n : Nat) : (startTransfer t n s).mem = s.mem := rfl
@[simp] theorem startTransfer_link (s : State) (t : Word) (n : Nat) : (startTransfer t n s).link = s.link := rfl
@[simp] theorem startTransfer_events (s : State) (t : Word) (n : Nat) : (startTransfer t n s).events = s.events := rfl
@[simp] theorem startTransfer_pending (s : State) (t : Word) (n : Nat) : (startTransfer t n s).pending = s.pending := rfl

end Sys2Proof.Machine
end

