-- ==== Sys2Proof/Laws/Memory.lean ====
section
/-! SUPPORT. Byte memory: reading after writing, and that every memory operation keeps the canonical form and the bounds. -/

namespace Sys2Proof.Machine

/-! ### Lists of written bytes -/

@[simp] theorem cellAt_setCell_same (cs : List Host.Cell) (a : Nat) (v : Byte) : cellAt (setCell cs a v) a = some v := by
  induction cs with
  | nil => simp [setCell, cellAt]
  | cons c rest ih =>
    obtain ⟨k, x⟩ := c
    unfold setCell
    split
    · simp [cellAt]
    · split
      · simp [cellAt]
      · rename_i h1 h2
        simp [cellAt, ih, Ne.symm h2]

theorem cellAt_setCell_other (cs : List Host.Cell) {a a' : Nat} (v : Byte) (h : a' ≠ a) :
    cellAt (setCell cs a v) a' = cellAt cs a' := by
  induction cs with
  | nil => simp [setCell, cellAt, h.symm]
  | cons c rest ih =>
    obtain ⟨k, x⟩ := c
    unfold setCell
    split
    · simp [cellAt, h.symm]
    · split
      · rename_i h1 h2
        subst h2
        simp [cellAt, h.symm]
      · simp [cellAt, ih]

theorem cellsAbove_setCell {b a : Nat} {cs : List Host.Cell} (v : Byte) (hb : b < a) (h : cellsAbove b cs = true) :
    cellsAbove b (setCell cs a v) = true := by
  induction cs with
  | nil => simp [setCell, cellsAbove, hb]
  | cons c rest ih =>
    obtain ⟨k, x⟩ := c
    simp only [cellsAbove, Bool.and_eq_true, decide_eq_true_eq] at h
    unfold setCell
    split
    · simp [cellsAbove, hb, h]
    · split
      · simp [cellsAbove, hb, h.2]
      · simp [cellsAbove, h.1, ih h.2]

theorem cellsAbove_mono {a b : Nat} {cs : List Host.Cell} (hab : a ≤ b) (h : cellsAbove b cs = true) :
    cellsAbove a cs = true := by
  induction cs with
  | nil => rfl
  | cons c rest ih =>
    obtain ⟨k, x⟩ := c
    simp only [cellsAbove, Bool.and_eq_true, decide_eq_true_eq] at h ⊢
    exact ⟨by omega, ih h.2⟩

/-- A write keeps offsets strictly rising. -/
theorem cellsRising_setCell {cs : List Host.Cell} (a : Nat) (v : Byte) (h : cellsRising cs = true) :
    cellsRising (setCell cs a v) = true := by
  induction cs with
  | nil => simp [setCell, cellsRising, cellsAbove]
  | cons c rest ih =>
    obtain ⟨k, x⟩ := c
    simp only [cellsRising, Bool.and_eq_true] at h
    unfold setCell
    split
    · rename_i hlt
      simp [cellsRising, cellsAbove, hlt, h.1, h.2, cellsAbove_mono (Nat.le_of_lt hlt) h.1]
    · split
      · rename_i h2
        subst h2
        simp [cellsRising, h.1, h.2]
      · rename_i h1 h2
        simp [cellsRising, cellsAbove_setCell v (by omega : k < a) h.1, ih h.2]

/-- A write below the capacity keeps every offset below it. -/
theorem cellsBelow_setCell {cap a : Nat} {cs : List Host.Cell} (v : Byte) (ha : a < cap) (h : cellsBelow cap cs = true) :
    cellsBelow cap (setCell cs a v) = true := by
  induction cs with
  | nil => simp [setCell, cellsBelow, ha]
  | cons c rest ih =>
    obtain ⟨k, x⟩ := c
    simp only [cellsBelow, Bool.and_eq_true, decide_eq_true_eq] at h
    unfold setCell
    split
    · simp [cellsBelow, ha, h]
    · split
      · simp [cellsBelow, ha, h.2]
      · simp [cellsBelow, h.1, ih h.2]

/-! ### Buffer memory -/

@[simp] theorem Memory.cells_withCells_same (m : Memory) (b : Region) (cs : List Host.Cell) :
    (m.withCells b cs).cells b = cs := by cases b <;> rfl

theorem Memory.cells_withCells_other (m : Memory) {b b' : Region} (cs : List Host.Cell) (h : b' ≠ b) :
    (m.withCells b cs).cells b' = m.cells b' := by
  cases b <;> cases b' <;> first | rfl | exact absurd rfl h

/-- A written byte reads back. -/
@[simp] theorem Memory.readByte_writeByte_same (m : Memory) (b : Region) (off : Nat) (v : Byte) :
    (m.writeByte b off v).readByte b off = v := by
  simp [Memory.readByte, Memory.writeByte]

/-- A write leaves every other byte alone. -/
theorem Memory.readByte_writeByte_other (m : Memory) {b b' : Region} {off off' : Nat} (v : Byte)
    (h : b' ≠ b ∨ off' ≠ off) : (m.writeByte b off v).readByte b' off' = m.readByte b' off' := by
  by_cases hb : b' = b
  · subst hb
    have ho : off' ≠ off := h.resolve_left (fun hne => hne rfl)
    simp [Memory.readByte, Memory.writeByte, cellAt_setCell_other _ _ ho]
  · simp [Memory.readByte, Memory.writeByte, Memory.cells_withCells_other _ _ hb]

/-- What one write does to every byte. -/
theorem Memory.readByte_writeByte (m : Memory) (b b' : Region) (off off' : Nat) (v : Byte) :
    (m.writeByte b off v).readByte b' off' = if b' = b ∧ off' = off then v else m.readByte b' off' := by
  split
  · rename_i h
    rw [h.1, h.2, Memory.readByte_writeByte_same]
  · rename_i h
    exact Memory.readByte_writeByte_other m v (by
      by_cases hb : b' = b
      · exact .inr fun ho => h ⟨hb, ho⟩
      · exact .inl hb)

@[simp] theorem Memory.readBytes_length (m : Memory) (b : Region) (off n : Nat) : (m.readBytes b off n).length = n := by
  simp [Memory.readBytes]

@[simp] theorem Memory.readBytes_getElem (m : Memory) (b : Region) (off n k : Nat) (h : k < (m.readBytes b off n).length) :
    (m.readBytes b off n)[k] = m.readByte b (off + k) := by
  simp [Memory.readBytes]

@[simp] theorem Memory.readBytes_zero (m : Memory) (b : Region) (off : Nat) : m.readBytes b off 0 = [] := rfl

theorem Memory.readBytes_succ (m : Memory) (b : Region) (off n : Nat) :
    m.readBytes b off (n + 1) = m.readByte b off :: m.readBytes b (off + 1) n := by
  apply List.ext_getElem
  · simp
  · intro k h1 h2
    cases k with
    | zero => simp
    | succ k => simp [Nat.add_comm, Nat.add_left_comm]

theorem Memory.readBytes_append (m : Memory) (b : Region) (off n k : Nat) :
    m.readBytes b off (n + k) = m.readBytes b off n ++ m.readBytes b (off + n) k := by
  induction n generalizing off with
  | zero => simp
  | succ n ih =>
    rw [show n + 1 + k = (n + k) + 1 by omega, Memory.readBytes_succ, ih, Memory.readBytes_succ, List.cons_append,
      show off + 1 + n = off + (n + 1) by omega]

/-- Equal bytes read equally. -/
theorem Memory.readBytes_congr {m m' : Memory} {b b' : Region} {off off' n : Nat}
    (h : ∀ k, k < n → m.readByte b (off + k) = m'.readByte b' (off' + k)) : m.readBytes b off n = m'.readBytes b' off' n := by
  apply List.ext_getElem
  · simp
  · intro k h1 h2
    simpa using h k (by simpa using h1)

/-- And only equal bytes. -/
theorem Memory.readByte_of_readBytes {m m' : Memory} {b b' : Region} {off off' n k : Nat}
    (h : m.readBytes b off n = m'.readBytes b' off' n) (hk : k < n) :
    m.readByte b (off + k) = m'.readByte b' (off' + k) := by
  have := congrArg (·[k]?) h
  simpa [hk] using this

/-- A sequence of writes leaves every byte outside its range alone. -/
theorem Memory.readByte_writeBytes_other (m : Memory) {b b' : Region} {off a : Nat} (xs : List Byte)
    (h : b' ≠ b ∨ a < off ∨ off + xs.length ≤ a) : (m.writeBytes b off xs).readByte b' a = m.readByte b' a := by
  induction xs generalizing m off with
  | nil => rfl
  | cons x xs ih =>
    simp only [List.length_cons] at h
    rw [Memory.writeBytes, ih, Memory.readByte_writeByte_other]
    · exact h.imp_right (by omega)
    · exact h.imp_right (by omega)

/-- A sequence of writes puts each byte at its offset. -/
theorem Memory.readByte_writeBytes (m : Memory) (b : Region) (off k : Nat) (xs : List Byte) (hk : k < xs.length) :
    (m.writeBytes b off xs).readByte b (off + k) = xs[k] := by
  induction xs generalizing m off k with
  | nil => simp at hk
  | cons x xs ih =>
    rw [Memory.writeBytes]
    cases k with
    | zero => rw [Memory.readByte_writeBytes_other _ _ (.inr (by omega))]; simp
    | succ k =>
      have := ih (m.writeByte b off x) (off + 1) k (by simpa using hk)
      simpa [Nat.add_comm, Nat.add_left_comm, Nat.add_assoc] using this

/-! ### The canonical form and the bounds -/

theorem Memory.wf_iff (m : Memory) : m.wf = true ↔ ∀ b, cellsRising (m.cells b) = true := by
  constructor
  · intro h b
    simp only [Memory.wf, Bool.and_eq_true] at h
    cases b <;> simp [Memory.cells, h]
  · intro h
    have h1 := h .txb; have h2 := h .rxb; have h3 := h .aux; have h4 := h .scratch
    simp only [Memory.cells] at h1 h2 h3 h4
    simp [Memory.wf, h1, h2, h3, h4]

/-- The capacity of a store: BUF_CAP for a buffer, MSM for SCRATCH (10_state.md R37, R38). -/
def Region.capacity (c : Config) : Region → Nat
  | .scratch => c.msm
  | _ => c.bufCap

theorem Memory.within_iff (m : Memory) (c : Config) :
    m.within c = true ↔ ∀ b, cellsBelow (b.capacity c) (m.cells b) = true := by
  constructor
  · intro h b
    simp only [Memory.within, Bool.and_eq_true] at h
    cases b <;> simp [Memory.cells, Region.capacity, h]
  · intro h
    have h1 := h .txb; have h2 := h .rxb; have h3 := h .aux; have h4 := h .scratch
    simp only [Memory.cells, Region.capacity] at h1 h2 h3 h4
    simp [Memory.within, h1, h2, h3, h4]

/-- A write keeps the canonical form. -/
theorem Memory.wf_writeByte {m : Memory} (b : Region) (off : Nat) (v : Byte) (h : m.wf = true) :
    (m.writeByte b off v).wf = true := by
  rw [Memory.wf_iff] at *
  intro b'
  by_cases hb : b' = b
  · subst hb
    simpa [Memory.writeByte] using cellsRising_setCell off v (h b')
  · simpa [Memory.writeByte, Memory.cells_withCells_other _ _ hb] using h b'

/-- A write below its store's capacity keeps the bounds. -/
theorem Memory.within_writeByte {m : Memory} {c : Config} {b : Region} {off : Nat} (v : Byte) (ho : off < b.capacity c)
    (h : m.within c = true) : (m.writeByte b off v).within c = true := by
  rw [Memory.within_iff] at *
  intro b'
  by_cases hb : b' = b
  · subst hb
    simpa [Memory.writeByte] using cellsBelow_setCell v ho (h b')
  · simpa [Memory.writeByte, Memory.cells_withCells_other _ _ hb] using h b'

theorem Memory.wf_writeBytes {m : Memory} (b : Region) (off : Nat) (xs : List Byte) (h : m.wf = true) :
    (m.writeBytes b off xs).wf = true := by
  induction xs generalizing m off with
  | nil => exact h
  | cons x xs ih => exact ih _ (Memory.wf_writeByte b off x h)

theorem Memory.within_writeBytes {m : Memory} {c : Config} {b : Region} {off : Nat} (xs : List Byte)
    (ho : off + xs.length ≤ b.capacity c) (h : m.within c = true) : (m.writeBytes b off xs).within c = true := by
  induction xs generalizing m off with
  | nil => exact h
  | cons x xs ih =>
    simp only [List.length_cons] at ho
    exact ih (by omega) (Memory.within_writeByte x (by omega) h)

/-- Memory at reset is in canonical form. -/
theorem Memory.atReset_wf : Memory.atReset.wf = true := by decide

/-- Memory at reset lists no byte. -/
theorem Memory.atReset_within (c : Config) : Memory.atReset.within c = true := by
  simp [Memory.atReset, Memory.within, cellsBelow]

end Sys2Proof.Machine
end

