-- ==== Sys2Proof/Laws/Codec.lean ====
section
/-! SUPPORT. One lemma for each codec function that says once what it does: CobsEncode as a recursion over runs, CobsDecode as
the un-stuffing of the bytes it reads followed by one sequence of writes, in place or not, and the range of the Fletcher
sums. -/

namespace Sys2Proof.Machine

/-! ### Sequences of writes -/

theorem Memory.writeBytes_append (m : Memory) (b : Region) (off : Nat) (xs ys : List Byte) :
    m.writeBytes b off (xs ++ ys) = (m.writeBytes b off xs).writeBytes b (off + xs.length) ys := by
  induction xs generalizing m off with
  | nil => rfl
  | cons x xs ih =>
    rw [List.cons_append, Memory.writeBytes, ih, Memory.writeBytes, List.length_cons,
      show off + 1 + xs.length = off + (xs.length + 1) by omega]

@[simp] theorem Memory.writeBytes_nil (m : Memory) (b : Region) (off : Nat) : m.writeBytes b off [] = m := rfl

theorem Memory.writeBytes_singleton (m : Memory) (b : Region) (off : Nat) (x : Byte) :
    m.writeBytes b off [x] = m.writeByte b off x := rfl

/-- What was written reads back as a sequence. -/
theorem Memory.readBytes_writeBytes (m : Memory) (b : Region) (off : Nat) (xs : List Byte) :
    (m.writeBytes b off xs).readBytes b off xs.length = xs := by
  apply List.ext_getElem
  · simp
  · intro k h1 h2
    simp [Memory.readByte_writeBytes _ _ _ _ _ h2]

/-- Reading outside what was written gives what was there. -/
theorem Memory.readBytes_writeBytes_other (m : Memory) {b b' : Region} {off a n : Nat} (xs : List Byte)
    (h : b' ≠ b ∨ a + n ≤ off ∨ off + xs.length ≤ a) :
    (m.writeBytes b off xs).readBytes b' a n = m.readBytes b' a n :=
  Memory.readBytes_congr fun k hk => Memory.readByte_writeBytes_other _ _ (h.imp_right (by omega))

/-- Writing to one store leaves the list of every other. -/
theorem Memory.cells_writeBytes_other (m : Memory) {b b' : Region} (off : Nat) (xs : List Byte) (h : b' ≠ b) :
    (m.writeBytes b off xs).cells b' = m.cells b' := by
  induction xs generalizing m off with
  | nil => rfl
  | cons x xs ih => rw [Memory.writeBytes, ih]; exact Memory.cells_withCells_other _ _ h

/-! ### CobsEncode -/

/-- The stuffed bytes of an open run followed by more input. -/
def stuffFrom (run : List Byte) : List Byte → List Byte
  | [] => BitVec.ofNat 8 (run.length + 1) :: run
  | x :: rest =>
    if x = delimiter then BitVec.ofNat 8 (run.length + 1) :: run ++ stuffFrom [] rest
    else if run.length + 2 = 0xFF then BitVec.ofNat 8 (run.length + 2) :: (run ++ [x]) ++ stuffFrom [] rest
    else stuffFrom (run ++ [x]) rest

theorem cobsRun_fold (pre run : List Byte) (slot : Byte) (d : List Byte) :
    (d.foldl CobsRun.push { out := pre ++ slot :: run, codeAt := pre.length, code := run.length + 1 }).finish
      = pre ++ stuffFrom run d := by
  induction d generalizing pre run slot with
  | nil => simp [CobsRun.finish, stuffFrom]
  | cons x d ih =>
    rw [List.foldl_cons]
    unfold stuffFrom
    by_cases hx : x = delimiter
    · have := ih (pre ++ BitVec.ofNat 8 (run.length + 1) :: run) [] 0x00#8
      simpa [CobsRun.push, CobsRun.close, hx] using this
    · by_cases hr : run.length + 2 = 0xFF
      · have hl : run.length = 253 := by omega
        have := ih (pre ++ BitVec.ofNat 8 (run.length + 2) :: (run ++ [x])) [] 0x00#8
        simpa [CobsRun.push, CobsRun.close, hx, hl] using this
      · have hl : ¬ run.length = 253 := by omega
        have := ih pre (run ++ [x]) slot
        simpa [CobsRun.push, hx, hr, hl] using this

/-- CobsEncode stuffs run by run. -/
theorem cobsEncode_eq_stuff (d : List Byte) : cobsEncode d = stuffFrom [] d := by
  simpa [cobsEncode, CobsRun.start] using cobsRun_fold [] [] 0x00#8 d

/-- While a run stays below 254 bytes, stuffing adds one byte. -/
theorem stuffFrom_length (run d : List Byte) (h : run.length + d.length ≤ 253) :
    (stuffFrom run d).length = run.length + d.length + 1 := by
  induction d generalizing run with
  | nil => simp [stuffFrom]
  | cons x d ih =>
    simp only [List.length_cons] at h
    unfold stuffFrom
    split
    · simp [ih [] (by simp; omega)]
    · split
      · rename_i h1 h2
        have hd : d.length = 0 := by omega
        have := ih [] (by simp; omega)
        omega
      · rw [ih (run ++ [x]) (by simp; omega)]; simp; omega

/-- CobsEncode of at most 253 bytes is one byte longer (R104). -/
theorem cobsEncode_length {d : List Byte} (h : d.length ≤ 253) : (cobsEncode d).length = d.length + 1 := by
  rw [cobsEncode_eq_stuff, stuffFrom_length [] d (by simpa using h)]; simp

/-! ### CobsDecode -/

/-- The un-stuffing of a byte sequence: whether it is well formed, and the bytes decoded up to its end or to the malformed
code byte (R105, R109). -/
def unstuff : (fuel : Nat) → List Byte → Bool × List Byte
  | 0, _ => (true, [])
  | _ + 1, [] => (true, [])
  | fuel + 1, c :: rest =>
    if c = 0 ∨ rest.length + 1 < c.toNat then (false, [])
    else
      let q := unstuff fuel (rest.drop (c.toNat - 1))
      let sep := if c.toNat ≠ 0xFF ∧ rest.length + 1 ≠ c.toNat then [delimiter] else []
      (q.1, rest.take (c.toNat - 1) ++ sep ++ q.2)

/-- The copy of a run is one sequence of writes, if no byte is overwritten before it is read (R108). -/
theorem cobsCopy_eq (src dst : Region) (k r w : Nat) (m : Memory) (h : src ≠ dst ∨ w < r) :
    cobsCopy src dst k r w m = m.writeBytes dst w (m.readBytes src r k) := by
  induction k generalizing r w m with
  | zero => rfl
  | succ k ih =>
    rw [cobsCopy, ih _ _ _ (h.imp_right (by omega)), Memory.readBytes_succ, Memory.writeBytes]
    congr 1
    refine Memory.readBytes_congr fun j _ => Memory.readByte_writeByte_other _ _ ?_
    exact h.imp_right (by omega)

theorem Memory.readBytes_take (m : Memory) (b : Region) (off n k : Nat) (h : k ≤ n) :
    (m.readBytes b off n).take k = m.readBytes b off k := by
  apply List.ext_getElem
  · simp [h]
  · intro j h1 h2
    simp

theorem Memory.readBytes_drop (m : Memory) (b : Region) (off n k : Nat) :
    (m.readBytes b off n).drop k = m.readBytes b (off + k) (n - k) := by
  apply List.ext_getElem
  · simp
  · intro j h1 h2
    simp [Nat.add_assoc]

/-- CobsDecode from any point of its loop, in place or not: it un-stuffs the bytes still to be read and writes the result in
one sequence. -/
theorem cobsDecodeFrom_eq (src dst : Region) (n fuel r w : Nat) (m : Memory) (hr : r ≤ n) (h : src ≠ dst ∨ w ≤ r) :
    cobsDecodeFrom src dst n fuel r w m =
      { ok := (unstuff fuel (m.readBytes src r (n - r))).1,
        size := w + (unstuff fuel (m.readBytes src r (n - r))).2.length,
        mem := m.writeBytes dst w (unstuff fuel (m.readBytes src r (n - r))).2 } := by
  induction fuel generalizing r w m with
  | zero => simp [cobsDecodeFrom, unstuff]
  | succ fuel ih =>
    rw [cobsDecodeFrom]
    by_cases hlt : r < n
    · rw [if_pos hlt, show n - r = (n - r - 1) + 1 by omega, Memory.readBytes_succ]
      simp only [unstuff, Memory.readBytes_length]
      generalize hc : m.readByte src r = c
      have hz : c.toNat = 0 ↔ c = 0 := by
        constructor
        · intro h0; exact BitVec.eq_of_toNat_eq (by simpa using h0)
        · rintro rfl; rfl
      by_cases hbad : c = 0 ∨ n - r - 1 + 1 < c.toNat
      · rw [if_pos hbad, if_pos (by rcases hbad with h0 | h0; exacts [.inl (hz.2 h0), .inr (by omega)])]
        simp
      · have hc0 : c.toNat ≠ 0 := fun h0 => hbad (.inl (hz.1 h0))
        have hcn : r + c.toNat ≤ n := by
          have : ¬ (n - r - 1 + 1 < c.toNat) := fun h0 => hbad (.inr h0)
          omega
        rw [if_neg hbad, if_neg (by omega), cobsCopy_eq _ _ _ _ _ _ (h.imp_right (by omega)),
          Memory.readBytes_take _ _ _ _ _ (by omega), Memory.readBytes_drop,
          show r + 1 + (c.toNat - 1) = r + c.toNat by omega, show n - r - 1 - (c.toNat - 1) = n - (r + c.toNat) by omega]
        generalize hrun : m.readBytes src (r + 1) (c.toNat - 1) = run
        have hlen : run.length = c.toNat - 1 := by rw [← hrun]; simp
        by_cases hsep : c.toNat ≠ 0xFF ∧ r + c.toNat ≠ n
        · rw [if_pos hsep, if_pos (by omega), ih _ _ _ hcn (h.imp_right (by omega)), ← hlen,
            ← Memory.writeBytes_singleton, ← Memory.writeBytes_append]
          rw [Memory.readBytes_writeBytes_other _ _ (h.imp_right fun _ => .inr (by simp; omega)),
            Memory.writeBytes_append (xs := run ++ [delimiter])]
          simp only [List.length_append, hlen, List.length_singleton, show c.toNat - 1 + 1 = c.toNat by omega]
          congr 1
          omega
        · rw [if_neg hsep, if_neg (by omega), ih _ _ _ hcn (h.imp_right (by omega))]
          rw [Memory.readBytes_writeBytes_other _ _ (h.imp_right fun _ => .inr (by omega)), List.append_nil,
            Memory.writeBytes_append, List.length_append, hlen]
          congr 1
          omega
    · have hn : n - r = 0 := by omega
      simp [hlt, hn, unstuff]

/-- CobsDecode un-stuffs the `n` bytes of its source and writes what it decoded at the destination's start, in place or not
(R105, R108, R109). -/
theorem cobsDecode_eq (src dst : Region) (n : Nat) (m : Memory) :
    cobsDecode src dst n m =
      { ok := (unstuff n (m.readBytes src 0 n)).1,
        size := (unstuff n (m.readBytes src 0 n)).2.length,
        mem := m.writeBytes dst 0 (unstuff n (m.readBytes src 0 n)).2 } := by
  simpa [cobsDecode] using cobsDecodeFrom_eq src dst n n 0 0 m (Nat.zero_le n) (.inr (Nat.le_refl 0))

/-- Un-stuffing gives fewer bytes than it reads (R107). -/
theorem unstuff_length_lt (fuel : Nat) (e : List Byte) : (unstuff fuel e).2.length ≤ e.length - 1 := by
  induction fuel generalizing e with
  | zero => simp [unstuff]
  | succ fuel ih =>
    cases e with
    | nil => simp [unstuff]
    | cons c rest =>
      simp only [unstuff]
      split
      · simp
      · rename_i hbad
        have hle : c.toNat ≤ rest.length + 1 := by
          by_contra h0
          exact hbad (.inr (by omega))
        have hc0 : c.toNat ≠ 0 := fun h0 => hbad (.inl (BitVec.eq_of_toNat_eq (by simpa using h0)))
        have hq := ih (rest.drop (c.toNat - 1))
        simp only [List.length_drop] at hq
        simp only [List.length_append, List.length_take, List.length_cons]
        split
        · simp; omega
        · simp; omega

/-! ### Bounds of the codec functions -/

theorem cobsDecode_size_lt (src dst : Region) (n : Nat) (m : Memory) : (cobsDecode src dst n m).size ≤ n - 1 := by
  rw [cobsDecode_eq]
  simpa using unstuff_length_lt n (m.readBytes src 0 n)

theorem cobsDecode_wf (src dst : Region) (n : Nat) {m : Memory} (h : m.wf = true) : (cobsDecode src dst n m).mem.wf = true := by
  rw [cobsDecode_eq]
  exact Memory.wf_writeBytes _ _ _ h

theorem cobsDecode_within (src : Region) {dst : Region} {n : Nat} {m : Memory} {c : Config} (hn : n ≤ dst.capacity c)
    (h : m.within c = true) : (cobsDecode src dst n m).mem.within c = true := by
  have := unstuff_length_lt n (m.readBytes src 0 n)
  rw [cobsDecode_eq]
  exact Memory.within_writeBytes _ (by simp at this ⊢; omega) h

/-- MessageDecodeValidate leaves the memory of its in-place decode, whatever it answers (R172, R176). -/
@[simp] theorem messageDecodeValidate_mem (c : Config) (b : Region) (size : Nat) (m : Memory) :
    (messageDecodeValidate c b size m).mem = (cobsDecode b b size m).mem := by
  unfold messageDecodeValidate
  dsimp only
  split
  · rfl
  · split <;> rfl

@[simp] theorem messageDecodeValidate_size (c : Config) (b : Region) (size : Nat) (m : Memory) :
    (messageDecodeValidate c b size m).size = (cobsDecode b b size m).decodedSize := by
  unfold messageDecodeValidate
  dsimp only
  split
  · rfl
  · split <;> rfl

/-- A decoded message is valid exactly when un-stuffing succeeded, at least MSG_MIN bytes came out and the stored check is the
computed one (43_message_codec.md R172). -/
theorem messageDecodeValidate_why_eq_none (c : Config) (b : Region) (size : Nat) (m : Memory) :
    let d := cobsDecode b b size m
    let check := keyedCheck c (d.mem.readBytes b headerOffset (d.size - headerOffset))
    (messageDecodeValidate c b size m).why = .none ↔
      d.ok = true ∧ 3 ≤ d.size ∧ d.mem.readByte b crc0Offset = checkLow check ∧ d.mem.readByte b crc1Offset = checkHigh check := by
  simp only [messageDecodeValidate]
  generalize cobsDecode b b size m = d
  cases hok : d.ok
  · simp [Decoded.decodedSize, hok, Config.msgMin]
  · simp only [Decoded.decodedSize, hok, if_true, Config.msgMin]
    by_cases h3 : d.size < 3
    · simp [h3, Nat.not_le.2 h3]
    · simp only [h3, if_false]
      split <;> simp_all

/-- The frame that MessageEncode stuffs: the check, then the content from Header on (R134, R171). -/
theorem insertCheck_readBytes (c : Config) (b : Region) (n : Nat) (m : Memory) (hn : 3 ≤ n) :
    (insertCheck c b n m).readBytes b 0 n = frameOf c (m.readBytes b 2 (n - 2)) := by
  obtain ⟨k, rfl⟩ : ∃ k, n = k + 2 := ⟨n - 2, by omega⟩
  rw [Memory.readBytes_succ, Memory.readBytes_succ]
  simp only [insertCheck, headerOffset, crc0Offset, crc1Offset, frameOf, Nat.add_sub_cancel, Nat.zero_add, Nat.reduceAdd]
  rw [Memory.readByte_writeByte_other _ _ (.inr (by omega)), Memory.readByte_writeByte_same,
    Memory.readByte_writeByte_same]
  congr 2
  refine Memory.readBytes_congr fun j _ => ?_
  rw [Memory.readByte_writeByte_other _ _ (.inr (by omega)), Memory.readByte_writeByte_other _ _ (.inr (by omega))]

/-- MessageEncode is the check inserted, the frame copied to SCRATCH, and its stuffing written back (R171). -/
theorem messageEncode_eq (c : Config) (b : Region) (n : Nat) (m : Memory) (hn : 3 ≤ n) :
    messageEncode c b n m =
      ((insertCheck c b n m).writeBytes .scratch 0 (frameOf c (m.readBytes b 2 (n - 2)))).writeBytes b 0
        (cobsEncode (frameOf c (m.readBytes b 2 (n - 2)))) := by
  have hl : (frameOf c (m.readBytes b 2 (n - 2))).length = n := by
    rw [← insertCheck_readBytes c b n m hn]; simp
  unfold messageEncode
  dsimp only
  rw [insertCheck_readBytes c b n m hn]
  congr 2
  have := Memory.readBytes_writeBytes (insertCheck c b n m) .scratch 0 (frameOf c (m.readBytes b 2 (n - 2)))
  rwa [hl] at this

theorem frameOf_length (c : Config) (content : List Byte) : (frameOf c content).length = content.length + 2 := rfl

/-- MessageEncode keeps the canonical form. -/
theorem messageEncode_wf (c : Config) (b : Region) (n : Nat) {m : Memory} (h : m.wf = true) :
    (messageEncode c b n m).wf = true :=
  Memory.wf_writeBytes _ _ _ (Memory.wf_writeBytes _ _ _ (Memory.wf_writeByte _ _ _ (Memory.wf_writeByte _ _ _ h)))

/-- MessageEncode of a legal size stays inside the buffer and SCRATCH. -/
theorem messageEncode_within {c : Config} {b : Region} {n : Nat} {m : Memory} (hc : c.msm ≤ 253) (hb : b ≠ .scratch)
    (hn : 3 ≤ n) (hm : n ≤ c.msm) (h : m.within c = true) : (messageEncode c b n m).within c = true := by
  have hcap : b.capacity c = c.msm + 1 := by cases b <;> first | rfl | exact absurd rfl hb
  have hl : (frameOf c (m.readBytes b 2 (n - 2))).length = n := by simp [frameOf_length]; omega
  rw [messageEncode_eq c b n m hn]
  refine Memory.within_writeBytes _ ?_ (Memory.within_writeBytes _ ?_ ?_)
  · rw [cobsEncode_length (by omega), hl, hcap]; omega
  · rw [hl]; simpa [Region.capacity] using hm
  · refine Memory.within_writeByte _ ?_ (Memory.within_writeByte _ ?_ h)
    · rw [hcap]; simp [crc1Offset]; omega
    · rw [hcap]; simp [crc0Offset]

/-! ### The Fletcher sums -/

/-- Both sums stay below 255 (R136 a). -/
theorem fletcherSums_lt (x : List Byte) : (fletcherSums x).1 < 255 ∧ (fletcherSums x).2 < 255 := by
  have : ∀ (y : List Byte) (s : Nat × Nat), s.1 < 255 ∧ s.2 < 255 →
      (y.foldl fletcherPush s).1 < 255 ∧ (y.foldl fletcherPush s).2 < 255 := by
    intro y
    induction y with
    | nil => exact fun s h => h
    | cons a y ih =>
      exact fun s _ => ih _ ⟨Nat.mod_lt _ (by omega), Nat.mod_lt _ (by omega)⟩
  exact this x (0, 0) ⟨by decide, by decide⟩

/-- The sums of a concatenation go on from the sums of its first part. -/
theorem fletcherSums_append (x y : List Byte) : fletcherSums (x ++ y) = y.foldl fletcherPush (fletcherSums x) := by
  simp [fletcherSums]

/-- Fletcher16 holds both sums. -/
theorem fletcher16_toNat (x : List Byte) : (fletcher16 x).toNat = (fletcherSums x).2 * 256 + (fletcherSums x).1 := by
  have := fletcherSums_lt x
  simp [fletcher16]
  omega

end Sys2Proof.Machine
end

