-- ==== Sys2Proof/Laws/Decode.lean ====
section
/-! SUPPORT. The fields of a command word that `commandWord` builds, and what the decoder makes of it. -/

namespace Sys2Proof

theorem BufId.field_lt (b : BufId) : b.field < 4 := by cases b <;> decide

@[simp] theorem BufId.ofField_field (b : BufId) : BufId.ofField b.field = b := by cases b <;> rfl

/-- Each field of a built command word reads back, and its reserved bits are 0 (30_encoding.md R81). -/
theorem bits_commandWord {opc ba bb n v : Nat} (h1 : opc < 256) (h2 : ba < 4) (h3 : bb < 4) (h4 : n < 256) (h5 : v < 256) :
    bits (commandWord opc ba bb n v) 15 12 = 0 ∧ bits (commandWord opc ba bb n v) 7 0 = opc
    ∧ bits (commandWord opc ba bb n v) 9 8 = ba ∧ bits (commandWord opc ba bb n v) 11 10 = bb
    ∧ bits (commandWord opc ba bb n v) 23 16 = n ∧ bits (commandWord opc ba bb n v) 31 24 = v := by
  simp [bits, commandWord]
  omega

/-- Decoding a built command word is choosing by its opcode among its fields. -/
theorem decode_commandWord {opc ba bb n v : Nat} {i : Instr} (h1 : opc < 256) (h2 : ba < 4) (h3 : bb < 4) (h4 : n < 256)
    (h5 : v < 256) (h : decodeOpcode opc ba bb n v = some i) : decode (commandWord opc ba bb n v) = .ok i := by
  obtain ⟨a1, a2, a3, a4, a5, a6⟩ := bits_commandWord h1 h2 h3 h4 h5
  simp [decode, a1, a2, a3, a4, a5, a6, h]

end Sys2Proof
end

