-- ==== Sys2Proof/Laws/Ops.lean ====
section
/-! SUPPORT. What each shared operation over the transport edge and each update can do: the fields it changes, and that it
changes no other. -/

namespace Sys2Proof.Machine

/-! ### Draws: each touches its own answer list and the counter of free values -/

@[simp] theorem Link.sampleNow_connectedIn (l : Link) : l.sampleNow.2.connectedIn = l.connectedIn := by unfold Link.sampleNow; split <;> rfl
@[simp] theorem Link.sampleNow_headroomIn (l : Link) : l.sampleNow.2.headroomIn = l.headroomIn := by unfold Link.sampleNow; split <;> rfl
@[simp] theorem Link.sampleNow_acceptIn (l : Link) : l.sampleNow.2.acceptIn = l.acceptIn := by unfold Link.sampleNow; split <;> rfl
@[simp] theorem Link.sampleNow_availableIn (l : Link) : l.sampleNow.2.availableIn = l.availableIn := by unfold Link.sampleNow; split <;> rfl
@[simp] theorem Link.sampleNow_byteIn (l : Link) : l.sampleNow.2.byteIn = l.byteIn := by unfold Link.sampleNow; split <;> rfl
@[simp] theorem Link.sampleNow_calls (l : Link) : l.sampleNow.2.calls = l.calls := by unfold Link.sampleNow; split <;> rfl
@[simp] theorem Link.sampleNow_outbound (l : Link) : l.sampleNow.2.outbound = l.outbound := by unfold Link.sampleNow; split <;> rfl
@[simp] theorem Link.sampleNow_inbound (l : Link) : l.sampleNow.2.inbound = l.inbound := by unfold Link.sampleNow; split <;> rfl
theorem Link.sampleNow_cons {l : Link} {x} {rest} (h : l.nowIn = x :: rest) :
    l.sampleNow = (x, { l with nowIn := rest }) := by simp [Link.sampleNow, h]

@[simp] theorem Link.drawConnected_nowIn (l : Link) : l.drawConnected.2.nowIn = l.nowIn := by unfold Link.drawConnected; split <;> rfl
@[simp] theorem Link.drawConnected_headroomIn (l : Link) : l.drawConnected.2.headroomIn = l.headroomIn := by unfold Link.drawConnected; split <;> rfl
@[simp] theorem Link.drawConnected_acceptIn (l : Link) : l.drawConnected.2.acceptIn = l.acceptIn := by unfold Link.drawConnected; split <;> rfl
@[simp] theorem Link.drawConnected_availableIn (l : Link) : l.drawConnected.2.availableIn = l.availableIn := by unfold Link.drawConnected; split <;> rfl
@[simp] theorem Link.drawConnected_byteIn (l : Link) : l.drawConnected.2.byteIn = l.byteIn := by unfold Link.drawConnected; split <;> rfl
@[simp] theorem Link.drawConnected_calls (l : Link) : l.drawConnected.2.calls = l.calls := by unfold Link.drawConnected; split <;> rfl
@[simp] theorem Link.drawConnected_outbound (l : Link) : l.drawConnected.2.outbound = l.outbound := by unfold Link.drawConnected; split <;> rfl
@[simp] theorem Link.drawConnected_inbound (l : Link) : l.drawConnected.2.inbound = l.inbound := by unfold Link.drawConnected; split <;> rfl
theorem Link.drawConnected_cons {l : Link} {x} {rest} (h : l.connectedIn = x :: rest) :
    l.drawConnected = (x, { l with connectedIn := rest }) := by simp [Link.drawConnected, h]

@[simp] theorem Link.drawHeadroom_nowIn (l : Link) : l.drawHeadroom.2.nowIn = l.nowIn := by unfold Link.drawHeadroom; split <;> rfl
@[simp] theorem Link.drawHeadroom_connectedIn (l : Link) : l.drawHeadroom.2.connectedIn = l.connectedIn := by unfold Link.drawHeadroom; split <;> rfl
@[simp] theorem Link.drawHeadroom_acceptIn (l : Link) : l.drawHeadroom.2.acceptIn = l.acceptIn := by unfold Link.drawHeadroom; split <;> rfl
@[simp] theorem Link.drawHeadroom_availableIn (l : Link) : l.drawHeadroom.2.availableIn = l.availableIn := by unfold Link.drawHeadroom; split <;> rfl
@[simp] theorem Link.drawHeadroom_byteIn (l : Link) : l.drawHeadroom.2.byteIn = l.byteIn := by unfold Link.drawHeadroom; split <;> rfl
@[simp] theorem Link.drawHeadroom_calls (l : Link) : l.drawHeadroom.2.calls = l.calls := by unfold Link.drawHeadroom; split <;> rfl
@[simp] theorem Link.drawHeadroom_outbound (l : Link) : l.drawHeadroom.2.outbound = l.outbound := by unfold Link.drawHeadroom; split <;> rfl
@[simp] theorem Link.drawHeadroom_inbound (l : Link) : l.drawHeadroom.2.inbound = l.inbound := by unfold Link.drawHeadroom; split <;> rfl
theorem Link.drawHeadroom_cons {l : Link} {x} {rest} (h : l.headroomIn = x :: rest) :
    l.drawHeadroom = (x, { l with headroomIn := rest }) := by simp [Link.drawHeadroom, h]

@[simp] theorem Link.drawAccept_nowIn (l : Link) : l.drawAccept.2.nowIn = l.nowIn := by unfold Link.drawAccept; split <;> rfl
@[simp] theorem Link.drawAccept_connectedIn (l : Link) : l.drawAccept.2.connectedIn = l.connectedIn := by unfold Link.drawAccept; split <;> rfl
@[simp] theorem Link.drawAccept_headroomIn (l : Link) : l.drawAccept.2.headroomIn = l.headroomIn := by unfold Link.drawAccept; split <;> rfl
@[simp] theorem Link.drawAccept_availableIn (l : Link) : l.drawAccept.2.availableIn = l.availableIn := by unfold Link.drawAccept; split <;> rfl
@[simp] theorem Link.drawAccept_byteIn (l : Link) : l.drawAccept.2.byteIn = l.byteIn := by unfold Link.drawAccept; split <;> rfl
@[simp] theorem Link.drawAccept_calls (l : Link) : l.drawAccept.2.calls = l.calls := by unfold Link.drawAccept; split <;> rfl
@[simp] theorem Link.drawAccept_outbound (l : Link) : l.drawAccept.2.outbound = l.outbound := by unfold Link.drawAccept; split <;> rfl
@[simp] theorem Link.drawAccept_inbound (l : Link) : l.drawAccept.2.inbound = l.inbound := by unfold Link.drawAccept; split <;> rfl
theorem Link.drawAccept_cons {l : Link} {x} {rest} (h : l.acceptIn = x :: rest) :
    l.drawAccept = (x, { l with acceptIn := rest }) := by simp [Link.drawAccept, h]

@[simp] theorem Link.drawAvailable_nowIn (l : Link) : l.drawAvailable.2.nowIn = l.nowIn := by unfold Link.drawAvailable; split <;> rfl
@[simp] theorem Link.drawAvailable_connectedIn (l : Link) : l.drawAvailable.2.connectedIn = l.connectedIn := by unfold Link.drawAvailable; split <;> rfl
@[simp] theorem Link.drawAvailable_headroomIn (l : Link) : l.drawAvailable.2.headroomIn = l.headroomIn := by unfold Link.drawAvailable; split <;> rfl
@[simp] theorem Link.drawAvailable_acceptIn (l : Link) : l.drawAvailable.2.acceptIn = l.acceptIn := by unfold Link.drawAvailable; split <;> rfl
@[simp] theorem Link.drawAvailable_byteIn (l : Link) : l.drawAvailable.2.byteIn = l.byteIn := by unfold Link.drawAvailable; split <;> rfl
@[simp] theorem Link.drawAvailable_calls (l : Link) : l.drawAvailable.2.calls = l.calls := by unfold Link.drawAvailable; split <;> rfl
@[simp] theorem Link.drawAvailable_outbound (l : Link) : l.drawAvailable.2.outbound = l.outbound := by unfold Link.drawAvailable; split <;> rfl
@[simp] theorem Link.drawAvailable_inbound (l : Link) : l.drawAvailable.2.inbound = l.inbound := by unfold Link.drawAvailable; split <;> rfl
theorem Link.drawAvailable_cons {l : Link} {x} {rest} (h : l.availableIn = x :: rest) :
    l.drawAvailable = (x, { l with availableIn := rest }) := by simp [Link.drawAvailable, h]

@[simp] theorem Link.drawByte_nowIn (l : Link) : l.drawByte.2.nowIn = l.nowIn := by unfold Link.drawByte; split <;> rfl
@[simp] theorem Link.drawByte_connectedIn (l : Link) : l.drawByte.2.connectedIn = l.connectedIn := by unfold Link.drawByte; split <;> rfl
@[simp] theorem Link.drawByte_headroomIn (l : Link) : l.drawByte.2.headroomIn = l.headroomIn := by unfold Link.drawByte; split <;> rfl
@[simp] theorem Link.drawByte_acceptIn (l : Link) : l.drawByte.2.acceptIn = l.acceptIn := by unfold Link.drawByte; split <;> rfl
@[simp] theorem Link.drawByte_availableIn (l : Link) : l.drawByte.2.availableIn = l.availableIn := by unfold Link.drawByte; split <;> rfl
@[simp] theorem Link.drawByte_calls (l : Link) : l.drawByte.2.calls = l.calls := by unfold Link.drawByte; split <;> rfl
@[simp] theorem Link.drawByte_outbound (l : Link) : l.drawByte.2.outbound = l.outbound := by unfold Link.drawByte; split <;> rfl
@[simp] theorem Link.drawByte_inbound (l : Link) : l.drawByte.2.inbound = l.inbound := by unfold Link.drawByte; split <;> rfl
theorem Link.drawByte_cons {l : Link} {x} {rest} (h : l.byteIn = x :: rest) :
    l.drawByte = (x, { l with byteIn := rest }) := by simp [Link.drawByte, h]

/-! ### The call list of a new command -/

@[simp] theorem Link.forgetCalls_nowIn (l : Link) : l.forgetCalls.nowIn = l.nowIn := rfl
@[simp] theorem Link.forgetCalls_connectedIn (l : Link) : l.forgetCalls.connectedIn = l.connectedIn := rfl
@[simp] theorem Link.forgetCalls_headroomIn (l : Link) : l.forgetCalls.headroomIn = l.headroomIn := rfl
@[simp] theorem Link.forgetCalls_acceptIn (l : Link) : l.forgetCalls.acceptIn = l.acceptIn := rfl
@[simp] theorem Link.forgetCalls_availableIn (l : Link) : l.forgetCalls.availableIn = l.availableIn := rfl
@[simp] theorem Link.forgetCalls_byteIn (l : Link) : l.forgetCalls.byteIn = l.byteIn := rfl
@[simp] theorem Link.forgetCalls_drawn (l : Link) : l.forgetCalls.drawn = l.drawn := rfl
@[simp] theorem Link.forgetCalls_outbound (l : Link) : l.forgetCalls.outbound = l.outbound := rfl
@[simp] theorem Link.forgetCalls_inbound (l : Link) : l.forgetCalls.inbound = l.inbound := rfl
@[simp] theorem Link.forgetCalls_calls (l : Link) : l.forgetCalls.calls = [] := rfl

/-! ### Calls: each draws, records itself, and write and read move bytes -/

@[simp] theorem Link.connected_nowIn (l : Link) : l.connected.2.nowIn = l.nowIn := by
  simp [Link.connected, Link.record]
@[simp] theorem Link.connected_headroomIn (l : Link) : l.connected.2.headroomIn = l.headroomIn := by
  simp [Link.connected, Link.record]
@[simp] theorem Link.connected_acceptIn (l : Link) : l.connected.2.acceptIn = l.acceptIn := by
  simp [Link.connected, Link.record]
@[simp] theorem Link.connected_availableIn (l : Link) : l.connected.2.availableIn = l.availableIn := by
  simp [Link.connected, Link.record]
@[simp] theorem Link.connected_byteIn (l : Link) : l.connected.2.byteIn = l.byteIn := by
  simp [Link.connected, Link.record]
@[simp] theorem Link.connected_outbound (l : Link) : l.connected.2.outbound = l.outbound := by
  simp [Link.connected, Link.record]
@[simp] theorem Link.connected_inbound (l : Link) : l.connected.2.inbound = l.inbound := by
  simp [Link.connected, Link.record]
@[simp] theorem Link.connected_calls (l : Link) : l.connected.2.calls = l.calls ++ [.connected l.connected.1] := by
  simp [Link.connected, Link.record]

@[simp] theorem Link.availableForWrite_nowIn (l : Link) : l.availableForWrite.2.nowIn = l.nowIn := by
  simp [Link.availableForWrite, Link.record]
@[simp] theorem Link.availableForWrite_connectedIn (l : Link) : l.availableForWrite.2.connectedIn = l.connectedIn := by
  simp [Link.availableForWrite, Link.record]
@[simp] theorem Link.availableForWrite_acceptIn (l : Link) : l.availableForWrite.2.acceptIn = l.acceptIn := by
  simp [Link.availableForWrite, Link.record]
@[simp] theorem Link.availableForWrite_availableIn (l : Link) : l.availableForWrite.2.availableIn = l.availableIn := by
  simp [Link.availableForWrite, Link.record]
@[simp] theorem Link.availableForWrite_byteIn (l : Link) : l.availableForWrite.2.byteIn = l.byteIn := by
  simp [Link.availableForWrite, Link.record]
@[simp] theorem Link.availableForWrite_outbound (l : Link) : l.availableForWrite.2.outbound = l.outbound := by
  simp [Link.availableForWrite, Link.record]
@[simp] theorem Link.availableForWrite_inbound (l : Link) : l.availableForWrite.2.inbound = l.inbound := by
  simp [Link.availableForWrite, Link.record]
@[simp] theorem Link.availableForWrite_calls (l : Link) : l.availableForWrite.2.calls = l.calls ++ [.availableForWrite l.availableForWrite.1] := by
  simp [Link.availableForWrite, Link.record]

@[simp] theorem Link.available_nowIn (l : Link) : l.available.2.nowIn = l.nowIn := by
  simp [Link.available, Link.record]
@[simp] theorem Link.available_connectedIn (l : Link) : l.available.2.connectedIn = l.connectedIn := by
  simp [Link.available, Link.record]
@[simp] theorem Link.available_headroomIn (l : Link) : l.available.2.headroomIn = l.headroomIn := by
  simp [Link.available, Link.record]
@[simp] theorem Link.available_acceptIn (l : Link) : l.available.2.acceptIn = l.acceptIn := by
  simp [Link.available, Link.record]
@[simp] theorem Link.available_byteIn (l : Link) : l.available.2.byteIn = l.byteIn := by
  simp [Link.available, Link.record]
@[simp] theorem Link.available_outbound (l : Link) : l.available.2.outbound = l.outbound := by
  simp [Link.available, Link.record]
@[simp] theorem Link.available_inbound (l : Link) : l.available.2.inbound = l.inbound := by
  simp [Link.available, Link.record]
@[simp] theorem Link.available_calls (l : Link) : l.available.2.calls = l.calls ++ [.available l.available.1] := by
  simp [Link.available, Link.record]

@[simp] theorem Link.read_nowIn (l : Link) : l.read.2.nowIn = l.nowIn := by
  simp [Link.read, Link.record, Link.receive]
@[simp] theorem Link.read_connectedIn (l : Link) : l.read.2.connectedIn = l.connectedIn := by
  simp [Link.read, Link.record, Link.receive]
@[simp] theorem Link.read_headroomIn (l : Link) : l.read.2.headroomIn = l.headroomIn := by
  simp [Link.read, Link.record, Link.receive]
@[simp] theorem Link.read_acceptIn (l : Link) : l.read.2.acceptIn = l.acceptIn := by
  simp [Link.read, Link.record, Link.receive]
@[simp] theorem Link.read_availableIn (l : Link) : l.read.2.availableIn = l.availableIn := by
  simp [Link.read, Link.record, Link.receive]
@[simp] theorem Link.read_outbound (l : Link) : l.read.2.outbound = l.outbound := by
  simp [Link.read, Link.record, Link.receive]
@[simp] theorem Link.read_calls (l : Link) : l.read.2.calls = l.calls ++ [.read l.read.1] := by
  simp [Link.read, Link.record, Link.receive]

@[simp] theorem Link.read_inbound (l : Link) : l.read.2.inbound = l.inbound ++ [l.read.1] := by
  simp [Link.read, Link.record, Link.receive]

@[simp] theorem Link.write_nowIn (l : Link) (xs : List Byte) : (l.write xs).2.nowIn = l.nowIn := by
  simp [Link.write, Link.record, Link.transmit]
@[simp] theorem Link.write_connectedIn (l : Link) (xs : List Byte) : (l.write xs).2.connectedIn = l.connectedIn := by
  simp [Link.write, Link.record, Link.transmit]
@[simp] theorem Link.write_headroomIn (l : Link) (xs : List Byte) : (l.write xs).2.headroomIn = l.headroomIn := by
  simp [Link.write, Link.record, Link.transmit]
@[simp] theorem Link.write_availableIn (l : Link) (xs : List Byte) : (l.write xs).2.availableIn = l.availableIn := by
  simp [Link.write, Link.record, Link.transmit]
@[simp] theorem Link.write_byteIn (l : Link) (xs : List Byte) : (l.write xs).2.byteIn = l.byteIn := by
  simp [Link.write, Link.record, Link.transmit]
@[simp] theorem Link.write_inbound (l : Link) (xs : List Byte) : (l.write xs).2.inbound = l.inbound := by
  simp [Link.write, Link.record, Link.transmit]
@[simp] theorem Link.write_calls (l : Link) (xs : List Byte) :
    (l.write xs).2.calls = l.calls ++ [.write xs (l.write xs).1] := by
  simp [Link.write, Link.record, Link.transmit]
@[simp] theorem Link.write_outbound (l : Link) (xs : List Byte) :
    (l.write xs).2.outbound = l.outbound ++ xs.take (l.write xs).1 := by
  simp [Link.write, Link.record, Link.transmit]
theorem Link.write_accepted_le (l : Link) (xs : List Byte) : (l.write xs).1 ≤ xs.length := by
  simp [Link.write, Link.acceptedCount]

/-- An offered single byte is accepted whole or not at all. -/
theorem Link.write_singleton (l : Link) (x : Byte) : (l.write [x]).1 = 0 ∨ (l.write [x]).1 = 1 := by
  have := l.write_accepted_le [x]
  simp at this
  omega
/-! ### The state's calls change only the edge -/

@[simp] theorem State.sampleNow_eq (s : State) : s.sampleNow = (s.link.sampleNow.1, s.withLink s.link.sampleNow.2) := rfl
@[simp] theorem State.callConnected_eq (s : State) : s.callConnected = (s.link.connected.1, s.withLink s.link.connected.2) := rfl
@[simp] theorem State.callAvailableForWrite_eq (s : State) :
    s.callAvailableForWrite = (s.link.availableForWrite.1, s.withLink s.link.availableForWrite.2) := rfl
@[simp] theorem State.callWrite_eq (s : State) (xs : List Byte) :
    s.callWrite xs = ((s.link.write xs).1, s.withLink (s.link.write xs).2) := rfl
@[simp] theorem State.callAvailable_eq (s : State) : s.callAvailable = (s.link.available.1, s.withLink s.link.available.2) := rfl
@[simp] theorem State.callRead_eq (s : State) : s.callRead = (s.link.read.1, s.withLink s.link.read.2) := rfl

/-! ### Ownership reads two registers -/

theorem State.owned_congr {s t : State} (h1 : s.txState = t.txState) (h2 : s.rxLife = t.rxLife) (b : Region) :
    s.owned b = t.owned b := by cases b <;> simp [State.owned, h1, h2]

@[simp] theorem State.owned_beginCommand (s : State) (b : Region) : s.beginCommand.owned b = s.owned b := by
  cases b <;> rfl

/-- A store that a buffer id names is no SCRATCH. -/
theorem regionOf_ne_scratch {buf : BufId} {b : Region} (h : regionOf buf = some b) : b ≠ .scratch := by
  cases buf <;> simp [regionOf] at h <;> subst h <;> decide

/-- A store that a buffer id names has capacity BUF_CAP. -/
theorem regionOf_capacity {buf : BufId} {b : Region} (h : regionOf buf = some b) (c : Config) : b.capacity c = c.bufCap := by
  cases buf <;> simp [regionOf] at h <;> subst h <;> rfl

@[simp] theorem regionOf_reserved : regionOf .reserved = none := rfl

theorem regionOf_eq_none {buf : BufId} (h : regionOf buf = none) : buf = .reserved := by
  cases buf <;> simp [regionOf] at h ⊢

theorem regionOf_inj {src dst : BufId} {a : Region} (h1 : regionOf src = some a) (h2 : regionOf dst = some a) : src = dst := by
  cases src <;> cases dst <;> simp [regionOf] at h1 h2 ⊢ <;> exact absurd (h1.trans h2.symm) (by decide)

/-- KeyValid is having a key byte. -/
theorem Config.keyValid_iff (c : Config) : c.keyValid = true ↔ c.key ≠ [] := by
  simp [Config.keyValid, Config.keyLen, Nat.one_le_iff_ne_zero]

end Sys2Proof.Machine
end

