-- ==== Sys2Proof/Laws/Machines.lean ====
section
/-! SUPPORT. What the steps of the two machines can do: the fields each leaves alone, and how the read loop of an RX_STEP
carries a property along. -/

namespace Sys2Proof.Machine

/-! ### The Transmitter's step changes no receiver register and no buffer -/

@[simp] theorem txStepAt_cfg (now : Word) (s : State) : (txStepAt now s).cfg = s.cfg := by
  simp only [txStepAt, txLinked, txWork, txStartDelimiter, txData, txWriteChunk, txEndDelimiter]
  repeat' split
  all_goals simp
@[simp] theorem txStepAt_txSize (now : Word) (s : State) : (txStepAt now s).txSize = s.txSize := by
  simp only [txStepAt, txLinked, txWork, txStartDelimiter, txData, txWriteChunk, txEndDelimiter]
  repeat' split
  all_goals simp
@[simp] theorem txStepAt_txStartTime (now : Word) (s : State) : (txStepAt now s).txStartTime = s.txStartTime := by
  simp only [txStepAt, txLinked, txWork, txStartDelimiter, txData, txWriteChunk, txEndDelimiter]
  repeat' split
  all_goals simp
@[simp] theorem txStepAt_rxLife (now : Word) (s : State) : (txStepAt now s).rxLife = s.rxLife := by
  simp only [txStepAt, txLinked, txWork, txStartDelimiter, txData, txWriteChunk, txEndDelimiter]
  repeat' split
  all_goals simp
@[simp] theorem txStepAt_rxAcc (now : Word) (s : State) : (txStepAt now s).rxAcc = s.rxAcc := by
  simp only [txStepAt, txLinked, txWork, txStartDelimiter, txData, txWriteChunk, txEndDelimiter]
  repeat' split
  all_goals simp
@[simp] theorem txStepAt_rxSize (now : Word) (s : State) : (txStepAt now s).rxSize = s.rxSize := by
  simp only [txStepAt, txLinked, txWork, txStartDelimiter, txData, txWriteChunk, txEndDelimiter]
  repeat' split
  all_goals simp
@[simp] theorem txStepAt_rxLastTime (now : Word) (s : State) : (txStepAt now s).rxLastTime = s.rxLastTime := by
  simp only [txStepAt, txLinked, txWork, txStartDelimiter, txData, txWriteChunk, txEndDelimiter]
  repeat' split
  all_goals simp
@[simp] theorem txStepAt_rxPollTime (now : Word) (s : State) : (txStepAt now s).rxPollTime = s.rxPollTime := by
  simp only [txStepAt, txLinked, txWork, txStartDelimiter, txData, txWriteChunk, txEndDelimiter]
  repeat' split
  all_goals simp
@[simp] theorem txStepAt_rxActive (now : Word) (s : State) : (txStepAt now s).rxActive = s.rxActive := by
  simp only [txStepAt, txLinked, txWork, txStartDelimiter, txData, txWriteChunk, txEndDelimiter]
  repeat' split
  all_goals simp
@[simp] theorem txStepAt_mem (now : Word) (s : State) : (txStepAt now s).mem = s.mem := by
  simp only [txStepAt, txLinked, txWork, txStartDelimiter, txData, txWriteChunk, txEndDelimiter]
  repeat' split
  all_goals simp
@[simp] theorem txStepAt_pending (now : Word) (s : State) : (txStepAt now s).pending = s.pending := by
  simp only [txStepAt, txLinked, txWork, txStartDelimiter, txData, txWriteChunk, txEndDelimiter]
  repeat' split
  all_goals simp
/-! ### Reporting the link down only emits -/

@[simp] theorem State.reportLinkDown_cfg (s : State) : s.reportLinkDown.cfg = s.cfg := by
  unfold State.reportLinkDown
  split <;> simp
@[simp] theorem State.reportLinkDown_status (s : State) : s.reportLinkDown.status = s.status := by
  unfold State.reportLinkDown
  split <;> simp
@[simp] theorem State.reportLinkDown_result (s : State) : s.reportLinkDown.result = s.result := by
  unfold State.reportLinkDown
  split <;> simp
@[simp] theorem State.reportLinkDown_txState (s : State) : s.reportLinkDown.txState = s.txState := by
  unfold State.reportLinkDown
  split <;> simp
@[simp] theorem State.reportLinkDown_txSize (s : State) : s.reportLinkDown.txSize = s.txSize := by
  unfold State.reportLinkDown
  split <;> simp
@[simp] theorem State.reportLinkDown_txSent (s : State) : s.reportLinkDown.txSent = s.txSent := by
  unfold State.reportLinkDown
  split <;> simp
@[simp] theorem State.reportLinkDown_txStartTime (s : State) : s.reportLinkDown.txStartTime = s.txStartTime := by
  unfold State.reportLinkDown
  split <;> simp
@[simp] theorem State.reportLinkDown_rxLife (s : State) : s.reportLinkDown.rxLife = s.rxLife := by
  unfold State.reportLinkDown
  split <;> simp
@[simp] theorem State.reportLinkDown_rxAcc (s : State) : s.reportLinkDown.rxAcc = s.rxAcc := by
  unfold State.reportLinkDown
  split <;> simp
@[simp] theorem State.reportLinkDown_rxSize (s : State) : s.reportLinkDown.rxSize = s.rxSize := by
  unfold State.reportLinkDown
  split <;> simp
@[simp] theorem State.reportLinkDown_rxLastTime (s : State) : s.reportLinkDown.rxLastTime = s.rxLastTime := by
  unfold State.reportLinkDown
  split <;> simp
@[simp] theorem State.reportLinkDown_rxPollTime (s : State) : s.reportLinkDown.rxPollTime = s.rxPollTime := by
  unfold State.reportLinkDown
  split <;> simp
@[simp] theorem State.reportLinkDown_rxActive (s : State) : s.reportLinkDown.rxActive = s.rxActive := by
  unfold State.reportLinkDown
  split <;> simp
@[simp] theorem State.reportLinkDown_mem (s : State) : s.reportLinkDown.mem = s.mem := by
  unfold State.reportLinkDown
  split <;> simp
@[simp] theorem State.reportLinkDown_link (s : State) : s.reportLinkDown.link = s.link := by
  unfold State.reportLinkDown
  split <;> simp
@[simp] theorem State.reportLinkDown_pending (s : State) : s.reportLinkDown.pending = s.pending := by
  unfold State.reportLinkDown
  split <;> simp

theorem State.reportLinkDown_events (s : State) :
    s.reportLinkDown.events = s.events ++ if s.rxLife = .polling ∨ s.rxLife = .accumulating then [0x01#32] else [] := by
  unfold State.reportLinkDown
  split
  · simp [State.emit]
    rfl
  · simp


/-! ### The Receiver's step changes no transmitter register -/

@[simp] theorem processByte_cfg (x : Byte) (s : State) : (processByte x s).2.cfg = s.cfg := by
  simp only [processByte, processWaitingForStart, processWaitingForData, processTooShort, processAppend, State.withAccumulator]
  repeat' split
  all_goals simp
@[simp] theorem processByte_status (x : Byte) (s : State) : (processByte x s).2.status = s.status := by
  simp only [processByte, processWaitingForStart, processWaitingForData, processTooShort, processAppend, State.withAccumulator]
  repeat' split
  all_goals simp
@[simp] theorem processByte_result (x : Byte) (s : State) : (processByte x s).2.result = s.result := by
  simp only [processByte, processWaitingForStart, processWaitingForData, processTooShort, processAppend, State.withAccumulator]
  repeat' split
  all_goals simp
@[simp] theorem processByte_txState (x : Byte) (s : State) : (processByte x s).2.txState = s.txState := by
  simp only [processByte, processWaitingForStart, processWaitingForData, processTooShort, processAppend, State.withAccumulator]
  repeat' split
  all_goals simp
@[simp] theorem processByte_txSize (x : Byte) (s : State) : (processByte x s).2.txSize = s.txSize := by
  simp only [processByte, processWaitingForStart, processWaitingForData, processTooShort, processAppend, State.withAccumulator]
  repeat' split
  all_goals simp
@[simp] theorem processByte_txSent (x : Byte) (s : State) : (processByte x s).2.txSent = s.txSent := by
  simp only [processByte, processWaitingForStart, processWaitingForData, processTooShort, processAppend, State.withAccumulator]
  repeat' split
  all_goals simp
@[simp] theorem processByte_txStartTime (x : Byte) (s : State) : (processByte x s).2.txStartTime = s.txStartTime := by
  simp only [processByte, processWaitingForStart, processWaitingForData, processTooShort, processAppend, State.withAccumulator]
  repeat' split
  all_goals simp
@[simp] theorem processByte_rxLife (x : Byte) (s : State) : (processByte x s).2.rxLife = s.rxLife := by
  simp only [processByte, processWaitingForStart, processWaitingForData, processTooShort, processAppend, State.withAccumulator]
  repeat' split
  all_goals simp
@[simp] theorem processByte_rxLastTime (x : Byte) (s : State) : (processByte x s).2.rxLastTime = s.rxLastTime := by
  simp only [processByte, processWaitingForStart, processWaitingForData, processTooShort, processAppend, State.withAccumulator]
  repeat' split
  all_goals simp
@[simp] theorem processByte_rxPollTime (x : Byte) (s : State) : (processByte x s).2.rxPollTime = s.rxPollTime := by
  simp only [processByte, processWaitingForStart, processWaitingForData, processTooShort, processAppend, State.withAccumulator]
  repeat' split
  all_goals simp
@[simp] theorem processByte_rxActive (x : Byte) (s : State) : (processByte x s).2.rxActive = s.rxActive := by
  simp only [processByte, processWaitingForStart, processWaitingForData, processTooShort, processAppend, State.withAccumulator]
  repeat' split
  all_goals simp
@[simp] theorem processByte_link (x : Byte) (s : State) : (processByte x s).2.link = s.link := by
  simp only [processByte, processWaitingForStart, processWaitingForData, processTooShort, processAppend, State.withAccumulator]
  repeat' split
  all_goals simp
@[simp] theorem processByte_pending (x : Byte) (s : State) : (processByte x s).2.pending = s.pending := by
  simp only [processByte, processWaitingForStart, processWaitingForData, processTooShort, processAppend, State.withAccumulator]
  repeat' split
  all_goals simp
@[simp] theorem rxLinkUp_cfg (s : State) : (rxLinkUp s).cfg = s.cfg := by
  unfold rxLinkUp
  split <;> simp
@[simp] theorem rxLinkUp_status (s : State) : (rxLinkUp s).status = s.status := by
  unfold rxLinkUp
  split <;> simp
@[simp] theorem rxLinkUp_result (s : State) : (rxLinkUp s).result = s.result := by
  unfold rxLinkUp
  split <;> simp
@[simp] theorem rxLinkUp_txState (s : State) : (rxLinkUp s).txState = s.txState := by
  unfold rxLinkUp
  split <;> simp
@[simp] theorem rxLinkUp_txSize (s : State) : (rxLinkUp s).txSize = s.txSize := by
  unfold rxLinkUp
  split <;> simp
@[simp] theorem rxLinkUp_txSent (s : State) : (rxLinkUp s).txSent = s.txSent := by
  unfold rxLinkUp
  split <;> simp
@[simp] theorem rxLinkUp_txStartTime (s : State) : (rxLinkUp s).txStartTime = s.txStartTime := by
  unfold rxLinkUp
  split <;> simp
@[simp] theorem rxLinkUp_rxAcc (s : State) : (rxLinkUp s).rxAcc = s.rxAcc := by
  unfold rxLinkUp
  split <;> simp
@[simp] theorem rxLinkUp_rxSize (s : State) : (rxLinkUp s).rxSize = s.rxSize := by
  unfold rxLinkUp
  split <;> simp
@[simp] theorem rxLinkUp_rxLastTime (s : State) : (rxLinkUp s).rxLastTime = s.rxLastTime := by
  unfold rxLinkUp
  split <;> simp
@[simp] theorem rxLinkUp_rxPollTime (s : State) : (rxLinkUp s).rxPollTime = s.rxPollTime := by
  unfold rxLinkUp
  split <;> simp
@[simp] theorem rxLinkUp_rxActive (s : State) : (rxLinkUp s).rxActive = s.rxActive := by
  unfold rxLinkUp
  split <;> simp
@[simp] theorem rxLinkUp_mem (s : State) : (rxLinkUp s).mem = s.mem := by
  unfold rxLinkUp
  split <;> simp
@[simp] theorem rxLinkUp_link (s : State) : (rxLinkUp s).link = s.link := by
  unfold rxLinkUp
  split <;> simp
@[simp] theorem rxLinkUp_pending (s : State) : (rxLinkUp s).pending = s.pending := by
  unfold rxLinkUp
  split <;> simp

/-- A property that a poll, a read and the processing of a byte keep, the read loop keeps (45_receiver.md R244, R248). -/
theorem rxReadLoop_induct {P : State → Prop} (now : Word)
    (havail : ∀ s, P s → P (s.withLink s.link.available.2))
    (hbyte : ∀ s, P s → P (processByte s.link.read.1 ((s.withLink s.link.read.2).withRxLastTime now)).2)
    (k : Nat) (s : State) (h : P s) : P (rxReadLoop now k s).state := by
  induction k generalizing s with
  | zero => exact h
  | succ k ih =>
    by_cases h0 : s.link.available.1 = 0
    · simpa [rxReadLoop, h0] using havail s h
    · have hb := hbyte _ (havail s h)
      cases hp : (processByte s.link.available.2.read.1
        (((s.withLink s.link.available.2).withLink s.link.available.2.read.2).withRxLastTime now)).1
      · simpa [rxReadLoop, h0, hp] using ih _ hb
      · simpa [rxReadLoop, h0, hp] using hb

@[simp] theorem rxReadLoop_cfg (now : Word) (k : Nat) (s : State) : (rxReadLoop now k s).state.cfg = s.cfg :=
  rxReadLoop_induct (P := fun t => t.cfg = s.cfg) now (by simp) (by simp) k s rfl
@[simp] theorem rxReadLoop_status (now : Word) (k : Nat) (s : State) : (rxReadLoop now k s).state.status = s.status :=
  rxReadLoop_induct (P := fun t => t.status = s.status) now (by simp) (by simp) k s rfl
@[simp] theorem rxReadLoop_result (now : Word) (k : Nat) (s : State) : (rxReadLoop now k s).state.result = s.result :=
  rxReadLoop_induct (P := fun t => t.result = s.result) now (by simp) (by simp) k s rfl
@[simp] theorem rxReadLoop_txState (now : Word) (k : Nat) (s : State) : (rxReadLoop now k s).state.txState = s.txState :=
  rxReadLoop_induct (P := fun t => t.txState = s.txState) now (by simp) (by simp) k s rfl
@[simp] theorem rxReadLoop_txSize (now : Word) (k : Nat) (s : State) : (rxReadLoop now k s).state.txSize = s.txSize :=
  rxReadLoop_induct (P := fun t => t.txSize = s.txSize) now (by simp) (by simp) k s rfl
@[simp] theorem rxReadLoop_txSent (now : Word) (k : Nat) (s : State) : (rxReadLoop now k s).state.txSent = s.txSent :=
  rxReadLoop_induct (P := fun t => t.txSent = s.txSent) now (by simp) (by simp) k s rfl
@[simp] theorem rxReadLoop_txStartTime (now : Word) (k : Nat) (s : State) : (rxReadLoop now k s).state.txStartTime = s.txStartTime :=
  rxReadLoop_induct (P := fun t => t.txStartTime = s.txStartTime) now (by simp) (by simp) k s rfl
@[simp] theorem rxReadLoop_rxLife (now : Word) (k : Nat) (s : State) : (rxReadLoop now k s).state.rxLife = s.rxLife :=
  rxReadLoop_induct (P := fun t => t.rxLife = s.rxLife) now (by simp) (by simp) k s rfl
@[simp] theorem rxReadLoop_rxPollTime (now : Word) (k : Nat) (s : State) : (rxReadLoop now k s).state.rxPollTime = s.rxPollTime :=
  rxReadLoop_induct (P := fun t => t.rxPollTime = s.rxPollTime) now (by simp) (by simp) k s rfl
@[simp] theorem rxReadLoop_rxActive (now : Word) (k : Nat) (s : State) : (rxReadLoop now k s).state.rxActive = s.rxActive :=
  rxReadLoop_induct (P := fun t => t.rxActive = s.rxActive) now (by simp) (by simp) k s rfl
@[simp] theorem rxReadLoop_pending (now : Word) (k : Nat) (s : State) : (rxReadLoop now k s).state.pending = s.pending :=
  rxReadLoop_induct (P := fun t => t.pending = s.pending) now (by simp) (by simp) k s rfl

@[simp] theorem rxDeliver_cfg (s : State) : (rxDeliver s).cfg = s.cfg := by
  simp only [rxDeliver, State.withAccumulator]
  simp
@[simp] theorem rxDeliver_status (s : State) : (rxDeliver s).status = s.status := by
  simp only [rxDeliver, State.withAccumulator]
  simp
@[simp] theorem rxDeliver_result (s : State) : (rxDeliver s).result = s.result := by
  simp only [rxDeliver, State.withAccumulator]
  simp
@[simp] theorem rxDeliver_txState (s : State) : (rxDeliver s).txState = s.txState := by
  simp only [rxDeliver, State.withAccumulator]
  simp
@[simp] theorem rxDeliver_txSize (s : State) : (rxDeliver s).txSize = s.txSize := by
  simp only [rxDeliver, State.withAccumulator]
  simp
@[simp] theorem rxDeliver_txSent (s : State) : (rxDeliver s).txSent = s.txSent := by
  simp only [rxDeliver, State.withAccumulator]
  simp
@[simp] theorem rxDeliver_txStartTime (s : State) : (rxDeliver s).txStartTime = s.txStartTime := by
  simp only [rxDeliver, State.withAccumulator]
  simp
@[simp] theorem rxDeliver_rxLife (s : State) : (rxDeliver s).rxLife = s.rxLife := by
  simp only [rxDeliver, State.withAccumulator]
  simp
@[simp] theorem rxDeliver_rxLastTime (s : State) : (rxDeliver s).rxLastTime = s.rxLastTime := by
  simp only [rxDeliver, State.withAccumulator]
  simp
@[simp] theorem rxDeliver_rxPollTime (s : State) : (rxDeliver s).rxPollTime = s.rxPollTime := by
  simp only [rxDeliver, State.withAccumulator]
  simp
@[simp] theorem rxDeliver_rxActive (s : State) : (rxDeliver s).rxActive = s.rxActive := by
  simp only [rxDeliver, State.withAccumulator]
  simp
@[simp] theorem rxDeliver_link (s : State) : (rxDeliver s).link = s.link := by
  simp only [rxDeliver, State.withAccumulator]
  simp
@[simp] theorem rxDeliver_pending (s : State) : (rxDeliver s).pending = s.pending := by
  simp only [rxDeliver, State.withAccumulator]
  simp
@[simp] theorem rxIdleCheck_cfg (now : Word) (n : Nat) (s : State) : (rxIdleCheck now n s).cfg = s.cfg := by
  simp only [rxIdleCheck, State.withAccumulator]
  repeat' split
  all_goals simp
@[simp] theorem rxIdleCheck_status (now : Word) (n : Nat) (s : State) : (rxIdleCheck now n s).status = s.status := by
  simp only [rxIdleCheck, State.withAccumulator]
  repeat' split
  all_goals simp
@[simp] theorem rxIdleCheck_result (now : Word) (n : Nat) (s : State) : (rxIdleCheck now n s).result = s.result := by
  simp only [rxIdleCheck, State.withAccumulator]
  repeat' split
  all_goals simp
@[simp] theorem rxIdleCheck_txState (now : Word) (n : Nat) (s : State) : (rxIdleCheck now n s).txState = s.txState := by
  simp only [rxIdleCheck, State.withAccumulator]
  repeat' split
  all_goals simp
@[simp] theorem rxIdleCheck_txSize (now : Word) (n : Nat) (s : State) : (rxIdleCheck now n s).txSize = s.txSize := by
  simp only [rxIdleCheck, State.withAccumulator]
  repeat' split
  all_goals simp
@[simp] theorem rxIdleCheck_txSent (now : Word) (n : Nat) (s : State) : (rxIdleCheck now n s).txSent = s.txSent := by
  simp only [rxIdleCheck, State.withAccumulator]
  repeat' split
  all_goals simp
@[simp] theorem rxIdleCheck_txStartTime (now : Word) (n : Nat) (s : State) : (rxIdleCheck now n s).txStartTime = s.txStartTime := by
  simp only [rxIdleCheck, State.withAccumulator]
  repeat' split
  all_goals simp
@[simp] theorem rxIdleCheck_rxLife (now : Word) (n : Nat) (s : State) : (rxIdleCheck now n s).rxLife = s.rxLife := by
  simp only [rxIdleCheck, State.withAccumulator]
  repeat' split
  all_goals simp
@[simp] theorem rxIdleCheck_rxLastTime (now : Word) (n : Nat) (s : State) : (rxIdleCheck now n s).rxLastTime = s.rxLastTime := by
  simp only [rxIdleCheck, State.withAccumulator]
  repeat' split
  all_goals simp
@[simp] theorem rxIdleCheck_rxPollTime (now : Word) (n : Nat) (s : State) : (rxIdleCheck now n s).rxPollTime = s.rxPollTime := by
  simp only [rxIdleCheck, State.withAccumulator]
  repeat' split
  all_goals simp
@[simp] theorem rxIdleCheck_rxActive (now : Word) (n : Nat) (s : State) : (rxIdleCheck now n s).rxActive = s.rxActive := by
  simp only [rxIdleCheck, State.withAccumulator]
  repeat' split
  all_goals simp
@[simp] theorem rxIdleCheck_link (now : Word) (n : Nat) (s : State) : (rxIdleCheck now n s).link = s.link := by
  simp only [rxIdleCheck, State.withAccumulator]
  repeat' split
  all_goals simp
@[simp] theorem rxIdleCheck_pending (now : Word) (n : Nat) (s : State) : (rxIdleCheck now n s).pending = s.pending := by
  simp only [rxIdleCheck, State.withAccumulator]
  repeat' split
  all_goals simp

@[simp] theorem rxFinish_cfg (now : Word) (n : Nat) (s : State) : (rxFinish now n s).cfg = s.cfg := by
  simp only [rxFinish, rxSettleLife, rxMarkActivity]
  repeat' split
  all_goals simp
@[simp] theorem rxFinish_txState (now : Word) (n : Nat) (s : State) : (rxFinish now n s).txState = s.txState := by
  simp only [rxFinish, rxSettleLife, rxMarkActivity]
  repeat' split
  all_goals simp
@[simp] theorem rxFinish_txSize (now : Word) (n : Nat) (s : State) : (rxFinish now n s).txSize = s.txSize := by
  simp only [rxFinish, rxSettleLife, rxMarkActivity]
  repeat' split
  all_goals simp
@[simp] theorem rxFinish_txSent (now : Word) (n : Nat) (s : State) : (rxFinish now n s).txSent = s.txSent := by
  simp only [rxFinish, rxSettleLife, rxMarkActivity]
  repeat' split
  all_goals simp
@[simp] theorem rxFinish_txStartTime (now : Word) (n : Nat) (s : State) : (rxFinish now n s).txStartTime = s.txStartTime := by
  simp only [rxFinish, rxSettleLife, rxMarkActivity]
  repeat' split
  all_goals simp
@[simp] theorem rxFinish_rxAcc (now : Word) (n : Nat) (s : State) : (rxFinish now n s).rxAcc = s.rxAcc := by
  simp only [rxFinish, rxSettleLife, rxMarkActivity]
  repeat' split
  all_goals simp
@[simp] theorem rxFinish_rxSize (now : Word) (n : Nat) (s : State) : (rxFinish now n s).rxSize = s.rxSize := by
  simp only [rxFinish, rxSettleLife, rxMarkActivity]
  repeat' split
  all_goals simp
@[simp] theorem rxFinish_rxLastTime (now : Word) (n : Nat) (s : State) : (rxFinish now n s).rxLastTime = s.rxLastTime := by
  simp only [rxFinish, rxSettleLife, rxMarkActivity]
  repeat' split
  all_goals simp
@[simp] theorem rxFinish_mem (now : Word) (n : Nat) (s : State) : (rxFinish now n s).mem = s.mem := by
  simp only [rxFinish, rxSettleLife, rxMarkActivity]
  repeat' split
  all_goals simp
@[simp] theorem rxFinish_link (now : Word) (n : Nat) (s : State) : (rxFinish now n s).link = s.link := by
  simp only [rxFinish, rxSettleLife, rxMarkActivity]
  repeat' split
  all_goals simp
@[simp] theorem rxFinish_events (now : Word) (n : Nat) (s : State) : (rxFinish now n s).events = s.events := by
  simp only [rxFinish, rxSettleLife, rxMarkActivity]
  repeat' split
  all_goals simp
@[simp] theorem rxFinish_pending (now : Word) (n : Nat) (s : State) : (rxFinish now n s).pending = s.pending := by
  simp only [rxFinish, rxSettleLife, rxMarkActivity]
  repeat' split
  all_goals simp

@[simp] theorem rxConnected_cfg (now : Word) (s : State) : (rxConnected now s).cfg = s.cfg := by
  simp only [rxConnected]
  split <;> simp
@[simp] theorem rxConnected_txState (now : Word) (s : State) : (rxConnected now s).txState = s.txState := by
  simp only [rxConnected]
  split <;> simp
@[simp] theorem rxConnected_txSize (now : Word) (s : State) : (rxConnected now s).txSize = s.txSize := by
  simp only [rxConnected]
  split <;> simp
@[simp] theorem rxConnected_txSent (now : Word) (s : State) : (rxConnected now s).txSent = s.txSent := by
  simp only [rxConnected]
  split <;> simp
@[simp] theorem rxConnected_txStartTime (now : Word) (s : State) : (rxConnected now s).txStartTime = s.txStartTime := by
  simp only [rxConnected]
  split <;> simp
@[simp] theorem rxConnected_pending (now : Word) (s : State) : (rxConnected now s).pending = s.pending := by
  simp only [rxConnected]
  split <;> simp

@[simp] theorem rxStepAt_cfg (now : Word) (s : State) : (rxStepAt now s).cfg = s.cfg := by
  simp only [rxStepAt, rxLinkDown, rxLinkUp, State.reportLinkDown, State.resetReceiver, State.withAccumulator]
  repeat' split
  all_goals simp
@[simp] theorem rxStepAt_txState (now : Word) (s : State) : (rxStepAt now s).txState = s.txState := by
  simp only [rxStepAt, rxLinkDown, rxLinkUp, State.reportLinkDown, State.resetReceiver, State.withAccumulator]
  repeat' split
  all_goals simp
@[simp] theorem rxStepAt_txSize (now : Word) (s : State) : (rxStepAt now s).txSize = s.txSize := by
  simp only [rxStepAt, rxLinkDown, rxLinkUp, State.reportLinkDown, State.resetReceiver, State.withAccumulator]
  repeat' split
  all_goals simp
@[simp] theorem rxStepAt_txSent (now : Word) (s : State) : (rxStepAt now s).txSent = s.txSent := by
  simp only [rxStepAt, rxLinkDown, rxLinkUp, State.reportLinkDown, State.resetReceiver, State.withAccumulator]
  repeat' split
  all_goals simp
@[simp] theorem rxStepAt_txStartTime (now : Word) (s : State) : (rxStepAt now s).txStartTime = s.txStartTime := by
  simp only [rxStepAt, rxLinkDown, rxLinkUp, State.reportLinkDown, State.resetReceiver, State.withAccumulator]
  repeat' split
  all_goals simp
@[simp] theorem rxStepAt_pending (now : Word) (s : State) : (rxStepAt now s).pending = s.pending := by
  simp only [rxStepAt, rxLinkDown, rxLinkUp, State.reportLinkDown, State.resetReceiver, State.withAccumulator]
  repeat' split
  all_goals simp

/-! ### What a step command can do, case by case -/

/-- Every way a TX_STEP can go (44_transmitter.md R205-R207). -/
theorem txStepAt_cases (now : Word) (s : State) :
    (s.txState = .notSending ∧ txStepAt now s = s.finishStep .suspend)
    ∨ (∃ e, s.txState.timeoutError? = some e ∧ s.txState ≠ .notSending ∧ s.cfg.writeTimeoutMs < elapsedMs now s.txStartTime
        ∧ txStepAt now s = ((s.withTxState .notSending).emit (.txError e)).finishStep .suspend)
    ∨ (s.txState ≠ .notSending ∧ ¬ s.cfg.writeTimeoutMs < elapsedMs now s.txStartTime ∧ s.link.connected.1 = false
        ∧ txStepAt now s = (s.withLink s.link.connected.2).finishStep .suspend)
    ∨ (s.txState ≠ .notSending ∧ ¬ s.cfg.writeTimeoutMs < elapsedMs now s.txStartTime ∧ s.link.connected.1 = true
        ∧ txStepAt now s =
          txWork s.link.connected.2.availableForWrite.1 (s.withLink s.link.connected.2.availableForWrite.2)) := by
  by_cases h0 : s.txState = .notSending
  · exact .inl ⟨h0, by simp [txStepAt, h0, TxState.timeoutError?]⟩
  · obtain ⟨e, he⟩ : ∃ e, s.txState.timeoutError? = some e := by
      cases hs : s.txState <;> simp_all [TxState.timeoutError?]
    refine .inr ?_
    by_cases hd : s.cfg.writeTimeoutMs < elapsedMs now s.txStartTime
    · exact .inl ⟨e, he, h0, hd, by simp [txStepAt, he, hd]⟩
    · refine .inr ?_
      cases hc : s.link.connected.1
      · exact .inl ⟨h0, hd, rfl, by simp [txStepAt, he, hd, txLinked, hc]⟩
      · exact .inr ⟨h0, hd, rfl, by simp [txStepAt, he, hd, txLinked, hc]; rfl⟩

/-- Every way a RX_STEP can go (45_receiver.md R244-R247). -/
theorem rxStepAt_cases (now : Word) (s : State) :
    (s.rxLife = .disabled ∧ rxStepAt now s = s.finishStep .suspend)
    ∨ (s.rxLife ≠ .disabled ∧ s.link.connected.1 = false ∧ rxStepAt now s = rxLinkDown (s.withLink s.link.connected.2))
    ∨ (s.rxLife ≠ .disabled ∧ s.link.connected.1 = true
        ∧ rxStepAt now s = rxConnected now (rxLinkUp (s.withLink s.link.connected.2))) := by
  by_cases h0 : s.rxLife = .disabled
  · exact .inl ⟨h0, by simp [rxStepAt, h0]⟩
  · refine .inr ?_
    cases hc : s.link.connected.1
    · exact .inl ⟨h0, rfl, by simp [rxStepAt, h0, hc]⟩
    · exact .inr ⟨h0, rfl, by simp [rxStepAt, h0, hc]⟩

/-- An RX command writes no store but RXB (60_exceptions.md R331): the read loop. -/
theorem rxReadLoop_cells (now : Word) (k : Nat) (s : State) {b : Region} (hb : b ≠ .rxb) :
    (rxReadLoop now k s).state.mem.cells b = s.mem.cells b := by
  refine rxReadLoop_induct (P := fun t => t.mem.cells b = s.mem.cells b) now (by simp) ?_ k s rfl
  intro u h
  simp only [processByte, processWaitingForStart, processWaitingForData, processTooShort, processAppend, State.withAccumulator]
  repeat' split
  all_goals simp [h, Memory.writeByte, Memory.cells_withCells_other _ _ hb]

/-- An RX command writes no store but RXB (60_exceptions.md R331): the connected step. -/
theorem rxConnected_cells (now : Word) (s : State) {b : Region} (hb : b ≠ .rxb) :
    (rxConnected now s).mem.cells b = s.mem.cells b := by
  simp only [rxConnected, rxFinish_mem]
  split
  · simp [rxDeliver, State.withAccumulator, cobsDecode_eq, Memory.cells_writeBytes_other _ _ _ hb, rxReadLoop_cells _ _ _ hb]
  · simp only [rxIdleCheck, State.withAccumulator]
    split <;> simp [rxReadLoop_cells _ _ _ hb]

/-- An RX command writes no store but RXB (60_exceptions.md R331): the whole step. -/
theorem rxStepAt_cells (now : Word) (s : State) {b : Region} (hb : b ≠ .rxb) :
    (rxStepAt now s).mem.cells b = s.mem.cells b := by
  rcases rxStepAt_cases now s with ⟨_, h⟩ | ⟨_, _, h⟩ | ⟨_, _, h⟩ <;> rw [h]
  · simp
  · simp [rxLinkDown, State.resetReceiver, State.withAccumulator]
  · rw [rxConnected_cells _ _ hb]; simp

end Sys2Proof.Machine
end

