-- ==== Sys2Proof/Laws/PerInstr.lean ====
section
/-! SUPPORT. The per-command family OpcodeSelect: a command's word carries its opcode of 30_encoding.md R84 in bits 7:0 and
0 in the reserved bits 15:12 (R81). -/

namespace Sys2Proof.Laws.OpcodeSelect

/-- The word of a command with an encoding selects the command's row of the opcode map. -/
def Statement (i : Instr) : Prop := i.wf = true → bits (encode i) 7 0 = i.opcode ∧ bits (encode i) 15 12 = 0

/-- What every case comes down to. -/
theorem of_fields {i : Instr} {ba bb n v : Nat} (h : encode i = commandWord i.opcode ba bb n v) (ho : i.opcode < 256)
    (h2 : ba < 4) (h3 : bb < 4) (h4 : n < 256) (h5 : v < 256) :
    bits (encode i) 7 0 = i.opcode ∧ bits (encode i) 15 12 = 0 := by
  obtain ⟨a1, a2, _⟩ := bits_commandWord ho h2 h3 h4 h5
  rw [h]
  exact ⟨a2, a1⟩

theorem bufRd (buf : BufId) (off : Nat) : Statement (.bufRd buf off) := fun h => by
  simp only [Instr.wf, fitsField, decide_eq_true_eq] at h
  exact of_fields rfl (by simp [Instr.opcode]) (BufId.field_lt buf) (by decide) h (by decide)

theorem bufWr (buf : BufId) (off : Nat) (val : Byte) : Statement (.bufWr buf off val) := fun h => by
  simp only [Instr.wf, fitsField, decide_eq_true_eq] at h
  exact of_fields rfl (by simp [Instr.opcode]) (BufId.field_lt buf) (by decide) h val.isLt

theorem regRd (reg : Nat) : Statement (.regRd reg) := fun h => by
  simp only [Instr.wf, fitsField, decide_eq_true_eq] at h
  exact of_fields rfl (by simp [Instr.opcode]) (by decide) (by decide) h (by decide)

theorem frameEncode (src dst : BufId) (size : Nat) : Statement (.frameEncode src dst size) := fun h => by
  simp only [Instr.wf, fitsField, decide_eq_true_eq] at h
  exact of_fields rfl (by simp [Instr.opcode]) (BufId.field_lt src) (BufId.field_lt dst) h (by decide)

theorem frameDecode (src dst : BufId) (size : Nat) : Statement (.frameDecode src dst size) := fun h => by
  simp only [Instr.wf, fitsField, decide_eq_true_eq] at h
  exact of_fields rfl (by simp [Instr.opcode]) (BufId.field_lt src) (BufId.field_lt dst) h (by decide)

theorem checkSetup : Statement (.checkSetup) := fun _ =>
  of_fields rfl (by simp [Instr.opcode]) (by decide) (by decide) (by decide) (by decide)

theorem checkCompute (buf : BufId) (off len : Nat) : Statement (.checkCompute buf off len) := fun h => by
  simp only [Instr.wf, Bool.and_eq_true, fitsField, decide_eq_true_eq] at h
  exact of_fields rfl (by simp [Instr.opcode]) (BufId.field_lt buf) (by decide) h.2 h.1

theorem layoutMsgsize (psize : Nat) : Statement (.layoutMsgsize psize) := fun h => by
  simp only [Instr.wf, fitsField, decide_eq_true_eq] at h
  exact of_fields rfl (by simp [Instr.opcode]) (by decide) (by decide) h (by decide)

theorem layoutPaysize (msize : Nat) : Statement (.layoutPaysize msize) := fun h => by
  simp only [Instr.wf, fitsField, decide_eq_true_eq] at h
  exact of_fields rfl (by simp [Instr.opcode]) (by decide) (by decide) h (by decide)

theorem msgEncode (buf : BufId) (msize : Nat) : Statement (.msgEncode buf msize) := fun h => by
  simp only [Instr.wf, fitsField, decide_eq_true_eq] at h
  exact of_fields rfl (by simp [Instr.opcode]) (BufId.field_lt buf) (by decide) h (by decide)

theorem msgDecode (buf : BufId) (esize : Nat) : Statement (.msgDecode buf esize) := fun h => by
  simp only [Instr.wf, fitsField, decide_eq_true_eq] at h
  exact of_fields rfl (by simp [Instr.opcode]) (BufId.field_lt buf) (by decide) h (by decide)

theorem txCansend : Statement (.txCansend) := fun _ =>
  of_fields rfl (by simp [Instr.opcode]) (by decide) (by decide) (by decide) (by decide)

theorem txSend (size : Nat) : Statement (.txSend size) := fun h => by
  simp only [Instr.wf, fitsField, decide_eq_true_eq] at h
  exact of_fields rfl (by simp [Instr.opcode]) (by decide) (by decide) h (by decide)

theorem txStep : Statement (.txStep) := fun _ =>
  of_fields rfl (by simp [Instr.opcode]) (by decide) (by decide) (by decide) (by decide)

theorem txStop : Statement (.txStop) := fun _ =>
  of_fields rfl (by simp [Instr.opcode]) (by decide) (by decide) (by decide) (by decide)

theorem rxStart : Statement (.rxStart) := fun _ =>
  of_fields rfl (by simp [Instr.opcode]) (by decide) (by decide) (by decide) (by decide)

theorem rxStop : Statement (.rxStop) := fun _ =>
  of_fields rfl (by simp [Instr.opcode]) (by decide) (by decide) (by decide) (by decide)

theorem rxStep : Statement (.rxStep) := fun _ =>
  of_fields rfl (by simp [Instr.opcode]) (by decide) (by decide) (by decide) (by decide)

theorem rxWake : Statement (.rxWake) := fun _ =>
  of_fields rfl (by simp [Instr.opcode]) (by decide) (by decide) (by decide) (by decide)

end Sys2Proof.Laws.OpcodeSelect
end

