-- ==== Sys2Proof/Laws/Receive.lean ====
section
/-! SUPPORT. The read loop of an RX_STEP as the bytes it reads: ProcessByte looks at neither the edge nor the time stamp, so
the loop is the bytes taken from the edge and, apart from them, the bytes accumulated. -/

namespace Sys2Proof.Machine

/-- The edge and the last-byte stamp replaced together. -/
def State.withEdge (s : State) (l : Link) (t : Word) : State := (s.withLink l).withRxLastTime t

@[simp] theorem State.withEdge_cfg (s : State) (l : Link) (t : Word) : (s.withEdge l t).cfg = s.cfg := rfl
@[simp] theorem State.withEdge_link (s : State) (l : Link) (t : Word) : (s.withEdge l t).link = l := rfl
@[simp] theorem State.withEdge_rxLastTime (s : State) (l : Link) (t : Word) : (s.withEdge l t).rxLastTime = t := rfl
@[simp] theorem State.withEdge_rxAcc (s : State) (l : Link) (t : Word) : (s.withEdge l t).rxAcc = s.rxAcc := rfl
@[simp] theorem State.withEdge_rxSize (s : State) (l : Link) (t : Word) : (s.withEdge l t).rxSize = s.rxSize := rfl
@[simp] theorem State.withEdge_mem (s : State) (l : Link) (t : Word) : (s.withEdge l t).mem = s.mem := rfl
@[simp] theorem State.withEdge_withLink (s : State) (l l' : Link) (t : Word) :
    (s.withEdge l t).withLink l' = s.withEdge l' t := rfl
@[simp] theorem State.withEdge_withRxLastTime (s : State) (l : Link) (t t' : Word) :
    (s.withEdge l t).withRxLastTime t' = s.withEdge l t' := rfl

/-- ProcessByte depends on neither the edge nor the time stamp and changes neither. -/
theorem processByte_withEdge (x : Byte) (s : State) (l : Link) (t : Word) :
    processByte x (s.withEdge l t) = ((processByte x s).1, (processByte x s).2.withEdge l t) := by
  cases ha : s.rxAcc <;> by_cases hx : x = delimiter
  · simp [processByte, ha, hx, processWaitingForStart]; rfl
  · simp [processByte, ha, hx, processWaitingForStart]
  · simp [processByte, ha, hx, processWaitingForData]
  · simp [processByte, ha, hx, processWaitingForData]; rfl
  · by_cases hn : Config.msgMin ≤ s.rxSize.toNat
    · simp [processByte, ha, hx, hn]
    · simp [processByte, ha, hx, hn]; rfl
  · by_cases hn : s.rxSize.toNat < s.cfg.bufCap
    · simp [processByte, ha, hx, processAppend, hn]; rfl
    · simp [processByte, ha, hx, processAppend, hn]; rfl

/-- A delimiter closes an accumulation of at least MSG_MIN bytes and changes nothing (45_receiver.md R251). -/
theorem processByte_closes {s : State} (ha : s.rxAcc = .readingData) (hn : 3 ≤ s.rxSize.toNat) :
    processByte delimiter s = (true, s) := by
  simp [processByte, ha, Config.msgMin, hn]

/-- A byte takes the loop one read further when it closes no frame. -/
theorem rxReadLoop_open {now : Word} {k : Nat} {s : State} {l : Link} {t : Word} (h0 : l.available.1 ≠ 0)
    (h : (processByte l.available.2.read.1 s).1 = false) :
    rxReadLoop now (k + 1) (s.withEdge l t) =
      { rxReadLoop now k ((processByte l.available.2.read.1 s).2.withEdge l.available.2.read.2 now) with
        reads := (rxReadLoop now k ((processByte l.available.2.read.1 s).2.withEdge l.available.2.read.2 now)).reads + 1 } := by
  simp [rxReadLoop, h0, processByte_withEdge, h]

/-- A byte that closes a frame ends the loop. -/
theorem rxReadLoop_close {now : Word} {k : Nat} {s : State} {l : Link} {t : Word} (h0 : l.available.1 ≠ 0)
    (h : (processByte l.available.2.read.1 s).1 = true) :
    rxReadLoop now (k + 1) (s.withEdge l t) =
      { closed := true, reads := 1,
        state := (processByte l.available.2.read.1 s).2.withEdge l.available.2.read.2 now } := by
  simp [rxReadLoop, h0, processByte_withEdge, h]

/-- The loop over bytes that close no frame: it goes on from their accumulation and the edge without them. -/
theorem rxReadLoop_readsBytes {now : Word} (k : Nat) {xs : List Byte} {s u : State} {l l' : Link} {t : Word}
    (hl : l.readsBytes xs = some l') (hu : s.accumulate xs = some u) :
    rxReadLoop now (xs.length + k) (s.withEdge l t) =
      { rxReadLoop now k (u.withEdge l' (if xs = [] then t else now)) with
        reads := (rxReadLoop now k (u.withEdge l' (if xs = [] then t else now))).reads + xs.length } := by
  induction xs generalizing s l t with
  | nil =>
    simp only [Link.readsBytes, Option.some.injEq, State.accumulate] at hl hu
    subst hl hu
    simp
  | cons x xs ih =>
    simp only [Link.readsBytes] at hl
    split at hl
    · rename_i h
      obtain ⟨h0, rfl⟩ := h
      simp only [State.accumulate] at hu
      split at hu
      · cases hu
      · rename_i hp
        rw [List.length_cons, show xs.length + 1 + k = (xs.length + k) + 1 by omega,
          rxReadLoop_open h0 (by simpa using hp), ih hl hu]
        simp [Nat.add_assoc]
    · cases hl

/-- Reading a sequence and then one more byte. -/
theorem Link.readsBytes_append {l l' : Link} {xs ys : List Byte} (h : l.readsBytes (xs ++ ys) = some l') :
    ∃ m, l.readsBytes xs = some m ∧ m.readsBytes ys = some l' := by
  induction xs generalizing l with
  | nil => exact ⟨l, rfl, h⟩
  | cons x xs ih =>
    simp only [List.cons_append, Link.readsBytes] at h
    split at h
    · rename_i hx
      obtain ⟨m, h1, h2⟩ := ih h
      exact ⟨m, by simp [Link.readsBytes, hx, h1], h2⟩
    · cases h

/-- A property that processing one byte keeps, accumulation keeps. -/
theorem State.accumulate_induct {P : State → Prop} (hbyte : ∀ x s, P s → P (processByte x s).2) {xs : List Byte}
    {s u : State} (hu : s.accumulate xs = some u) (h : P s) : P u := by
  induction xs generalizing s with
  | nil =>
    simp only [State.accumulate, Option.some.injEq] at hu
    subst hu
    exact h
  | cons x xs ih =>
    simp only [State.accumulate] at hu
    split at hu
    · cases hu
    · exact ih hu (hbyte x s h)

end Sys2Proof.Machine
end

