-- ==== Sys2Proof/Tests/Slice0.lean ====
section
/-! SUPPORT. Tests: words and outcomes from spec/95_test_vectors.md, spec/30_encoding.md R91 and the rules' own examples;
the smoke test of the well-formedness checks; and for every statement with hypotheses a state that meets them. -/

namespace Sys2Proof.Machine.Tests

/-! ### Helpers -/

/-- The cells of a buffer that holds these bytes from offset 0 on. -/
def cells : Nat → List Byte → List Host.Cell
  | _, [] => []
  | a, x :: rest => (a, x) :: cells (a + 1) rest

/-- TESTCFG right after reset, with these bytes in TXB, RXB and AUX. -/
def holding (txb rxb aux : List Byte) : State :=
  { State.reset with mem := { txb := cells 0 txb, rxb := cells 0 rxb, aux := cells 0 aux, scratch := [] } }

/-- The same without a key. -/
def keyless : State := State.resetWith { Config.testCfg with key := [] }

/-- A state whose edge will give these answers. -/
def answering (s : State) (now : List Word) (conn : List Bool) (room accept avail : List Nat) (bytes : List Byte) : State :=
  { s with link := { s.link with nowIn := now, connectedIn := conn, headroomIn := room, acceptIn := accept,
                                 availableIn := avail, byteIn := bytes } }

/-- A send of the frame of scenario A in progress since NOW = 0. -/
def sending (t : TxState) (sent : BitVec 8) : State :=
  { holding [0x04, 0x61, 0xBB, 0x07] [] [] with txState := t, txSize := 4, txSent := sent }

/-- A connected Receiver that has seen a delimiter. -/
def polling : State := { State.reset with rxLife := .polling, rxAcc := .waitingForData }

/-- A Receiver with two bytes of a frame. -/
def accumulating : State :=
  { holding [] [0x04, 0x61] [] with rxLife := .accumulating, rxAcc := .readingData, rxSize := 2 }

/-- The state a command leaves, where it answers one. -/
def after (r : Result) : State :=
  match r with
  | .next t => t
  | _ => State.reset

/-- STATUS, RESULT and the events of a command. -/
def seen (r : Result) : Nat × Nat × List Nat :=
  ((after r).status.toNat, (after r).result.toNat, (after r).events.map BitVec.toNat)

/-! ### Well-formedness: each check refuses an operand its field cannot hold -/

theorem test_wf_refuses_wide_operands :
    (Instr.bufRd .txb 256).wf = false ∧ (Instr.bufWr .txb 256 0).wf = false ∧ (Instr.regRd 256).wf = false
    ∧ (Instr.frameEncode .txb .aux 256).wf = false ∧ (Instr.frameDecode .txb .aux 256).wf = false
    ∧ (Instr.checkCompute .aux 256 0).wf = false ∧ (Instr.checkCompute .aux 0 256).wf = false
    ∧ (Instr.layoutMsgsize 256).wf = false ∧ (Instr.layoutPaysize 256).wf = false
    ∧ (Instr.msgEncode .txb 256).wf = false ∧ (Instr.msgDecode .txb 256).wf = false ∧ (Instr.txSend 256).wf = false := by
  decide

theorem test_cfg_wf_refuses_each_range :
    ({ Config.testCfg with msm := 2 } : Config).wf = false ∧ ({ Config.testCfg with msm := 254 } : Config).wf = false
    ∧ ({ Config.testCfg with maxOut := 0 } : Config).wf = false ∧ ({ Config.testCfg with maxIn := 256 } : Config).wf = false
    ∧ ({ Config.testCfg with writeTimeoutMs := 2 ^ 31 } : Config).wf = false
    ∧ ({ Config.testCfg with readTimeoutMs := 2 ^ 31 } : Config).wf = false
    ∧ ({ Config.testCfg with pollPeriodMs := 2 ^ 30 } : Config).wf = false
    ∧ ({ Config.testCfg with disconnectedPollMs := 2 ^ 30 } : Config).wf = false
    ∧ ({ Config.testCfg with txMinHeadroom := 4 } : Config).wf = false := by
  decide

/-! ### Decoding: the words of table V30-2, one per command -/

theorem test_decode_bufRd : decode 0x00020101#32 = .ok (.bufRd .rxb 2) := by decide
theorem test_decode_bufWr : decode 0x42020002#32 = .ok (.bufWr .txb 2 0x42#8) := by decide
theorem test_decode_regRd : decode 0x000B0003#32 = .ok (.regRd 0x0B) := by decide
theorem test_decode_frameEncode : decode 0x00040210#32 = .ok (.frameEncode .aux .txb 4) := by decide
theorem test_decode_frameDecode : decode 0x00050411#32 = .ok (.frameDecode .txb .rxb 5) := by decide
theorem test_decode_checkSetup : decode 0x00000020#32 = .ok .checkSetup := by decide
theorem test_decode_checkCompute : decode 0x02010221#32 = .ok (.checkCompute .aux 2 1) := by decide
theorem test_decode_layoutMsgsize : decode 0x000D0030#32 = .ok (.layoutMsgsize 13) := by decide
theorem test_decode_layoutPaysize : decode 0x00100031#32 = .ok (.layoutPaysize 16) := by decide
theorem test_decode_msgEncode : decode 0x00060040#32 = .ok (.msgEncode .txb 6) := by decide
theorem test_decode_msgDecode : decode 0x00070241#32 = .ok (.msgDecode .aux 7) := by decide
theorem test_decode_txCansend : decode 0x00000050#32 = .ok .txCansend := by decide
theorem test_decode_txSend : decode 0x00070051#32 = .ok (.txSend 7) := by decide
theorem test_decode_txStep : decode 0x00000052#32 = .ok .txStep := by decide
theorem test_decode_txStop : decode 0x00000053#32 = .ok .txStop := by decide
theorem test_decode_rxStart : decode 0x00000060#32 = .ok .rxStart := by decide
theorem test_decode_rxStop : decode 0x00000061#32 = .ok .rxStop := by decide
theorem test_decode_rxStep : decode 0x00000062#32 = .ok .rxStep := by decide
theorem test_decode_rxWake : decode 0x00000063#32 = .ok .rxWake := by decide

/-- Table V30-1: reserved bits, unassigned opcodes, ignored fields, buffer id 3. -/
theorem test_decode_corners :
    decode 0x00000000#32 = .error .unassignedOpcode ∧ decode 0x00001002#32 = .error .reservedBits
    ∧ decode 0x0000F050#32 = .error .reservedBits ∧ decode 0x00000012#32 = .error .unassignedOpcode
    ∧ decode 0x000000FF#32 = .error .unassignedOpcode ∧ decode 0x12345020#32 = .error .reservedBits
    ∧ decode 0xFFFF0F20#32 = .ok .checkSetup ∧ decode 0x00C80F10#32 = .ok (.frameEncode .reserved .reserved 200) := by
  decide

/-- The host's two questions on a table row: the decoder, and the step from reset. -/
theorem test_fetch_word :
    decodeTableWord 32 0x07020002 = some (.bufWr .txb 2 7)
    ∧ seen (step (State.reset.withFetchWord 32 0x00110003)) = (0x01, 17, [])
    ∧ seen (step (State.reset.withFetchWord 32 0x00000053)) = (0x01, 0, [])
    ∧ seen (step (State.reset.withFetchWord 32 0x00001002)) = (0x10, 0, []) := by
  decide

theorem test_assemble_line :
    assemble "  BUF_WR TXB, 2, 0x42 ; header" = some [.bufWr .txb 2 0x42#8]
    ∧ assemble "REG_RD RX_POLL_TIME" = some [.regRd 0x0C] ∧ assemble "; nothing" = some []
    ∧ assemble "BUF_FILL AUX, 2, 0x42, 1" = some [.bufWr .aux 2 0x42#8, .bufWr .aux 3 1#8]
    ∧ assemble "TX_SEND 256" = none ∧ assemble "TX_SEND" = none := by
  decide

theorem test_assemble_send_msg :
    assemble "SEND_MSG 7, 1" = some [.bufWr .txb 2 7#8, .bufWr .txb 3 1#8, .msgEncode .txb 4, .txSend 5]
    ∧ assemble "RD_STATUS" = some [.regRd 0] := by
  decide

/-! ### Host access (tables V40-3, V43-2; 46_host_access.md) -/

/-- TXB is as scenario A's MSG_ENCODE leaves it (95_test_vectors.md S5; log 20): offset 1 holds 0x61, offset 2 holds 0xBB. -/
theorem test_bufRd_scenario_a : seen (exec (.bufRd .txb 1) (holding [0x04, 0x61, 0xBB, 0x07] [] [])) = (0x01, 0x61, [])
    ∧ seen (exec (.bufRd .txb 2) (holding [0x04, 0x61, 0xBB, 0x07] [] [])) = (0x01, 0xBB, []) := by decide
theorem test_bufRd : seen (exec (.bufRd .aux 1) (holding [] [] [0x04, 0xBB])) = (0x01, 0xBB, [])
    ∧ seen (exec (.bufRd .aux 17) State.reset) = (0x20, 0, []) := by decide
theorem test_bufWr : (after (exec (.bufWr .txb 2 7) State.reset)).mem.txb = [(2, 7#8)]
    ∧ seen (exec (.bufWr .txb 2 7) (sending .sendingData 0)) = (0x40, 0, []) := by decide
theorem test_regRd_old_status : seen (exec (.regRd 0) { State.reset with status := 0x20 }) = (0x01, 0x20, [])
    ∧ seen (exec (.regRd 0x11) State.reset) = (0x01, 17, []) := by decide
theorem test_regRd_unknown : seen (exec (.regRd 0x07) State.reset) = (0x20, 0, [])
    ∧ seen (exec (.regRd 0x19) State.reset) = (0x20, 0, []) := by decide

/-! ### The codec (tables V40-1 to V40-3) -/

theorem test_cobsEncode : cobsEncode [0x11, 0x22, 0x00, 0x33] = [0x03, 0x11, 0x22, 0x02, 0x33]
    ∧ cobsEncode [] = [0x01] ∧ cobsEncode [0x11, 0x00, 0x00, 0x00] = [0x02, 0x11, 0x01, 0x01, 0x01] := by decide
theorem test_cobsDecode_partial :
    let r := cobsDecode .aux .rxb 4 (holding [] [] [0x02, 0x11, 0x00, 0x22]).mem
    r.ok = false ∧ r.size = 2 ∧ r.mem.rxb = [(0, 0x11#8), (1, 0x00#8)] := by decide
theorem test_frameEncode :
    seen (exec (.frameEncode .aux .txb 4) (holding [] [] [0x11, 0x22, 0x00, 0x33])) = (0x01, 5, [])
    ∧ (after (exec (.frameEncode .aux .txb 4) (holding [] [] [0x11, 0x22, 0x00, 0x33]))).mem.txb
      = cells 0 [0x03, 0x11, 0x22, 0x02, 0x33] := by decide
theorem test_frameEncode_priority : seen (exec (.frameEncode .aux .aux 17) State.reset) = (0x20, 0, [])
    ∧ seen (exec (.frameEncode .aux .aux 0) State.reset) = (0x30, 0, [])
    ∧ seen (exec (.frameEncode .aux .rxb 2) polling) = (0x40, 0, []) := by decide
theorem test_frameDecode_in_place :
    (after (exec (.frameDecode .txb .txb 5) (holding [0x03, 0x11, 0x22, 0x02, 0x33] [] []))).mem.txb
      = cells 0 [0x11, 0x22, 0x00, 0x33, 0x33] := by decide
theorem test_frameDecode_codec : seen (exec (.frameDecode .aux .rxb 1) (holding [] [] [0x01])) = (0x60, 0, [])
    ∧ seen (exec (.frameDecode .aux .rxb 2) (holding [] [] [0x01, 0x01])) = (0x01, 1, [])
    ∧ seen (exec (.frameDecode .aux .rxb 18) polling) = (0x20, 0, []) := by decide

/-! ### The check (tables V41-1 to V41-3) -/

theorem test_fletcher16 : fletcher16 [0x61, 0x62, 0x63, 0x64, 0x65] = 0xC8F0#16 ∧ fletcher16 [0x5A, 0x07] = 0xBB61#16
    ∧ fletcher16 [0x01, 0x02, 0x03, 0x07] = 0x170D#16 := by decide
theorem test_checkSetup : seen (exec .checkSetup State.reset) = (0x01, 1, [])
    ∧ seen (exec .checkSetup keyless) = (0x01, 0, []) := by decide
theorem test_checkCompute : seen (exec (.checkCompute .aux 2 1) (holding [] [] [0x00, 0x00, 0x07])) = (0x01, 0xBB61, [])
    ∧ seen (exec (.checkCompute .aux 17 0) State.reset) = (0x01, 0x5A5A, []) := by decide
theorem test_checkCompute_errors : seen (exec (.checkCompute .aux 1 17) State.reset) = (0x20, 0, [])
    ∧ seen (exec (.checkCompute .aux 0 1) keyless) = (0x50, 0, [])
    ∧ seen (exec (.checkCompute .aux 10 10) keyless) = (0x20, 0, []) := by decide

/-! ### Layout (table V42-1) -/

theorem test_layoutMsgsize : seen (exec (.layoutMsgsize 16) State.reset) = (0x01, 19, [])
    ∧ seen (exec (.layoutMsgsize 253) State.reset) = (0x01, 255, []) := by decide
theorem test_layoutPaysize : seen (exec (.layoutPaysize 2) State.reset) = (0x01, 0, [])
    ∧ seen (exec (.layoutPaysize 255) State.reset) = (0x01, 252, []) := by decide

/-! ### The message codec (scenarios A and B, tables V43-1 and V43-2) -/

theorem test_msgEncode :
    (after (exec (.msgEncode .txb 3) (holding [0xEE, 0xEE, 0x07] [] []))).mem.txb = cells 0 [0x04, 0x61, 0xBB, 0x07]
    ∧ seen (exec (.msgEncode .txb 3) (holding [0xEE, 0xEE, 0x07] [] [])) = (0x01, 4, []) := by decide
theorem test_msgEncode_errors : seen (exec (.msgEncode .aux 17) State.reset) = (0x20, 0, [])
    ∧ seen (exec (.msgEncode .rxb 2) polling) = (0x20, 0, []) ∧ seen (exec (.msgEncode .rxb 3) polling) = (0x40, 0, [])
    ∧ seen (exec (.msgEncode .aux 3) keyless) = (0x50, 0, []) := by decide
theorem test_msgDecode :
    (after (exec (.msgDecode .aux 7) (holding [] [] [0x05, 0x9F, 0xD1, 0x42, 0x01, 0x02, 0x02]))).mem.aux
      = cells 0 [0x9F, 0xD1, 0x42, 0x01, 0x00, 0x02, 0x02]
    ∧ seen (exec (.msgDecode .aux 6) (holding [] [] [0x06, 0xD0, 0xAA, 0x10, 0xAA, 0xBC])) = (0x70, 5, []) := by decide
theorem test_msgDecode_short : seen (exec (.msgDecode .aux 3) (holding [] [] [0x03, 0x5A, 0xB4])) = (0x60, 0, [])
    ∧ seen (exec (.msgDecode .aux 4) (holding [] [] [0x03, 0x5A, 0xB4, 0x01])) = (0x01, 3, []) := by decide

/-! ### The Transmitter (tables V44-1 and V44-2) -/

theorem test_txCansend : seen (exec .txCansend (answering State.reset [] [] [3] [] [] [])) = (0x01, 1, [])
    ∧ seen (exec .txCansend (answering State.reset [] [] [2] [] [] [])) = (0x01, 0, [])
    ∧ (after (exec .txCansend (sending .sendingData 0))).link.calls = [] := by decide
theorem test_txSend :
    let t := after (exec (.txSend 4) (answering State.reset [5000] [] [3] [] [] []))
    t.txState = .sendingStartDelimiter ∧ t.txSize = 4 ∧ t.txSent = 0 ∧ t.txStartTime = 5000 ∧ t.result = 1 := by decide
theorem test_txSend_errors : seen (exec (.txSend 18) (answering State.reset [0] [] [0] [] [] [])) = (0x20, 0, [])
    ∧ (after (exec (.txSend 2) (answering State.reset [0] [] [0] [] [] []))).link.calls = []
    ∧ seen (exec (.txSend 3) (answering State.reset [0] [] [0] [] [] [])) = (0x80, 0, []) := by decide
theorem test_txStep_partial_write :
    let t := after (exec .txStep (answering (sending .sendingData 0) [2] [true] [64] [1] [] []))
    t.txSent = 1 ∧ t.link.outbound = [0x04#8] ∧ t.link.calls
      = [.connected true, .availableForWrite 64, .write [0x04, 0x61, 0xBB, 0x07] 1] ∧ t.result = 0 := by decide
theorem test_txStep_ends :
    seen (exec .txStep (answering (sending .sendingEndDelimiter 4) [101] [] [] [] [] [])) = (0x01, 0x80000000, [0x35])
    ∧ seen (exec .txStep (answering (sending .sendingEndDelimiter 4) [100] [true] [64] [1] [] []))
      = (0x01, 0x80000000, [0x03]) := by decide
theorem test_txStop : (after (exec .txStop (sending .sendingData 2))).txState = .notSending
    ∧ (after (exec .txStop (sending .sendingData 2))).txSent = 2 ∧ seen (exec .txStop (sending .sendingData 2)) = (0x01, 0, []) := by
  decide

/-! ### The Receiver (tables V45-1 and following) -/

theorem test_rxStart : (after (exec .rxStart State.reset)).link.calls = [.beginLink 115200]
    ∧ (after (exec .rxStart State.reset)).rxLife = .waitingForTransport
    ∧ seen (exec .rxStart keyless) = (0x50, 0, [0x54]) := by decide
theorem test_rxStop : seen (exec .rxStop accumulating) = (0x01, 0, [0x01])
    ∧ (after (exec .rxStop accumulating)).rxSize = 0 ∧ (after (exec .rxStop accumulating)).link.calls = [.endLink]
    ∧ (after (exec .rxStop State.reset)).link.calls = [] := by decide
theorem test_rxStep_delivers :
    let s := answering polling [9] [true] [] [] [5, 4, 3, 2, 1] [0x04, 0x61, 0xBB, 0x07, 0x00]
    seen (exec .rxStep s) = (0x01, 0, [0x702]) ∧ (after (exec .rxStep s)).rxLife = .polling
    ∧ (after (exec .rxStep s)).rxAcc = .waitingForData ∧ (after (exec .rxStep s)).rxPollTime = 9
    ∧ seen (exec .rxStep (answering polling [9] [true] [] [] [5, 4, 3, 2, 1] [0x04, 0x61, 0xBB, 0x08, 0x00])) = (0x01, 0, [0x44])
    ∧ seen (exec .rxStep (answering polling [9] [true] [] [] [4, 3, 2, 1] [0x01, 0x02, 0x03, 0x00])) = (0x01, 0, [0x44]) := by
  decide
theorem test_rxStep_idle :
    seen (exec .rxStep (answering accumulating [50] [true] [] [] [0] [])) = (0x01, 0x4000000A, [])
    ∧ seen (exec .rxStep (answering accumulating [51] [true] [] [] [0] [])) = (0x01, 0x4000000A, [0x34]) := by decide
theorem test_rxWake : seen (exec .rxWake polling) = (0x01, 0, [])
    ∧ seen (exec .rxWake State.reset) = (0x01, 0x80000000, []) := by decide
/-! ### Witnesses: for each statement with hypotheses, states and operands that meet them, clause by clause -/

/-- TESTCFG with the smallest MSM (R7). -/
def smallest : Config := { Config.testCfg with msm := 3 }

/-- TESTCFG with the largest MSM, MAX_OUT and MAX_IN (R7). -/
def largest : Config := { Config.testCfg with msm := 253, maxOut := 255, maxIn := 255 }

theorem witness_EncodedCommandDecodesBack :
    (Instr.bufWr .reserved 255 0xFF#8).wf = true ∧ (Instr.checkCompute .aux 0 255).wf = true := by decide

theorem witness_DecodingReadsExactlyTheUsedFields :
    decode 0xFFFF0F20#32 = .ok .checkSetup
    ∧ 0x00000020#32 &&& Instr.checkSetup.usedBits = 0xFFFF0F20#32 &&& Instr.checkSetup.usedBits := by decide

theorem witness_CommandIsSelectedByMaskedOpcode :
    decode 0xFFFF0F63#32 = .ok .rxWake ∧ 0xFFFF0F63#32 &&& 0x0000F0FF#32 = BitVec.ofNat 32 0x63 := by decide

theorem witness_IllegalWordsOnlyReportIllegal :
    (polling.issue 0x00001063#32).pending = 0x00001063#32 :: [] ∧ (0x00001063#32).toNat / 2 ^ 12 % 16 ≠ 0
    ∧ (polling.issue 0x00000064#32).pending = 0x00000064#32 :: [] ∧ (0x00000064#32).toNat % 256 = 0x64 := by decide

theorem witness_StepRunsTheDecodedCommand :
    (polling.issue 0x00000063#32).pending = 0x00000063#32 :: [] ∧ decode 0x00000063#32 = .ok .rxWake
    ∧ polling.pending = [] := by decide

theorem witness_StepKeepsReceiverInvariant :
    let s := (answering accumulating [60] [true] [] [] [1, 1, 0] [0xBB, 0x00]).issue 0x00000062#32
    s.cfg.wf = true ∧ s.RxInv ∧ ∃ t, step s = .next t := by
  exact ⟨by decide, by decide, _, rfl⟩

theorem witness_StepKeepsTransmitterInvariant :
    let s := (answering (sending .sendingData 2) [60] [true] [9] [2] [] []).issue 0x00000052#32
    s.cfg.wf = true ∧ s.TxInv ∧ ∃ t, step s = .next t := by
  exact ⟨by decide, by decide, _, rfl⟩

theorem witness_StepKeepsMemoryCanonicalAndInBounds :
    let s := (holding [0xEE, 0xEE, 0x07] [] []).issue 0x00030040#32
    s.cfg.wf = true ∧ s.RxInv ∧ s.MemInv ∧ ∃ t, step s = .next t := by
  exact ⟨by decide, by decide, by decide, _, rfl⟩

theorem witness_ResetMeetsTheInvariants : Config.testCfg.wf = true ∧ smallest.wf = true ∧ largest.wf = true := by decide

theorem witness_EveryCommandLeavesALegalStatus :
    (∃ t, exec .checkSetup State.reset = .next t ∧ t.status.toNat % 2 = 1)
    ∧ ∃ t, exec (.txSend 2) State.reset = .next t ∧ t.status.toNat % 2 = 0 := by
  exact ⟨⟨_, rfl, by decide⟩, _, rfl, by decide⟩

theorem witness_NoCommandChangesTheConfiguration : ∃ t, exec .rxStep polling = .next t := ⟨_, rfl⟩

theorem witness_BufRdReadsOneByte :
    State.reset.cfg.bufCap ≤ 17 ∧ regionOf .rxb = some .rxb ∧ 16 < polling.cfg.bufCap ∧ polling.owned .rxb = true := by decide

theorem witness_BufWrWritesOneByte :
    State.reset.cfg.bufCap ≤ 17 ∧ regionOf .rxb = some .rxb ∧ 16 < polling.cfg.bufCap ∧ polling.owned .rxb = true
    ∧ State.reset.owned .rxb = false := by decide

theorem witness_RegRdReadsTheRegisterTable :
    (0x05 : Nat) ∉ [0x04, 0x08] ∧ State.reset.register? 0x07 = none ∧ State.reset.register? 0x19 = none := by decide

theorem witness_WrittenBytesReadBack :
    Region.rxb ≠ Region.txb ∧ (1 : Nat) < 2 ∧ 2 + ([7, 8] : List Byte).length ≤ 4 := by decide

theorem witness_StuffedLengthFormula : (List.replicate 253 0x01#8).length ≤ 253 := by rw [List.length_replicate]

theorem witness_DecodeInvertsEncode :
    let m := (holding [] [] [0x03, 0x11, 0x22, 0x02, 0x33]).mem
    m.readBytes .aux 0 (cobsEncode [0x11, 0x22, 0x00, 0x33]).length = cobsEncode [0x11, 0x22, 0x00, 0x33]
    ∧ m.readBytes .rxb 0 0 = [] := by decide

theorem witness_DecodeStaysInBounds :
    let m := (holding [] [] [0x02, 0x11]).mem
    (1 : Nat) ≤ 2 ∧ (Region.txb ≠ .aux ∨ (cobsDecode .aux .aux 2 m).size ≤ 0)
    ∧ (cobsDecode .aux .aux 2 m).size ≤ 1
    ∧ (holding [0x09] [] [0x02, 0x11, 0x05]).mem.readBytes .aux 0 2 = m.readBytes .aux 0 2 := by decide

theorem witness_InPlaceDecodeEqualsDecodeOfACopy :
    let m := (holding [0x02, 0x11, 0x02, 0x22] [] [0x02, 0x11, 0x02, 0x22]).mem
    m.readBytes .txb 0 4 = m.readBytes .aux 0 4 := by decide

theorem witness_FrameEncodeStuffsAcrossBuffers :
    State.reset.cfg.wf = true ∧ State.reset.cfg.msm < 17 ∧ regionOf .aux = some .aux ∧ regionOf .rxb = some .rxb
    ∧ 16 ≤ State.reset.cfg.msm ∧ BufId.aux ≠ .rxb ∧ polling.cfg.wf = true ∧ 16 ≤ polling.cfg.msm
    ∧ polling.owned .rxb = true ∧ State.reset.owned .rxb = false := by decide

theorem witness_FrameDecodeUnstuffs :
    State.reset.cfg.bufCap < 18 ∧ regionOf .aux = some .aux ∧ regionOf .rxb = some .rxb ∧ 17 ≤ State.reset.cfg.bufCap
    ∧ 17 ≤ polling.cfg.bufCap ∧ polling.owned .rxb = true ∧ State.reset.owned .rxb = false := by decide

theorem witness_CheckComputeGivesTheKeyedCheck :
    State.reset.cfg.bufCap < 1 + 17 ∧ regionOf .aux = some .aux ∧ 17 + 0 ≤ State.reset.cfg.bufCap
    ∧ State.reset.cfg.key ≠ [] ∧ 17 + 0 ≤ keyless.cfg.bufCap ∧ keyless.cfg.key = [] := by decide

theorem witness_KeyedCheckArithmetic :
    fletcher16 ({ Config.testCfg with key := [0x00] } : Config).key = fletcher16 ({ Config.testCfg with key := [0xFF] } : Config).key
    ∧ Config.testCfg.key = smallest.key := by decide

theorem witness_LayoutConversionsAgree : 3 ≤ 3 ∧ 255 ≤ 255 ∧ 2 < 3 := by decide

theorem witness_MsgEncodeBuildsTheStuffedFrame :
    State.reset.cfg.wf = true ∧ 2 < 3 ∧ State.reset.cfg.msm < 17 ∧ regionOf .rxb = some .rxb ∧ 3 ≤ 16
    ∧ 16 ≤ State.reset.cfg.msm ∧ polling.cfg.wf = true ∧ 16 ≤ polling.cfg.msm ∧ polling.owned .rxb = true
    ∧ keyless.cfg.wf = true ∧ 16 ≤ keyless.cfg.msm ∧ keyless.owned .rxb = false ∧ keyless.cfg.key = []
    ∧ State.reset.owned .rxb = false ∧ State.reset.cfg.key ≠ [] := by decide

theorem witness_MsgDecodeValidatesTheFrame :
    State.reset.cfg.bufCap < 18 ∧ regionOf .rxb = some .rxb ∧ 17 ≤ State.reset.cfg.bufCap
    ∧ 17 ≤ polling.cfg.bufCap ∧ polling.owned .rxb = true ∧ 17 ≤ keyless.cfg.bufCap ∧ keyless.owned .rxb = false
    ∧ keyless.cfg.key = [] ∧ State.reset.owned .rxb = false ∧ State.reset.cfg.key ≠ [] := by decide

theorem witness_MessageRoundTrip :
    let s := holding [0x00, 0x00, 0x42, 0x01, 0x00, 0x02] [] []
    s.cfg.wf = true ∧ s.cfg.key ≠ [] ∧ regionOf .txb = some .txb ∧ s.owned .txb = false
    ∧ ([0x01, 0x00, 0x02] : List Byte).length ≤ s.cfg.psm ∧ s.mem.readByte .txb 2 = 0x42#8
    ∧ s.mem.readBytes .txb 3 ([0x01, 0x00, 0x02] : List Byte).length = [0x01, 0x00, 0x02] := by decide

theorem witness_TxCansendReportsCanSend :
    (sending .sendingData 0).txState ≠ .notSending ∧ State.reset.txState = .notSending := by decide

theorem witness_TxSendAcceptsOrRejects :
    let s := answering State.reset [5000] [] [3] [] [] []
    let r := answering State.reset [5000] [] [2] [] [] []
    s.cfg.bufCap < 18 ∧ 2 ≤ s.cfg.bufCap ∧ 2 < 3 ∧ (sending .sendingData 0).txState ≠ .notSending
    ∧ 3 ≤ (sending .sendingData 0).cfg.bufCap
    ∧ 17 ≤ r.cfg.bufCap ∧ 3 ≤ 17 ∧ r.txState = .notSending ∧ r.sampledLink.availableForWrite.1 < r.cfg.txMinHeadroom
    ∧ 17 ≤ s.cfg.bufCap ∧ s.txState = .notSending ∧ s.cfg.txMinHeadroom ≤ s.sampledLink.availableForWrite.1 := by decide

theorem witness_TxStepSuspends :
    let late := answering (sending .sendingData 0) [101] [] [] [] [] []
    let down := answering (sending .sendingData 0) [100] [false] [] [] [] []
    State.reset.txState = .notSending ∧ late.txState ≠ .notSending ∧ late.writeDeadlinePassed
    ∧ down.txState ≠ .notSending ∧ ¬ down.writeDeadlinePassed ∧ down.stepConnected = false := by decide

theorem witness_TxStepWritesTheStartDelimiter :
    let full := answering (sending .sendingStartDelimiter 0) [100] [true] [0] [] [] []
    let one := answering (sending .sendingStartDelimiter 0) [100] [true] [1] [1] [] []
    full.txState = .sendingStartDelimiter ∧ ¬ full.writeDeadlinePassed ∧ full.stepConnected = true ∧ full.stepRoom = 0
    ∧ one.txState = .sendingStartDelimiter ∧ ¬ one.writeDeadlinePassed ∧ one.stepConnected = true ∧ 1 ≤ one.stepRoom := by
  decide

theorem witness_TxStepWritesADataChunk :
    let full := answering (sending .sendingData 2) [100] [true] [0] [] [] []
    let one := answering (sending .sendingData 3) [100] [true] [1] [1] [] []
    full.cfg.wf = true ∧ full.TxInv ∧ full.txState = .sendingData ∧ ¬ full.writeDeadlinePassed ∧ full.stepConnected = true
    ∧ full.stepRoom = 0 ∧ one.cfg.wf = true ∧ one.TxInv ∧ one.txState = .sendingData ∧ ¬ one.writeDeadlinePassed
    ∧ one.stepConnected = true ∧ 1 ≤ one.stepRoom ∧ one.txSent ≠ one.txSize := by decide

theorem witness_TxStepWritesADataChunk_all_sent :
    let s := answering (sending .sendingData 4) [100] [true] [9] [] [] []
    s.cfg.wf = true ∧ s.TxInv ∧ s.txState = .sendingData ∧ ¬ s.writeDeadlinePassed ∧ s.stepConnected = true
    ∧ s.txSent = s.txSize := by decide

theorem witness_TxStepWritesTheEndDelimiter :
    let full := answering (sending .sendingEndDelimiter 4) [100] [true] [0] [] [] []
    let none := answering (sending .sendingEndDelimiter 4) [100] [true] [1] [0] [] []
    let one := answering (sending .sendingEndDelimiter 4) [100] [true] [1] [1] [] []
    full.txState = .sendingEndDelimiter ∧ ¬ full.writeDeadlinePassed ∧ full.stepConnected = true ∧ full.stepRoom = 0
    ∧ none.txState = .sendingEndDelimiter ∧ ¬ none.writeDeadlinePassed ∧ none.stepConnected = true ∧ 1 ≤ none.stepRoom
    ∧ (none.roomLink.write [0x00#8]).1 ≠ 1
    ∧ one.txState = .sendingEndDelimiter ∧ ¬ one.writeDeadlinePassed ∧ one.stepConnected = true ∧ 1 ≤ one.stepRoom
    ∧ (one.roomLink.write [0x00#8]).1 = 1 := by decide

theorem witness_ATransferPutsExactlyItsFrameOnTheWire :
    let s := answering (sending .sendingEndDelimiter 4) [100] [true] [1] [1] [] []
    let s' : State := { s with link := { s.link with outbound := [0x55#8] ++ s.sentSoFar } }
    s'.cfg.wf = true ∧ s'.TxInv ∧ s'.txState ≠ .notSending ∧ s'.link.outbound = [0x55#8] ++ s'.sentSoFar
    ∧ ∃ t, exec .txStep s' = .next t := by
  exact ⟨by decide, by decide, by decide, by decide, _, rfl⟩

theorem witness_RxStartEnablesTheReceiver :
    polling.rxLife ≠ .disabled ∧ keyless.rxLife = .disabled ∧ keyless.cfg.key = [] ∧ State.reset.rxLife = .disabled
    ∧ State.reset.cfg.key ≠ [] := by decide

theorem witness_RxStopDisablesTheReceiver : State.reset.rxLife = .disabled ∧ accumulating.rxLife ≠ .disabled := by decide

theorem witness_RxStepWithoutALink :
    let down := answering accumulating [60] [false] [] [] [] []
    State.reset.rxLife = .disabled ∧ down.rxLife ≠ .disabled ∧ down.stepConnected = false := by decide

theorem witness_RxStepThatClosesNoFrame :
    let late := answering accumulating [51] [true] [] [] [0] []
    let soon := answering accumulating [50] [true] [] [] [0] []
    late.cfg.wf = true ∧ late.rxLife ≠ .disabled ∧ late.stepConnected = true ∧ late.connectedLink.available.1 = 0
    ∧ (late.rxAcc = .readingData ∧ late.cfg.readTimeoutMs < (late.sampledNow - late.rxLastTime).toNat)
    ∧ soon.cfg.wf = true ∧ soon.rxLife ≠ .disabled ∧ soon.stepConnected = true ∧ soon.connectedLink.available.1 = 0
    ∧ ¬ (soon.rxAcc = .readingData ∧ soon.cfg.readTimeoutMs < (soon.sampledNow - soon.rxLastTime).toNat) := by decide

/-- Reads up to MAX_IN from WaitingForTransport (table V45-2, group 4), and reads until `T.available()` answers 0 in the middle
of a frame, past the idle timeout (table V45-3). -/
theorem witness_RxStepThatClosesNoFrame_with_bytes :
    let full := answering { State.reset with rxLife := .waitingForTransport } [100] [true] [] [] [9, 8, 7, 6, 5, 4, 3, 2]
      [0x33, 0x00, 0x00, 0x01, 0x02, 0x00, 0x01, 0x02, 0x03]
    let part := answering accumulating [400] [true] [] [] [1, 0] [0xBB]
    full.rxLife ≠ .disabled ∧ full.stepConnected = true
    ∧ (full.connectedLink.readsBytes [0x33, 0x00, 0x00, 0x01, 0x02, 0x00, 0x01, 0x02]).isSome = true
    ∧ (full.linkReported.accumulate [0x33, 0x00, 0x00, 0x01, 0x02, 0x00, 0x01, 0x02]).isSome = true
    ∧ ([0x33, 0x00, 0x00, 0x01, 0x02, 0x00, 0x01, 0x02] : List Byte).length = full.cfg.maxIn
    ∧ part.rxLife ≠ .disabled ∧ part.stepConnected = true ∧ ([0xBB] : List Byte).length < part.cfg.maxIn
    ∧ (part.connectedLink.readsBytes [0xBB]).map (fun l => l.available.1) = some 0
    ∧ (part.linkReported.accumulate [0xBB]).isSome = true := by decide

theorem witness_EveryByteIsClassified :
    State.reset.rxAcc = .waitingForStart ∧ polling.rxAcc = .waitingForData ∧ accumulating.rxAcc = .readingData
    ∧ accumulating.rxSize.toNat < 3 ∧ 3 ≤ ({ accumulating with rxSize := 3 } : State).rxSize.toNat
    ∧ ({ accumulating with rxSize := 16 } : State).rxSize.toNat < accumulating.cfg.bufCap
    ∧ accumulating.cfg.bufCap ≤ ({ accumulating with rxSize := 17 } : State).rxSize.toNat := by decide

theorem witness_StepsDoBoundedTransportWork :
    let s := answering (sending .sendingData 0) [100] [true] [9] [4] [] []
    let r := answering polling [9] [true] [] [] [1, 0] [0x04]
    s.cfg.wf = true ∧ r.cfg.wf = true ∧ writeCalls (after (exec .txStep s)).link.calls = [([0x04, 0x61, 0xBB, 0x07], 4)]
    ∧ readCalls (after (exec .rxStep r)).link.calls = [0x04#8]
    ∧ (∃ t, exec .txStep s = .next t) ∧ ∃ t, exec .rxStep r = .next t := by
  exact ⟨by decide, by decide, by decide, by decide, ⟨_, rfl⟩, _, rfl⟩

theorem witness_NoDeliveryWithoutValidation :
    let s := answering polling [9] [true] [] [] [5, 4, 3, 2, 1] [0x04, 0x61, 0xBB, 0x07, 0x00]
    s.cfg.wf = true ∧ s.RxInv ∧ 0 < 256 ∧ ∃ t, exec .rxStep s = .next t ∧ (Event.msgReceived 0x07#8 0).word ∈ t.events := by
  exact ⟨by decide, by decide, by decide, _, rfl, by decide⟩

theorem witness_RxStepThatClosesAFrame :
    let s := answering polling [9] [true] [] [] [5, 4, 3, 2, 1] [0x04, 0x61, 0xBB, 0x07, 0x00, 0x31]
    let stuffed := cobsEncode (frameOf s.cfg [0x07])
    s.cfg.wf = true ∧ s.cfg.key ≠ [] ∧ ([] : List Byte).length ≤ s.cfg.psm ∧ s.rxLife = .polling ∧ s.rxAcc = .waitingForData
    ∧ s.stepConnected = true ∧ stuffed.length + 1 ≤ s.cfg.maxIn ∧ (∀ n ∈ [5, 4, 3, 2, 1], n ≠ 0)
    ∧ [5, 4, 3, 2, 1].length = stuffed.length + 1 ∧ s.connectedLink.availableIn = [5, 4, 3, 2, 1]
    ∧ s.connectedLink.byteIn = stuffed ++ [0x00#8] ++ [0x31#8] := by decide

/-- A valid frame closed from Accumulating and a check mismatch closed from Polling (table V45-3); three stuffed bytes, which
fail to un-stuff to a frame (table V45-2, group 5). -/
theorem witness_RxStepThatClosesAFrame_valid_and_not :
    let good := answering accumulating [400] [true] [] [] [3, 2, 1] [0xBB, 0x07, 0x00]
    let bad := answering polling [9] [true] [] [] [5, 4, 3, 2, 1] [0x04, 0x61, 0xBB, 0x08, 0x00]
    let short := answering polling [9] [true] [] [] [4, 3, 2, 1] [0x01, 0x02, 0x03, 0x00]
    let closes (s : State) (xs : List Byte) : Prop := s.rxLife ≠ .disabled ∧ s.stepConnected = true
      ∧ xs.length + 1 ≤ s.cfg.maxIn ∧ (s.connectedLink.readsBytes (xs ++ [0x00#8])).isSome = true
      ∧ (s.linkReported.accumulate xs).map (fun u => (u.rxAcc, decide (3 ≤ u.rxSize.toNat))) = some (.readingData, true)
    closes good [0xBB, 0x07] ∧ closes bad [0x04, 0x61, 0xBB, 0x08] ∧ closes short [0x01, 0x02, 0x03] := by decide

theorem witness_OwnedBuffersAreNotWritten :
    (∃ t, exec (.bufWr .txb 0 9) (sending .sendingData 0) = .next t) ∧ (sending .sendingData 0).txState ≠ .notSending
    ∧ (∃ t, exec (.msgDecode .rxb 2) accumulating = .next t) ∧ accumulating.rxLife ≠ .disabled
    ∧ Instr.msgDecode .rxb 2 ≠ .rxStep := by
  exact ⟨⟨_, rfl⟩, by decide, ⟨_, rfl⟩, by decide, by decide⟩

theorem witness_TransmitterAndReceiverShareNothing :
    (∃ t, exec .txStep (sending .sendingData 0) = .next t) ∧ ∃ t, exec .rxStep accumulating = .next t :=
  ⟨⟨_, rfl⟩, _, rfl⟩

theorem witness_OnlyLinkCommandsCallOrEmit :
    (∃ t, exec .rxWake polling = .next t) ∧ ∃ t, exec (.txSend 4) State.reset = .next t := by
  refine ⟨⟨_, rfl⟩, ?_⟩
  simp only [exec, execTxSend]
  repeat' split
  all_goals exact ⟨_, rfl⟩

theorem witness_ACommandRefusedUpToKeyHasNoEffect :
    (∃ t, exec (.txSend 18) State.reset = .next t ∧ t.status = 0x20#32)
    ∧ (∃ t, exec (.frameEncode .aux .aux 1) State.reset = .next t ∧ t.status = 0x30#32)
    ∧ (∃ t, exec (.bufWr .rxb 1 1) polling = .next t ∧ t.status = 0x40#32)
    ∧ ∃ t, exec .rxStart keyless = .next t ∧ t.status = 0x50#32 := by
  exact ⟨⟨_, rfl, by decide⟩, ⟨_, rfl, by decide⟩, ⟨_, rfl, by decide⟩, _, rfl, by decide⟩

theorem witness_NoCommandReadsAnEarlierOutcome : Instr.regRd 1 ≠ .regRd 0 ∧ Instr.rxStep ≠ .regRd 0 := by decide

theorem witness_KeysWithEqualSumsAreIndistinguishable :
    let s : State := State.resetWith { Config.testCfg with key := [0x00] }
    s.cfg.key ≠ [] ∧ ([0xFF] : List Byte) ≠ [] ∧ fletcher16 [0xFF] = fletcher16 s.cfg.key
    ∧ ∃ t, exec (.checkCompute .aux 0 0) s = .next t := by
  exact ⟨by decide, by decide, by decide, _, rfl⟩

theorem witness_ReArmRequestsAreWellFormed :
    let s := answering polling [9] [true] [] [] [0] []
    s.cfg.wf = true ∧ Instr.rxStep ∈ [Instr.txStep, .rxStep, .rxWake] ∧ ∃ t, exec .rxStep s = .next t := by
  exact ⟨by decide, by decide, _, rfl⟩

theorem witness_PseudoInstructionsExpand : assemble "RD_STATUS" = some [.regRd 0] ∧ Instr.regRd 0 ∈ rdStatus := by decide

end Sys2Proof.Machine.Tests
end

/-! # The state of the block: what every command keeps

`exec_effect` says once, for every command, how the state it leaves differs from the state it found: a command answers
(STATUS, RESULT, events, the edge, and perhaps one unowned buffer), or it is one of the six cases in which a machine moves.
The invariants of 10_state.md R42, R43, R61, R40, R25 and R44 are then read off case by case. -/

section
namespace Sys2Proof.Machine

/-! ### Legal configurations -/

theorem Config.msm_bounds {c : Config} (h : c.wf = true) : 3 ≤ c.msm ∧ c.msm ≤ 253 := by
  simp only [Config.wf, Bool.and_eq_true, decide_eq_true_eq] at h
  omega

/-- A buffer size fits an 8-bit register (10_state.md R28, R33; log 12). -/
theorem Config.bufCap_le {c : Config} (h : c.wf = true) : c.bufCap ≤ 254 := by
  have := (Config.msm_bounds h).2
  simp only [Config.bufCap]
  omega

/-! ### Legal STATUS values (R23, R25) -/

theorem legalStatus_ok : LegalStatus (statusWord true .none) := .inl rfl

theorem legalStatus_error {c : CErr} (h : c ≠ .none) : LegalStatus (statusWord false c) := by
  refine .inr ⟨c, ?_, rfl⟩
  cases c <;> simp at h ⊢

/-- The two fields of a legal STATUS agree (R25). -/
theorem LegalStatus.fields {w : Word} (h : LegalStatus w) :
    (w.toNat % 2 = 1 → w.toNat / 16 % 16 = 0)
    ∧ (w.toNat % 2 = 0 → 1 ≤ w.toNat / 16 % 16 ∧ w.toNat / 16 % 16 ≤ 8) := by
  obtain rfl | ⟨c, hc, rfl⟩ := h
  · decide
  · revert c
    decide

/-! ### What a command may write to buffer memory -/

/-- The memory `m` is one that a command other than RX_STEP may leave: it respects ownership (R44) and keeps the canonical form
and the bounds (R61). -/
structure State.MayLeave (s : State) (m : Memory) : Prop where
  txb : s.owned .txb = true → m.txb = s.mem.txb
  rxb : s.owned .rxb = true → m.rxb = s.mem.rxb
  wf : s.mem.wf = true → m.wf = true
  within : s.cfg.wf = true → s.mem.within s.cfg = true → m.within s.cfg = true

theorem State.MayLeave.refl (s : State) : s.MayLeave s.mem := ⟨fun _ => rfl, fun _ => rfl, id, fun _ => id⟩

/-- A command writes one buffer `b` that no machine owns, and SCRATCH. -/
theorem State.MayLeave.of_unowned {s : State} {m : Memory} {b : Region} (hb : s.owned b = false)
    (hcells : ∀ b', b' ≠ b → b' ≠ .scratch → m.cells b' = s.mem.cells b') (hwf : s.mem.wf = true → m.wf = true)
    (hin : s.cfg.wf = true → s.mem.within s.cfg = true → m.within s.cfg = true) : s.MayLeave m where
  txb h := hcells .txb (by rintro rfl; simp [h] at hb) (by decide)
  rxb h := hcells .rxb (by rintro rfl; simp [h] at hb) (by decide)
  wf := hwf
  within := hin

/-- A sequence of writes inside an unowned buffer, as BUF_WR and FRAME_ENCODE make it. -/
theorem State.MayLeave.writeBytes {s : State} {b : Region} {off : Nat} {xs : List Byte} (hb : s.owned b = false)
    (hlen : s.cfg.wf = true → off + xs.length ≤ b.capacity s.cfg) : s.MayLeave (s.mem.writeBytes b off xs) :=
  .of_unowned hb (fun _ hne _ => Memory.cells_writeBytes_other _ _ _ hne) (Memory.wf_writeBytes b off xs)
    fun hc => Memory.within_writeBytes xs (hlen hc)

/-- An un-stuffing into an unowned buffer, as FRAME_DECODE and MSG_DECODE make it. -/
theorem State.MayLeave.cobsDecode {s : State} {src dst : Region} {n : Nat} (hb : s.owned dst = false)
    (hn : n ≤ dst.capacity s.cfg) : s.MayLeave (cobsDecode src dst n s.mem).mem := by
  refine .of_unowned hb (fun _ hne _ => ?_) (cobsDecode_wf src dst n) fun _ => cobsDecode_within src hn
  rw [cobsDecode_eq]
  exact Memory.cells_writeBytes_other _ _ _ hne

/-- MessageEncode writes its buffer and SCRATCH only. -/
theorem messageEncode_cells_other (c : Config) {b b' : Region} (n : Nat) (m : Memory) (hn : 3 ≤ n) (hb : b' ≠ b)
    (hs : b' ≠ .scratch) : (messageEncode c b n m).cells b' = m.cells b' := by
  rw [messageEncode_eq c b n m hn, Memory.cells_writeBytes_other _ _ _ hb, Memory.cells_writeBytes_other _ _ _ hs]
  simp [insertCheck, Memory.writeByte, Memory.cells_withCells_other _ _ hb]

/-- The in-place encoding of a message of legal size in an unowned buffer (R173). -/
theorem State.MayLeave.messageEncode {s : State} {b : Region} {n : Nat} (hb : s.owned b = false) (hs : b ≠ .scratch)
    (hn : 3 ≤ n) (hm : n ≤ s.cfg.msm) : s.MayLeave (messageEncode s.cfg b n s.mem) :=
  .of_unowned hb (fun _ => messageEncode_cells_other s.cfg n s.mem hn) (messageEncode_wf s.cfg b n)
    fun hc => messageEncode_within (Config.msm_bounds hc).2 hs hn hm

/-! ### Answers: commands that move no machine -/

/-- `t` is `s` with an answer: a legal STATUS, a RESULT, events and an edge, and a memory that `s` may leave. Every register of
the two machines is as it was. -/
def State.Answers (s t : State) : Prop :=
  ∃ (m : Memory) (l : Link) (events : List Word) (status result : Word), s.MayLeave m ∧ LegalStatus status
    ∧ t = (((s.withMem m).withLink l).withEvents events).respond status result

/-- A success over an edge that has moved on, with no buffer write. -/
theorem State.answers_succeed (s : State) (l : Link) (v : Word) : s.Answers ((s.beginCommand.withLink l).succeed v) :=
  ⟨s.mem, l, [], _, v, .refl s, legalStatus_ok, rfl⟩

/-- A success that writes a buffer. -/
theorem State.answers_write {s : State} {m : Memory} (hm : s.MayLeave m) (v : Word) :
    s.Answers ((s.beginCommand.withMem m).succeed v) :=
  ⟨m, s.link.forgetCalls, [], _, v, hm, legalStatus_ok, rfl⟩

/-- A failure after a buffer write (R109, R176). -/
theorem State.answers_fail {s : State} {m : Memory} (hm : s.MayLeave m) {c : CErr} (v : Word) (hc : c ≠ .none := by decide) :
    s.Answers ((s.beginCommand.withMem m).fail c v) :=
  ⟨m, s.link.forgetCalls, [], _, v, hm, legalStatus_error hc, rfl⟩

/-- A raise over an edge and an event list that have moved on (R312). -/
theorem State.answers_raise (s : State) (l : Link) (events : List Word) {c : CErr} (hc : c ≠ .none := by decide) :
    s.Answers (((s.beginCommand.withLink l).withEvents events).raise c) :=
  ⟨s.mem, l, events, _, 0, .refl s, legalStatus_error hc, rfl⟩

/-- A raise that does nothing else. -/
theorem State.answers_refuse (s : State) {c : CErr} (hc : c ≠ .none := by decide) : s.Answers (s.beginCommand.raise c) :=
  s.answers_raise s.link.forgetCalls [] hc

/-! ### Each command that only answers -/

theorem execBufRd_answers {buf : BufId} {off : Nat} {s t : State} (h : execBufRd buf off s = .next t) : s.Answers t := by
  simp only [execBufRd] at h
  split at h
  · cases h; exact s.answers_refuse
  · split at h <;> cases h
    · exact s.answers_refuse
    · exact s.answers_succeed _ _

theorem execBufWr_answers {buf : BufId} {off : Nat} {val : Byte} {s t : State} (h : execBufWr buf off val s = .next t) :
    s.Answers t := by
  simp only [execBufWr] at h
  split at h
  · cases h; exact s.answers_refuse
  next b hb =>
    split at h
    · cases h; exact s.answers_refuse
    next hoff =>
      split at h <;> cases h
      · exact s.answers_refuse
      next hown =>
        refine State.answers_write (State.MayLeave.writeBytes (xs := [val]) (by simpa using hown) fun _ => ?_) _
        rw [regionOf_capacity hb]
        simpa using hoff

theorem execRegRd_answers {reg : Nat} {s t : State} (h : execRegRd reg s = .next t) : s.Answers t := by
  simp only [execRegRd] at h
  split at h <;> cases h
  · exact s.answers_refuse
  · exact s.answers_succeed _ _

theorem execFrameEncode_answers {src dst : BufId} {n : Nat} {s t : State} (h : execFrameEncode src dst n s = .next t) :
    s.Answers t := by
  simp only [execFrameEncode] at h
  split at h
  next a b _ hb =>
    split at h
    · cases h; exact s.answers_refuse
    next hn =>
      split at h
      · cases h; exact s.answers_refuse
      · split at h <;> cases h
        · exact s.answers_refuse
        next hown =>
          refine State.answers_write (State.MayLeave.writeBytes (by simpa using hown) fun hc => ?_) _
          have hmsm := (Config.msm_bounds hc).2
          simp only [State.beginCommand_cfg] at hn
          rw [cobsEncode_length (by simp; omega), regionOf_capacity hb, Config.bufCap]
          simp
          omega
  · cases h; exact s.answers_refuse

theorem execFrameDecode_answers {src dst : BufId} {n : Nat} {s t : State} (h : execFrameDecode src dst n s = .next t) :
    s.Answers t := by
  simp only [execFrameDecode] at h
  split at h
  next a b _ hb =>
    split at h
    · cases h; exact s.answers_refuse
    next hn =>
      split at h
      · cases h; exact s.answers_refuse
      next hown =>
        have hleave : s.MayLeave (cobsDecode a b n s.mem).mem :=
          .cobsDecode (by simpa using hown) (by rw [regionOf_capacity hb]; simpa using hn)
        split at h <;> cases h
        · exact State.answers_write hleave _
        · exact State.answers_fail hleave _
  · cases h; exact s.answers_refuse

theorem execCheckSetup_answers {s t : State} (h : execCheckSetup s = .next t) : s.Answers t := by
  cases h
  exact s.answers_succeed _ _

theorem execCheckCompute_answers {buf : BufId} {off len : Nat} {s t : State}
    (h : execCheckCompute buf off len s = .next t) : s.Answers t := by
  simp only [execCheckCompute] at h
  split at h
  · cases h; exact s.answers_refuse
  · split at h
    · cases h; exact s.answers_refuse
    · split at h <;> cases h
      · exact s.answers_refuse
      · exact s.answers_succeed _ _

theorem execLayoutMsgsize_answers {psize : Nat} {s t : State} (h : execLayoutMsgsize psize s = .next t) :
    s.Answers t := by
  cases h
  exact s.answers_succeed _ _

theorem execLayoutPaysize_answers {msize : Nat} {s t : State} (h : execLayoutPaysize msize s = .next t) :
    s.Answers t := by
  cases h
  exact s.answers_succeed _ _

theorem execMsgEncode_answers {buf : BufId} {n : Nat} {s t : State} (h : execMsgEncode buf n s = .next t) :
    s.Answers t := by
  simp only [execMsgEncode] at h
  split at h
  · cases h; exact s.answers_refuse
  next b hb =>
    split at h
    · cases h; exact s.answers_refuse
    next hn =>
      split at h
      · cases h; exact s.answers_refuse
      next hown =>
        split at h <;> cases h
        · exact s.answers_refuse
        · simp only [Config.msgMin, State.beginCommand_cfg, not_or, Nat.not_lt] at hn
          exact State.answers_write (.messageEncode (by simpa using hown) (regionOf_ne_scratch hb) hn.1 hn.2) _

theorem execMsgDecode_answers {buf : BufId} {size : Nat} {s t : State} (h : execMsgDecode buf size s = .next t) :
    s.Answers t := by
  simp only [execMsgDecode, messageDecodeValidate_mem] at h
  split at h
  · cases h; exact s.answers_refuse
  next b hb =>
    split at h
    · cases h; exact s.answers_refuse
    next hn =>
      split at h
      · cases h; exact s.answers_refuse
      next hown =>
        have hleave : s.MayLeave (cobsDecode b b size s.mem).mem :=
          .cobsDecode (by simpa using hown) (by rw [regionOf_capacity hb]; simpa using hn)
        split at h
        · cases h; exact s.answers_refuse
        · split at h
          · cases h; exact State.answers_write hleave _
          · split at h <;> cases h
            · exact State.answers_fail hleave _
            · exact State.answers_fail hleave _

theorem execTxCansend_answers {s t : State} (h : execTxCansend s = .next t) : s.Answers t := by
  simp only [execTxCansend] at h
  split at h <;> cases h
  · exact s.answers_succeed _ _
  · exact s.answers_succeed _ _

theorem execRxWake_answers {s t : State} (h : execRxWake s = .next t) : s.Answers t := by
  cases h
  exact s.answers_succeed _ _

theorem illegalCommand_answers (s : State) : s.Answers (illegalCommand s) := s.answers_refuse

/-! ### What any command can do -/

/-- Every way a command can go: it answers, or a machine moves. -/
inductive CommandEffect (s : State) : Instr → State → Prop
  | answer {i : Instr} {t : State} : s.Answers t → CommandEffect s i t
  /-- TX_SEND accepts (R204). -/
  | sendAccepted {n : Nat} (now : Word) (l : Link) : Config.msgMin ≤ n → n ≤ s.cfg.bufCap →
      CommandEffect s (.txSend n) ((startTransfer now n (s.beginCommand.withLink l)).succeed 1)
  /-- TX_STEP (R205). -/
  | txStep (now : Word) (l : Link) : CommandEffect s .txStep (txStepAt now (s.beginCommand.withLink l))
  /-- TX_STOP (R212). -/
  | txStop : CommandEffect s .txStop ((s.beginCommand.withTxState .notSending).succeed 0)
  /-- RX_START enables a disabled Receiver that has a key (R242). -/
  | rxStarted : s.cfg.keyValid = true →
      CommandEffect s .rxStart ((s.beginCommand.callBegin.resetReceiver .waitingForTransport).succeed 0)
  /-- RX_STOP disables an enabled Receiver (R243). -/
  | rxStopped : CommandEffect s .rxStop ((s.beginCommand.reportLinkDown.callEnd.resetReceiver .disabled).succeed 0)
  /-- RX_STEP (R244). -/
  | rxStep (now : Word) (l : Link) : CommandEffect s .rxStep (rxStepAt now (s.beginCommand.withLink l))

theorem execTxSend_effect {n : Nat} {s t : State} (h : execTxSend n s = .next t) : CommandEffect s (.txSend n) t := by
  simp only [execTxSend] at h
  split at h
  · cases h; exact .answer (s.answers_raise s.sampledLink [])
  next hcap =>
    split at h
    · cases h; exact .answer (s.answers_raise s.sampledLink [])
    next hmin =>
      split at h
      · cases h; exact .answer (s.answers_raise s.sampledLink [])
      · split at h <;> cases h
        · exact .answer (s.answers_raise s.sampledLink.availableForWrite.2 [])
        · exact .sendAccepted _ _ (Nat.not_lt.1 hmin) (Nat.not_lt.1 hcap)

theorem execRxStart_effect {s t : State} (h : execRxStart s = .next t) : CommandEffect s .rxStart t := by
  simp only [execRxStart] at h
  split at h
  · cases h; exact .answer (s.answers_succeed _ _)
  · split at h <;> cases h
    · exact .answer (s.answers_raise _ _)
    next hkey => exact .rxStarted (by simpa using hkey)

theorem execRxStop_effect {s t : State} (h : execRxStop s = .next t) : CommandEffect s .rxStop t := by
  simp only [execRxStop] at h
  split at h <;> cases h
  · exact .answer (s.answers_succeed _ _)
  · exact .rxStopped

/-- What the command `i` can do, for every one of the 19. -/
theorem exec_effect {i : Instr} {s t : State} (h : exec i s = .next t) : CommandEffect s i t := by
  cases i with
  | bufRd => exact .answer (execBufRd_answers h)
  | bufWr => exact .answer (execBufWr_answers h)
  | regRd => exact .answer (execRegRd_answers h)
  | frameEncode => exact .answer (execFrameEncode_answers h)
  | frameDecode => exact .answer (execFrameDecode_answers h)
  | checkSetup => exact .answer (execCheckSetup_answers h)
  | checkCompute => exact .answer (execCheckCompute_answers h)
  | layoutMsgsize => exact .answer (execLayoutMsgsize_answers h)
  | layoutPaysize => exact .answer (execLayoutPaysize_answers h)
  | msgEncode => exact .answer (execMsgEncode_answers h)
  | msgDecode => exact .answer (execMsgDecode_answers h)
  | txCansend => exact .answer (execTxCansend_answers h)
  | txSend => exact execTxSend_effect h
  | txStep => cases h; exact .txStep _ _
  | txStop => cases h; exact .txStop
  | rxStart => exact execRxStart_effect h
  | rxStop => exact execRxStop_effect h
  | rxStep => cases h; exact .rxStep _ _
  | rxWake => exact .answer (execRxWake_answers h)

/-- A property that the delivery of a word, an answer and every command keep, a step keeps. -/
theorem step_keeps {P : State → Prop} (hpend : ∀ s p, P s → P (s.withPending p))
    (hans : ∀ s t, P s → s.Answers t → P t) (hexec : ∀ i s t, P s → CommandEffect s i t → P t)
    {s t : State} (hs : P s) (h : step s = .next t) : P t := by
  simp only [step, State.nextCommand?] at h
  cases hp : s.pending with
  | nil =>
    simp only [hp] at h
    cases h
    exact hs
  | cons w rest =>
    simp only [hp] at h
    cases hd : decode w with
    | ok i =>
      simp only [hd] at h
      exact hexec i _ _ (hpend s rest hs) (exec_effect h)
    | error e =>
      simp only [hd] at h
      cases h
      exact hans _ _ (hpend s rest hs) (illegalCommand_answers _)

/-! ### The step commands end with STATUS OK -/

@[simp] theorem txWork_status (room : Nat) (s : State) : (txWork room s).status = statusWord true .none := by
  simp only [txWork, txStartDelimiter, txData, txEndDelimiter]
  repeat' split
  all_goals rfl

theorem txStepAt_status (now : Word) (s : State) : (txStepAt now s).status = statusWord true .none := by
  rcases txStepAt_cases now s with ⟨_, h⟩ | ⟨_, _, _, _, h⟩ | ⟨_, _, _, h⟩ | ⟨_, _, _, h⟩ <;> simp [h]

theorem rxStepAt_status (now : Word) (s : State) : (rxStepAt now s).status = statusWord true .none := by
  rcases rxStepAt_cases now s with ⟨_, h⟩ | ⟨_, _, h⟩ | ⟨_, _, h⟩ <;> simp [h, rxLinkDown, rxConnected, rxFinish]

/-- Settles O13: every case of `exec_effect` ends with a legal STATUS. -/
theorem everyCommandLeavesALegalStatus : Obligations.EveryCommandLeavesALegalStatus := by
  intro i s t h
  have legal : LegalStatus t.status := by
    cases exec_effect h with
    | answer ha => obtain ⟨_, _, _, _, _, _, hst, rfl⟩ := ha; exact hst
    | sendAccepted | txStop | rxStarted | rxStopped => exact legalStatus_ok
    | txStep => rw [txStepAt_status]; exact legalStatus_ok
    | rxStep => rw [rxStepAt_status]; exact legalStatus_ok
  exact ⟨legal, legal.fields⟩

/-! ### The configuration (R40) -/

theorem State.Answers.cfg_eq {s t : State} (h : s.Answers t) : t.cfg = s.cfg := by
  obtain ⟨_, _, _, _, _, _, _, rfl⟩ := h
  simp

theorem CommandEffect.cfg_eq {i : Instr} {s t : State} (h : CommandEffect s i t) : t.cfg = s.cfg := by
  cases h with
  | answer ha => exact ha.cfg_eq
  | sendAccepted | txStep | txStop | rxStarted | rxStopped | rxStep => simp

/-- Settles O14: no case of `exec_effect` writes the configuration record. -/
theorem noCommandChangesTheConfiguration : Obligations.NoCommandChangesTheConfiguration :=
  fun _ _ _ h => (exec_effect h).cfg_eq

/-! ### Ownership (R44) -/

/-- Settles O53: an answer respects ownership, the Transmitter's moves write no buffer, and RX_STEP writes RXB only. -/
theorem ownedBuffersAreNotWritten : Obligations.OwnedBuffersAreNotWritten := by
  intro i s t h
  cases exec_effect h with
  | answer ha =>
    obtain ⟨m, _, _, _, _, hm, _, rfl⟩ := ha
    exact ⟨fun htx => hm.txb (by simpa [State.owned] using htx), fun hrx _ => hm.rxb (by simpa [State.owned] using hrx)⟩
  | sendAccepted | txStep | txStop | rxStarted | rxStopped => simp
  | rxStep now l =>
    exact ⟨fun _ => rxStepAt_cells now _ (b := .txb) (by decide), fun _ hne => absurd rfl hne⟩

/-! ### The transmitter invariant (R43, R28) -/

/-- The invariant speaks of five registers. -/
theorem State.TxInv.congr {s t : State} (hs : s.TxInv) (hcfg : t.cfg = s.cfg := by simp)
    (hstate : t.txState = s.txState := by simp) (hsize : t.txSize = s.txSize := by simp)
    (hsent : t.txSent = s.txSent := by simp) : t.TxInv := by
  simpa only [State.TxInv, hcfg, hstate, hsize, hsent] using hs

/-- A cancelled or ended send meets the invariant, whatever TX_STATE was. -/
theorem State.TxInv.notSending {s t : State} (hs : s.TxInv) (hcfg : t.cfg = s.cfg := by simp)
    (hstate : t.txState = .notSending := by simp) (hsize : t.txSize = s.txSize := by simp)
    (hsent : t.txSent = s.txSent := by simp) : t.TxInv := by
  obtain ⟨hle, hcap, -⟩ := hs
  simpa [State.TxInv, hcfg, hstate, hsize, hsent] using ⟨hle, hcap⟩

/-- An accepted send meets the invariant: a legal size loses nothing in its 8-bit register. -/
theorem startTransfer_txInv {now : Word} {n : Nat} {s : State} (hc : s.cfg.wf = true) (hmin : Config.msgMin ≤ n)
    (hcap : n ≤ s.cfg.bufCap) : (startTransfer now n s).TxInv := by
  have hn : n % 256 = n := Nat.mod_eq_of_lt (by have := Config.bufCap_le hc; omega)
  simpa [State.TxInv, hn] using ⟨hcap, hmin⟩

theorem txStartDelimiter_txInv (room : Nat) {s : State} (hs : s.TxInv) (h : s.txState = .sendingStartDelimiter) :
    (txStartDelimiter room s).TxInv := by
  obtain ⟨hle, hcap, -, -, hmin⟩ := id hs
  simp only [txStartDelimiter]
  split
  · split
    · simpa [State.TxInv, h] using ⟨hle, hcap, hmin (by simp [h])⟩
    · exact hs.congr
  · exact hs.congr

theorem txEndDelimiter_txInv (room : Nat) {s : State} (hs : s.TxInv) : (txEndDelimiter room s).TxInv := by
  simp only [txEndDelimiter]
  split
  · split
    · exact hs.notSending
    · exact hs.congr
  · exact hs.congr

/-- The transport accepts no more than the chunk, and the chunk ends at TX_SIZE (R209). -/
theorem txWriteChunk_txSent_le (room : Nat) {s : State} (h : s.txSent.toNat ≤ s.txSize.toNat) :
    (txWriteChunk room s).txSent.toNat ≤ s.txSize.toNat := by
  simp only [txWriteChunk]
  split
  · have hw := s.link.write_accepted_le (s.mem.readBytes .txb s.txSent.toNat (txChunk room s))
    have hk : txChunk room s ≤ s.txSize.toNat - s.txSent.toNat :=
      (Nat.min_le_right _ _).trans (Nat.min_le_right _ _)
    rw [Memory.readBytes_length] at hw
    simp only [State.callWrite_eq, State.withTxSent_txSent, BitVec.toNat_ofNat]
    exact (Nat.mod_le _ _).trans (by omega)
  · exact h

/-- A chunk's write changes TX_SENT and the edge alone. -/
theorem txWriteChunk_frame (room : Nat) (s : State) :
    (txWriteChunk room s).cfg = s.cfg ∧ (txWriteChunk room s).txState = s.txState
    ∧ (txWriteChunk room s).txSize = s.txSize := by
  simp only [txWriteChunk]
  split <;> simp

theorem txData_txInv (room : Nat) {s : State} (hs : s.TxInv) (h : s.txState = .sendingData) : (txData room s).TxInv := by
  obtain ⟨hle, hcap, -, -, hmin⟩ := hs
  have hsent := txWriteChunk_txSent_le room hle
  obtain ⟨hcfg, hstate, hsize⟩ := txWriteChunk_frame room s
  have hmin3 := hmin (by simp [h])
  simp only [txData]
  split
  next heq => simpa [State.TxInv, hcfg, hsize, heq] using ⟨hcap, hmin3⟩
  · simpa [State.TxInv, hcfg, hsize, hstate, h] using ⟨hsent, hcap, hmin3⟩

theorem txWork_txInv (room : Nat) {s : State} (hs : s.TxInv) : (txWork room s).TxInv := by
  simp only [txWork]
  split
  next h => exact txStartDelimiter_txInv room hs h
  · split
    next h => exact txData_txInv room hs h
    · exact txEndDelimiter_txInv room hs

theorem txStepAt_txInv (now : Word) {s : State} (hs : s.TxInv) : (txStepAt now s).TxInv := by
  rcases txStepAt_cases now s with ⟨_, h⟩ | ⟨_, _, _, _, h⟩ | ⟨_, _, _, h⟩ | ⟨_, _, _, h⟩ <;> rw [h]
  · exact hs.congr
  · exact hs.notSending
  · exact hs.congr
  · exact txWork_txInv _ (hs.congr)

theorem State.Answers.txInv {s t : State} (hs : s.TxInv) (h : s.Answers t) : t.TxInv := by
  obtain ⟨_, _, _, _, _, _, _, rfl⟩ := h
  exact hs.congr

theorem CommandEffect.txInv {i : Instr} {s t : State} (hc : s.cfg.wf = true) (hs : s.TxInv) (h : CommandEffect s i t) :
    t.TxInv := by
  cases h with
  | answer ha => exact ha.txInv hs
  | sendAccepted now l hmin hcap =>
    exact (startTransfer_txInv (now := now) (s := s.beginCommand.withLink l) hc hmin hcap).congr
  | txStep => exact txStepAt_txInv _ (hs.congr)
  | txStop => exact hs.notSending
  | rxStarted | rxStopped | rxStep => exact hs.congr

/-- Settles O9: every case of `exec_effect` keeps the transmitter invariant; the data step is the one that advances TX_SENT. -/
theorem stepKeepsTransmitterInvariant : Obligations.StepKeepsTransmitterInvariant := by
  intro s t hc hs h
  exact (step_keeps (P := fun s => s.cfg.wf = true ∧ s.TxInv) (fun _ _ h => h)
    (fun _ _ hs ha => ⟨ha.cfg_eq ▸ hs.1, ha.txInv hs.2⟩)
    (fun _ _ _ hs he => ⟨he.cfg_eq ▸ hs.1, he.txInv hs.1 hs.2⟩) ⟨hc, hs⟩ h).2

/-! ### The receiver invariant (R42, R33, R254) -/

/-- The invariant speaks of the configuration and three registers. -/
theorem State.RxInv.congr {s t : State} (hs : s.RxInv) (hcfg : t.cfg = s.cfg := by simp)
    (hlife : t.rxLife = s.rxLife := by simp) (hacc : t.rxAcc = s.rxAcc := by simp)
    (hsize : t.rxSize = s.rxSize := by simp) : t.RxInv := by
  simpa only [State.RxInv, hcfg, hlife, hacc, hsize] using hs

/-- A reset Receiver, disabled or waiting for the transport with a valid key, meets the invariant. -/
theorem resetReceiver_rxInv {s : State} {l : RxLife}
    (h : l = .disabled ∨ (l = .waitingForTransport ∧ s.cfg.keyValid = true)) : (s.resetReceiver l).RxInv := by
  obtain rfl | ⟨rfl, hkey⟩ := h
  · simp [State.RxInv]
  · simp [State.RxInv, hkey]

/-- The part of the invariant that holds between two bytes of one RX_STEP, where RX_LIFE lags behind the accumulator. -/
def State.AccInv (s : State) : Prop :=
  (s.rxAcc = .readingData ↔ 0 < s.rxSize.toNat) ∧ s.rxSize.toNat ≤ s.cfg.bufCap

theorem State.RxInv.accInv {s : State} (hs : s.RxInv) : s.AccInv := by
  obtain ⟨-, hacc, -, -, -, hcap, -⟩ := hs
  exact ⟨hacc, hcap⟩

theorem State.AccInv.congr {s t : State} (hs : s.AccInv) (hcfg : t.cfg = s.cfg := by simp)
    (hacc : t.rxAcc = s.rxAcc := by simp) (hsize : t.rxSize = s.rxSize := by simp) : t.AccInv := by
  simpa only [State.AccInv, hcfg, hacc, hsize] using hs

/-- An emptied accumulator. -/
theorem withAccumulator_zero_accInv (s : State) {a : RxAcc} (ha : a ≠ .readingData) : (s.withAccumulator a 0).AccInv := by
  simp [State.AccInv, ha]

/-- An accumulator with `n` bytes in it. -/
theorem withAccumulator_readingData_accInv {s : State} {n : Nat} (hc : s.cfg.wf = true) (hpos : 0 < n)
    (hcap : n ≤ s.cfg.bufCap) : (s.withAccumulator .readingData n).AccInv := by
  have hn : n % 256 = n := Nat.mod_eq_of_lt (by have := Config.bufCap_le hc; omega)
  simpa [State.AccInv, hn] using ⟨hpos, hcap⟩

/-- What the processing of one byte can do to the state (45_receiver.md R249 to R252). -/
inductive ByteEffect (x : Byte) (s : State) : State → Prop
  /-- A byte is discarded, is an idle marker, or closes a frame. -/
  | unchanged : ByteEffect x s s
  /-- A delimiter starts (R249). -/
  | started : s.rxAcc = .waitingForStart → ByteEffect x s (s.withRxAcc .waitingForData)
  /-- The byte is stored at an offset below BUF_CAP, as the last one accumulated (R250, R252). -/
  | stored (n : Nat) : n < s.cfg.bufCap →
      ByteEffect x s ((s.withMem (s.mem.writeByte .rxb n x)).withAccumulator .readingData (n + 1))
  /-- The accumulation is dropped with an error (R251, R252). -/
  | dropped (e : RxErr) {a : RxAcc} : a ≠ .readingData →
      ByteEffect x s ((s.emit (.rxError e)).withAccumulator a 0)

theorem withAccumulator_same {s : State} {a : RxAcc} (h : s.rxAcc = a) (n : Nat) :
    s.withAccumulator a n = s.withRxSize n := by
  subst h
  rfl

theorem processByte_effect (x : Byte) (s : State) : ByteEffect x s (processByte x s).2 := by
  cases hacc : s.rxAcc with
  | waitingForStart =>
    simp only [processByte, hacc, processWaitingForStart]
    split
    · exact .started hacc
    · exact .unchanged
  | waitingForData =>
    simp only [processByte, hacc, processWaitingForData]
    split
    · exact .unchanged
    · exact .stored 0 (Nat.succ_pos _)
  | readingData =>
    simp only [processByte, hacc]
    split
    · split
      · exact .unchanged
      · exact .dropped .tooShort (by decide)
    · simp only [processAppend]
      split
      next hlt =>
        rw [← withAccumulator_same (s := s.withMem (s.mem.writeByte .rxb s.rxSize.toNat x)) hacc]
        exact .stored _ hlt
      · exact .dropped .overflow (by decide)

theorem ByteEffect.accInv {x : Byte} {s t : State} (hc : s.cfg.wf = true) (hs : s.AccInv) (h : ByteEffect x s t) :
    t.AccInv := by
  cases h with
  | unchanged => exact hs
  | started hacc =>
    obtain ⟨hiff, hcap⟩ := hs
    simp only [hacc, reduceCtorEq, false_iff] at hiff
    simpa [State.AccInv, hcap] using hiff
  | stored n hlt => exact withAccumulator_readingData_accInv hc (Nat.succ_pos n) hlt
  | dropped e ha => exact withAccumulator_zero_accInv _ ha

/-- A byte is stored below BUF_CAP, so the memory stays canonical and in bounds (R61). -/
theorem ByteEffect.memInv {x : Byte} {s t : State} (hs : s.MemInv) (h : ByteEffect x s t) : t.MemInv := by
  cases h with
  | unchanged | started | dropped => exact hs
  | stored n hlt => exact ⟨Memory.wf_writeByte _ _ _ hs.1, Memory.within_writeByte _ hlt hs.2⟩

/-- The read loop keeps the accumulator's invariant. -/
theorem rxReadLoop_accInv (now : Word) (k : Nat) {s : State} (hc : s.cfg.wf = true) (hs : s.AccInv) :
    (rxReadLoop now k s).state.AccInv := by
  refine (rxReadLoop_induct (P := fun t => t.cfg.wf = true ∧ t.AccInv) now (fun t ht => ⟨ht.1, ht.2.congr⟩)
    (fun t ht => ⟨by simpa using ht.1, ?_⟩) k s ⟨hc, hs⟩).2
  exact (processByte_effect _ _).accInv (s := (t.withLink t.link.read.2).withRxLastTime now) ht.1 ht.2.congr

/-- The read loop keeps the memory's invariant. -/
theorem rxReadLoop_memInv (now : Word) (k : Nat) {s : State} (hc : s.cfg.wf = true) (hs : s.MemInv) :
    (rxReadLoop now k s).state.MemInv := by
  refine (rxReadLoop_induct (P := fun t => t.cfg.wf = true ∧ t.MemInv) now (fun t ht => ht)
    (fun t ht => ⟨by simpa using ht.1, ?_⟩) k s ⟨hc, hs⟩).2
  exact (processByte_effect _ _).memInv (s := (t.withLink t.link.read.2).withRxLastTime now) ht.2

theorem rxDeliver_accInv (s : State) : (rxDeliver s).AccInv := withAccumulator_zero_accInv _ (by decide)

theorem rxIdleCheck_accInv (now : Word) (reads : Nat) {s : State} (hs : s.AccInv) : (rxIdleCheck now reads s).AccInv := by
  simp only [rxIdleCheck]
  split
  · exact withAccumulator_zero_accInv _ (by decide)
  · exact hs

theorem rxFinish_rxLife (now : Word) (reads : Nat) (s : State) :
    (rxFinish now reads s).rxLife = if s.rxAcc = .readingData then .accumulating else .polling := by
  simp only [rxFinish, rxSettleLife, rxMarkActivity]
  split <;> rfl

/-- The end of a connected step brings RX_LIFE in line with the accumulator (R256). -/
theorem rxFinish_rxInv (now : Word) (reads : Nat) {s : State} (hs : s.AccInv) (hkey : s.cfg.keyValid = true) :
    (rxFinish now reads s).RxInv := by
  obtain ⟨hiff, hcap⟩ := hs
  simp only [State.RxInv, rxFinish_rxLife, rxFinish_rxAcc, rxFinish_rxSize, rxFinish_cfg]
  by_cases hacc : s.rxAcc = .readingData
  · simp [hacc, hiff.1 hacc, hcap, hkey]
  · have hzero : s.rxSize.toNat = 0 := by simpa [hacc] using hiff
    simp [hacc, hzero, hkey]

theorem rxConnected_rxInv (now : Word) {s : State} (hc : s.cfg.wf = true) (hs : s.AccInv) (hkey : s.cfg.keyValid = true) :
    (rxConnected now s).RxInv := by
  simp only [rxConnected]
  split
  · exact rxFinish_rxInv _ _ (rxDeliver_accInv _) (by simpa using hkey)
  · exact rxFinish_rxInv _ _ (rxIdleCheck_accInv _ _ (rxReadLoop_accInv now _ hc hs)) (by simpa using hkey)

theorem rxStepAt_rxInv (now : Word) {s : State} (hc : s.cfg.wf = true) (hs : s.RxInv) : (rxStepAt now s).RxInv := by
  obtain ⟨-, -, -, -, -, -, hkey⟩ := id hs
  rcases rxStepAt_cases now s with ⟨_, h⟩ | ⟨hlife, _, h⟩ | ⟨hlife, _, h⟩ <;> rw [h]
  · exact hs.congr
  · rw [rxLinkDown]
    exact (resetReceiver_rxInv (s := s) (.inr ⟨rfl, hkey hlife⟩)).congr
  · exact rxConnected_rxInv now (by simpa using hc) hs.accInv.congr (by simpa using hkey hlife)

theorem State.Answers.rxInv {s t : State} (hs : s.RxInv) (h : s.Answers t) : t.RxInv := by
  obtain ⟨_, _, _, _, _, _, _, rfl⟩ := h
  exact hs.congr

theorem CommandEffect.rxInv {i : Instr} {s t : State} (hc : s.cfg.wf = true) (hs : s.RxInv) (h : CommandEffect s i t) :
    t.RxInv := by
  cases h with
  | answer ha => exact ha.rxInv hs
  | sendAccepted | txStep | txStop => exact hs.congr
  | rxStarted hkey => exact (resetReceiver_rxInv (s := s) (.inr ⟨rfl, hkey⟩)).congr
  | rxStopped => exact (resetReceiver_rxInv (s := s) (.inl rfl)).congr
  | rxStep now l => exact rxStepAt_rxInv now (s := s.beginCommand.withLink l) hc hs.congr

/-- Settles O8: every case of `exec_effect` keeps the receiver invariant; within RX_STEP the accumulator's part is carried
through the read loop, and the end of the step brings RX_LIFE in line. -/
theorem stepKeepsReceiverInvariant : Obligations.StepKeepsReceiverInvariant := by
  intro s t hc hs h
  exact (step_keeps (P := fun s => s.cfg.wf = true ∧ s.RxInv) (fun _ _ h => h)
    (fun _ _ hs ha => ⟨ha.cfg_eq ▸ hs.1, ha.rxInv hs.2⟩)
    (fun _ _ _ hs he => ⟨he.cfg_eq ▸ hs.1, he.rxInv hs.1 hs.2⟩) ⟨hc, hs⟩ h).2

/-! ### The memory invariant (R37, R38, R61) -/

theorem State.MemInv.congr {s t : State} (hs : s.MemInv) (hcfg : t.cfg = s.cfg := by simp)
    (hmem : t.mem = s.mem := by simp) : t.MemInv := by
  simpa only [State.MemInv, hcfg, hmem] using hs

/-- A delivery un-stuffs the accumulated bytes in place (R254). -/
theorem rxDeliver_memInv {s : State} (hsize : s.rxSize.toNat ≤ s.cfg.bufCap) (hs : s.MemInv) : (rxDeliver s).MemInv := by
  simpa [State.MemInv, rxDeliver] using
    And.intro (cobsDecode_wf .rxb .rxb s.rxSize.toNat hs.1) (cobsDecode_within .rxb (dst := .rxb) hsize hs.2)

theorem rxIdleCheck_memInv (now : Word) (reads : Nat) {s : State} (hs : s.MemInv) : (rxIdleCheck now reads s).MemInv := by
  simp only [rxIdleCheck]
  split <;> exact hs.congr

theorem rxConnected_memInv (now : Word) {s : State} (hc : s.cfg.wf = true) (hacc : s.AccInv) (hs : s.MemInv) :
    (rxConnected now s).MemInv := by
  have hloop := rxReadLoop_memInv now s.cfg.maxIn hc hs
  simp only [rxConnected]
  refine State.MemInv.congr (?_ : State.MemInv _) (by simp) (rxFinish_mem _ _ _)
  split
  · exact rxDeliver_memInv (rxReadLoop_accInv now s.cfg.maxIn hc hacc).2 hloop.congr
  · exact rxIdleCheck_memInv _ _ hloop

theorem rxStepAt_memInv (now : Word) {s : State} (hc : s.cfg.wf = true) (hacc : s.AccInv) (hs : s.MemInv) :
    (rxStepAt now s).MemInv := by
  rcases rxStepAt_cases now s with ⟨_, h⟩ | ⟨_, _, h⟩ | ⟨_, _, h⟩ <;> rw [h]
  · exact hs.congr
  · simpa [State.MemInv, rxLinkDown] using hs
  · exact rxConnected_memInv now (by simpa using hc) hacc.congr hs.congr

theorem State.Answers.memInv {s t : State} (hc : s.cfg.wf = true) (hs : s.MemInv) (h : s.Answers t) : t.MemInv := by
  obtain ⟨m, _, _, _, _, hm, _, rfl⟩ := h
  exact ⟨hm.wf hs.1, hm.within hc hs.2⟩

theorem CommandEffect.memInv {i : Instr} {s t : State} (hc : s.cfg.wf = true) (hrx : s.RxInv) (hs : s.MemInv)
    (h : CommandEffect s i t) : t.MemInv := by
  cases h with
  | answer ha => exact ha.memInv hc hs
  | sendAccepted | txStep | txStop | rxStarted | rxStopped => exact hs.congr
  | rxStep now l => exact rxStepAt_memInv now (s := s.beginCommand.withLink l) hc hrx.accInv.congr hs.congr

/-- Settles O10: an answer writes only what `State.MayLeave` allows; RX_STEP stores bytes below BUF_CAP and un-stuffs at most
RX_SIZE of them in place. -/
theorem stepKeepsMemoryCanonicalAndInBounds : Obligations.StepKeepsMemoryCanonicalAndInBounds := by
  intro s t hc hrx hs h
  exact (step_keeps (P := fun s => s.cfg.wf = true ∧ s.RxInv ∧ s.MemInv) (fun _ _ h => h)
    (fun _ _ ⟨hc, hrx, hs⟩ ha => ⟨ha.cfg_eq ▸ hc, ha.rxInv hrx, ha.memInv hc hs⟩)
    (fun _ _ _ ⟨hc, hrx, hs⟩ he => ⟨he.cfg_eq ▸ hc, he.rxInv hc hrx, he.memInv hc hrx hs⟩) ⟨hc, hrx, hs⟩ h).2.2

/-- Settles O11: a block right after reset is disabled, idle and empty. -/
theorem resetMeetsTheInvariants : Obligations.ResetMeetsTheInvariants := by
  intro c hc
  refine ⟨hc, ?_, ?_, Memory.atReset_wf, Memory.atReset_within c⟩
  · simp [State.RxInv, State.resetWith]
  · simp [State.TxInv, State.resetWith]

/-! ### No command reads an earlier outcome (R46)

A command begins by emptying the events, so what is left of an earlier outcome is STATUS and RESULT: `s.respond a b` in place of
`s`. Each function of the two machines either passes them along untouched or ends by overwriting them. -/

theorem State.beginCommand_of_earlierOutcome (s : State) (a b : Word) (events : List Word) :
    ({ s with status := a, result := b, events := events } : State).beginCommand = s.beginCommand.respond a b := rfl

/-- Of the registers of R41 only STATUS, number 0, shows an earlier outcome. -/
theorem register?_respond {number : Nat} (h : number ≠ 0) (s : State) (a b : Word) :
    (s.respond a b).register? number = s.register? number := by
  simp only [State.register?]
  split
  · exact absurd rfl h
  all_goals rfl

theorem execRegRd_respond {reg : Nat} (h : reg ≠ 0) (s : State) (a b : Word) (events : List Word) :
    execRegRd reg { s with status := a, result := b, events := events } = execRegRd reg s := by
  simp only [execRegRd, State.beginCommand_of_earlierOutcome, register?_respond h]
  rfl

theorem txWriteChunk_respond (room : Nat) (s : State) (a b : Word) :
    txWriteChunk room (s.respond a b) = (txWriteChunk room s).respond a b := by
  simp only [txWriteChunk, apply_ite (State.respond · a b)]
  rfl

theorem txWork_respond (room : Nat) (s : State) (a b : Word) : txWork room (s.respond a b) = txWork room s := by
  simp only [txWork, txData, txWriteChunk_respond]
  rfl

theorem txLinked_respond (s : State) (a b : Word) : txLinked (s.respond a b) = txLinked s := by
  unfold txLinked
  exact if_congr Iff.rfl rfl (txWork_respond _ s.callConnected.2.callAvailableForWrite.2 a b)

theorem txStepAt_respond (now : Word) (s : State) (a b : Word) : txStepAt now (s.respond a b) = txStepAt now s := by
  simp only [txStepAt, txLinked_respond]
  rfl

theorem processByte_respond (x : Byte) (s : State) (a b : Word) :
    processByte x (s.respond a b) = ((processByte x s).1, (processByte x s).2.respond a b) := by
  cases hacc : s.rxAcc with
  | waitingForStart =>
    simp only [processByte, State.respond_rxAcc, hacc, processWaitingForStart]
    split <;> rfl
  | waitingForData =>
    simp only [processByte, State.respond_rxAcc, hacc, processWaitingForData]
    split <;> rfl
  | readingData =>
    by_cases hx : x = delimiter
    · by_cases hn : Config.msgMin ≤ s.rxSize.toNat
      · simp [processByte, hacc, hx, hn]
      · simp [processByte, hacc, hx, hn]
        rfl
    · simp [processByte, hacc, hx, processAppend, apply_ite (State.respond · a b)]
      rfl

theorem State.respond_withLink (s : State) (a b : Word) (l : Link) :
    (s.respond a b).withLink l = (s.withLink l).respond a b := rfl

theorem State.respond_withRxLife (s : State) (a b : Word) (l : RxLife) :
    (s.respond a b).withRxLife l = (s.withRxLife l).respond a b := rfl

theorem State.respond_withRxLastTime (s : State) (a b now : Word) :
    (s.respond a b).withRxLastTime now = (s.withRxLastTime now).respond a b := rfl

/-- The result of the read loop with another STATUS and RESULT in its state. -/
def RxReads.respond (r : RxReads) (a b : Word) : RxReads := { r with state := r.state.respond a b }

/-- STATUS and RESULT ride along the read loop. -/
theorem rxReadLoop_respond (now : Word) (k : Nat) (s : State) (a b : Word) :
    rxReadLoop now k (s.respond a b) = (rxReadLoop now k s).respond a b := by
  induction k generalizing s with
  | zero => rfl
  | succ k ih =>
    by_cases h0 : s.link.available.1 = 0
    · simp [rxReadLoop, h0, State.respond_withLink, RxReads.respond]
    · cases hp : (processByte s.link.available.2.read.1
        (((s.withLink s.link.available.2).withLink s.link.available.2.read.2).withRxLastTime now)).1 <;>
      simp [rxReadLoop, h0, hp, State.respond_withLink, State.respond_withRxLastTime, processByte_respond, ih,
        RxReads.respond]

theorem rxIdleCheck_respond (now : Word) (reads : Nat) (s : State) (a b : Word) :
    rxIdleCheck now reads (s.respond a b) = (rxIdleCheck now reads s).respond a b := by
  simp only [rxIdleCheck, apply_ite (State.respond · a b)]
  rfl

theorem rxMarkActivity_respond (now : Word) (reads : Nat) (s : State) (a b : Word) :
    rxMarkActivity now reads (s.respond a b) = (rxMarkActivity now reads s).respond a b := by
  simp only [rxMarkActivity, apply_ite (State.respond · a b)]
  rfl

/-- The end of a connected step overwrites them. -/
theorem rxFinish_respond (now : Word) (reads : Nat) (s : State) (a b : Word) :
    rxFinish now reads (s.respond a b) = rxFinish now reads s := by
  simp only [rxFinish, rxMarkActivity_respond]
  rfl

theorem rxDeliver_respond (s : State) (a b : Word) : rxDeliver (s.respond a b) = (rxDeliver s).respond a b := rfl

theorem rxConnected_respond (now : Word) (s : State) (a b : Word) :
    rxConnected now (s.respond a b) = rxConnected now s := by
  cases hclosed : (rxReadLoop now s.cfg.maxIn s).closed with
  | false =>
    simp [rxConnected, rxReadLoop_respond, RxReads.respond, hclosed, rxIdleCheck_respond, rxFinish_respond]
  | true =>
    simp [rxConnected, rxReadLoop_respond, RxReads.respond, hclosed, State.respond_withRxLife, rxDeliver_respond,
      rxFinish_respond]

theorem rxLinkUp_respond (s : State) (a b : Word) : rxLinkUp (s.respond a b) = (rxLinkUp s).respond a b := by
  simp only [rxLinkUp, apply_ite (State.respond · a b)]
  rfl

theorem State.reportLinkDown_respond (s : State) (a b : Word) :
    (s.respond a b).reportLinkDown = s.reportLinkDown.respond a b := by
  simp only [State.reportLinkDown, apply_ite (State.respond · a b)]
  rfl

theorem rxStepAt_respond (now : Word) (s : State) (a b : Word) : rxStepAt now (s.respond a b) = rxStepAt now s := by
  simp only [rxStepAt, State.callConnected_eq, State.respond_link, State.respond_withLink, rxLinkDown,
    State.reportLinkDown_respond, rxLinkUp_respond, rxConnected_respond]
  rfl

theorem execRxStop_respond (s : State) (a b : Word) (events : List Word) :
    execRxStop { s with status := a, result := b, events := events } = execRxStop s := by
  simp only [execRxStop, State.beginCommand_of_earlierOutcome, State.reportLinkDown_respond]
  rfl

/-- Settles O57: the commands that only answer overwrite STATUS and RESULT without reading them, REG_RD of another number shows
another register, and the machines pass them along. -/
theorem noCommandReadsAnEarlierOutcome : Obligations.NoCommandReadsAnEarlierOutcome := by
  intro i s a b events hi
  cases i with
  | regRd reg => exact execRegRd_respond (fun h => hi (h ▸ rfl)) s a b events
  | txStep => exact congrArg Host.Outcome.next (txStepAt_respond s.sampledNow (s.beginCommand.withLink s.sampledLink) a b)
  | rxStop => exact execRxStop_respond s a b events
  | rxStep => exact congrArg Host.Outcome.next (rxStepAt_respond s.sampledNow (s.beginCommand.withLink s.sampledLink) a b)
  | bufRd | bufWr | frameEncode | frameDecode | checkSetup | checkCompute | layoutMsgsize | layoutPaysize => rfl
  | msgEncode | msgDecode | txCansend | txSend | txStop | rxStart | rxWake => rfl

end Sys2Proof.Machine
end

/-! # The command port, buffer memory and the transport (20_memory.md)

`exec_effect` forgets the edge of a command that only answers. Here each such command is read once more for the two outputs
at the edge: the calls it makes (R66) and the events it emits (60_exceptions.md R317). -/

section
namespace Sys2Proof.Machine

/-! ### The step (R73) -/

/-- A step on a command word takes it off the list and runs the command it decodes to. -/
theorem step_of_decode {s : State} {w : Word} {rest : List Word} {i : Instr} (hp : s.pending = w :: rest)
    (hd : decode w = .ok i) : step s = exec i (s.withPending rest) := by
  simp only [step, State.nextCommand?, hp, hd]

/-- With no word issued a step changes nothing (log 1). -/
theorem step_of_idle {s : State} (hp : s.pending = []) : step s = .next s := by
  simp only [step, State.nextCommand?, hp]

/-- Settles O6: the two cases of the command port. -/
theorem stepRunsTheDecodedCommand : Obligations.StepRunsTheDecodedCommand :=
  ⟨fun _ _ _ _ hp hd => step_of_decode hp hd, fun _ hp => step_of_idle hp⟩

/-! ### Buffer memory (R65) -/

/-- A written sequence reads back. -/
theorem Memory.readBytes_writeBytes_same (m : Memory) (b : Region) (off : Nat) (xs : List Byte) :
    (m.writeBytes b off xs).readBytes b off xs.length = xs := by
  apply List.ext_getElem
  · simp
  · intro k _ hk
    rw [Memory.readBytes_getElem, Memory.readByte_writeBytes m b off k xs hk]

/-- Settles O18: read after write, and the frame of a sequence of writes. -/
theorem writtenBytesReadBack : Obligations.WrittenBytesReadBack :=
  fun m b off bytes => ⟨m.readBytes_writeBytes_same b off bytes, fun _ _ h => m.readByte_writeBytes_other bytes h⟩

/-! ### The transport (R68, R71) -/

/-- Settles O35: the accepted count is bounded by the offer, and the call appends to the outbound stream and the call list. -/
theorem transportWriteAppendsAcceptedBytes : Obligations.TransportWriteAppendsAcceptedBytes :=
  fun l offered =>
    ⟨l.write_accepted_le offered, l.write_outbound offered, l.write_calls offered, l.write_inbound offered⟩

/-! ### What an outcome ensures

The meanings are trees of conditionals over next states, so a property of the next state is shown leaf by leaf. -/

/-- Every next state that the outcome gives has the property `P`. -/
def Ensures (P : State → Prop) (r : Result) : Prop := ∀ t, r = .next t → P t

theorem Ensures.next {P : State → Prop} {t : State} (h : P t) : Ensures P (.next t) := by
  rintro _ ⟨⟩
  exact h

theorem Ensures.ite {P : State → Prop} {c : Prop} [Decidable c] {r₁ r₂ : Result} (h₁ : Ensures P r₁) (h₂ : Ensures P r₂) :
    Ensures P (if c then r₁ else r₂) := by
  split
  · exact h₁
  · exact h₂

/-! ### Commands that make no call and emit no event -/

/-- `t` has the edge of `s` with the call list emptied, and no event. -/
structure State.Silent (s t : State) : Prop where
  link : t.link = s.link.forgetCalls
  events : t.events = []

/-- A response right after the command's start, over any memory. -/
theorem State.silent_respond (s : State) (m : Memory) (status result : Word) :
    Ensures s.Silent (.next ((s.beginCommand.withMem m).respond status result)) := .next ⟨rfl, rfl⟩

theorem State.silent_raise (s : State) (c : CErr) : Ensures s.Silent (.next (s.beginCommand.raise c)) :=
  s.silent_respond s.mem _ _

theorem State.silent_succeed (s : State) (v : Word) : Ensures s.Silent (.next (s.beginCommand.succeed v)) :=
  s.silent_respond s.mem _ _

theorem execBufRd_silent (buf : BufId) (off : Nat) (s : State) : Ensures s.Silent (execBufRd buf off s) := by
  unfold execBufRd
  cases regionOf buf with
  | none => exact s.silent_raise _
  | some b => exact .ite (s.silent_raise _) (s.silent_succeed _)

theorem execBufWr_silent (buf : BufId) (off : Nat) (val : Byte) (s : State) :
    Ensures s.Silent (execBufWr buf off val s) := by
  unfold execBufWr
  cases regionOf buf with
  | none => exact s.silent_raise _
  | some b => exact .ite (s.silent_raise _) (.ite (s.silent_raise _) (s.silent_respond _ _ _))

theorem execRegRd_silent (reg : Nat) (s : State) : Ensures s.Silent (execRegRd reg s) := by
  simp only [execRegRd]
  cases s.beginCommand.register? reg with
  | none => exact s.silent_raise _
  | some v => exact s.silent_succeed v

theorem execFrameEncode_silent (src dst : BufId) (n : Nat) (s : State) : Ensures s.Silent (execFrameEncode src dst n s) := by
  unfold execFrameEncode
  cases regionOf src with
  | none => exact s.silent_raise _
  | some a =>
    cases regionOf dst with
    | none => exact s.silent_raise _
    | some b =>
      exact .ite (s.silent_raise _) (.ite (s.silent_raise _) (.ite (s.silent_raise _) (s.silent_respond _ _ _)))

theorem execFrameDecode_silent (src dst : BufId) (n : Nat) (s : State) : Ensures s.Silent (execFrameDecode src dst n s) := by
  unfold execFrameDecode
  cases regionOf src with
  | none => exact s.silent_raise _
  | some a =>
    cases regionOf dst with
    | none => exact s.silent_raise _
    | some b =>
      exact .ite (s.silent_raise _) (.ite (s.silent_raise _) (.ite (s.silent_respond _ _ _) (s.silent_respond _ _ _)))

theorem execCheckCompute_silent (buf : BufId) (off len : Nat) (s : State) :
    Ensures s.Silent (execCheckCompute buf off len s) := by
  unfold execCheckCompute
  cases regionOf buf with
  | none => exact s.silent_raise _
  | some b => exact .ite (s.silent_raise _) (.ite (s.silent_raise _) (s.silent_succeed _))

theorem execMsgEncode_silent (buf : BufId) (n : Nat) (s : State) : Ensures s.Silent (execMsgEncode buf n s) := by
  unfold execMsgEncode
  cases regionOf buf with
  | none => exact s.silent_raise _
  | some b =>
    exact .ite (s.silent_raise _) (.ite (s.silent_raise _) (.ite (s.silent_raise _) (s.silent_respond _ _ _)))

theorem execMsgDecode_silent (buf : BufId) (size : Nat) (s : State) : Ensures s.Silent (execMsgDecode buf size s) := by
  unfold execMsgDecode
  cases regionOf buf with
  | none => exact s.silent_raise _
  | some b =>
    exact .ite (s.silent_raise _) (.ite (s.silent_raise _) (.ite (s.silent_raise _)
      (.ite (s.silent_respond _ _ _) (.ite (s.silent_respond _ _ _) (s.silent_respond _ _ _)))))

/-- TX_STOP changes TX_STATE on the way to its response. -/
theorem execTxStop_silent (s : State) : Ensures s.Silent (execTxStop s) := .next ⟨rfl, rfl⟩

/-- Every command but the six that R66 names is silent. -/
theorem exec_silent {i : Instr} (hi : i ∉ [Instr.txStep, .txCansend, .rxStart, .rxStop, .rxStep] ∧ ∀ n, i ≠ .txSend n)
    (s : State) : Ensures s.Silent (exec i s) := by
  obtain ⟨hlist, hsend⟩ := hi
  cases i with
  | bufRd buf off => exact execBufRd_silent buf off s
  | bufWr buf off val => exact execBufWr_silent buf off val s
  | regRd reg => exact execRegRd_silent reg s
  | frameEncode src dst n => exact execFrameEncode_silent src dst n s
  | frameDecode src dst n => exact execFrameDecode_silent src dst n s
  | checkCompute buf off len => exact execCheckCompute_silent buf off len s
  | msgEncode buf n => exact execMsgEncode_silent buf n s
  | msgDecode buf size => exact execMsgDecode_silent buf size s
  | checkSetup | layoutMsgsize | layoutPaysize | rxWake => exact s.silent_succeed _
  | txStop => exact execTxStop_silent s
  | txSend n => exact absurd rfl (hsend n)
  | txStep | txCansend | rxStart | rxStop | rxStep => simp at hlist

/-! ### TX_CANSEND and TX_SEND call but emit nothing -/

theorem execTxCansend_events (s : State) : Ensures (·.events = []) (execTxCansend s) := .ite (.next rfl) (.next rfl)

theorem execTxSend_events (n : Nat) (s : State) : Ensures (·.events = []) (execTxSend n s) :=
  .ite (.next rfl) (.ite (.next rfl) (.ite (.next rfl) (.ite (.next rfl) (.next rfl))))

/-- Every command but the four that R317 names emits no event. -/
theorem exec_events {i : Instr} (hi : i ∉ [Instr.rxStart, .rxStop, .rxStep, .txStep]) (s : State) :
    Ensures (·.events = []) (exec i s) := by
  cases i with
  | txCansend => exact execTxCansend_events s
  | txSend n => exact execTxSend_events n s
  | rxStart | rxStop | rxStep | txStep => simp at hi
  | bufRd | bufWr | regRd | frameEncode | frameDecode | checkSetup | checkCompute | layoutMsgsize | layoutPaysize
  | msgEncode | msgDecode | txStop | rxWake =>
    exact fun t h => (exec_silent ⟨by simp, by simp⟩ s t h).events

/-- Settles O55: a command that R66 does not name is silent, and TX_CANSEND and TX_SEND, which call, emit nothing. -/
theorem onlyLinkCommandsCallOrEmit : Obligations.OnlyLinkCommandsCallOrEmit :=
  fun _ s t h => ⟨fun hi => (exec_silent hi s t h).link, fun hi => exec_events hi s t h⟩

end Sys2Proof.Machine
end

/-! # The command encoding (30_encoding.md)

`Instr.operands` names what each operand field of a command's word holds: the encoder lays these values down and the decoder's
row takes them up again. So a word decodes to a command exactly when its bits under the command's mask are the command's word
(`decode_eq_ok_iff`), and the reserved bits and OPC alone decide whether it decodes at all. -/

section
namespace Sys2Proof

/-! ### Fields of a word (R81) -/

theorem bits_lt (w : Word) (hi lo : Nat) : bits w hi lo < 2 ^ (hi + 1 - lo) := Nat.mod_lt _ (Nat.two_pow_pos _)

theorem bits_and (w m : Word) (hi lo : Nat) : bits (w &&& m) hi lo = bits w hi lo &&& bits m hi lo := by
  simp only [bits, BitVec.toNat_and, Nat.and_div_two_pow, Nat.and_mod_two_pow]

/-- A mask keeps a field that it covers. -/
theorem bits_and_of_covered {m : Word} {hi lo : Nat} (w : Word) (h : bits m hi lo = 2 ^ (hi + 1 - lo) - 1) :
    bits (w &&& m) hi lo = bits w hi lo := by
  rw [bits_and, h, Nat.and_two_pow_sub_one_eq_mod, Nat.mod_eq_of_lt (bits_lt w hi lo)]

/-- A mask clears a field that it leaves out. -/
theorem bits_and_of_uncovered {m : Word} {hi lo : Nat} (w : Word) (h : bits m hi lo = 0) : bits (w &&& m) hi lo = 0 := by
  rw [bits_and, h, Nat.and_zero]

/-- A word is determined by its six fields. -/
theorem eq_commandWord_iff {w : Word} {opc ba bb n v : Nat} (hopc : opc < 256) (hba : ba < 4) (hbb : bb < 4) (hn : n < 256)
    (hv : v < 256) : w = commandWord opc ba bb n v ↔
      bits w 15 12 = 0 ∧ bits w 7 0 = opc ∧ bits w 9 8 = ba ∧ bits w 11 10 = bb ∧ bits w 23 16 = n ∧ bits w 31 24 = v := by
  refine ⟨?_, ?_⟩
  · rintro rfl
    exact bits_commandWord hopc hba hbb hn hv
  · rintro ⟨hrsv, rfl, rfl, rfl, rfl, rfl⟩
    apply BitVec.eq_of_toNat_eq
    simp only [bits, commandWord, BitVec.toNat_ofNat] at hrsv ⊢
    omega

theorem BufId.ofField_eq_iff {n : Nat} (h : n < 4) {b : BufId} : BufId.ofField n = b ↔ n = b.field := by
  refine ⟨?_, fun hb => by rw [hb, BufId.ofField_field]⟩
  rintro rfl
  interval_cases n <;> rfl

/-! ### The opcode and the operand fields of a command (R83, R84) -/

/-- The opcodes of R84. -/
def assignedOpcodes : List Nat :=
  [0x01, 0x02, 0x03, 0x10, 0x11, 0x20, 0x21, 0x30, 0x31, 0x40, 0x41, 0x50, 0x51, 0x52, 0x53, 0x60, 0x61, 0x62, 0x63]

theorem assignedOpcodes_lt : ∀ opc ∈ assignedOpcodes, opc < 256 := by decide

theorem Instr.opcode_mem (i : Instr) : i.opcode ∈ assignedOpcodes := by
  cases i <;> simp [Instr.opcode, assignedOpcodes]

theorem Instr.opcode_lt (i : Instr) : i.opcode < 256 := assignedOpcodes_lt _ i.opcode_mem

/-- The values of the operand fields of a command word. -/
structure Operands where
  ba : Nat
  bb : Nat
  n : Nat
  v : Nat

/-- What the operand fields of the command's word hold: R83's table, with 0 in a field the command ignores. -/
def Instr.operands : Instr → Operands
  | .bufRd b off => ⟨b.field, 0, off, 0⟩
  | .bufWr b off val => ⟨b.field, 0, off, val.toNat⟩
  | .regRd reg => ⟨0, 0, reg, 0⟩
  | .frameEncode src dst size | .frameDecode src dst size => ⟨src.field, dst.field, size, 0⟩
  | .checkCompute b off len => ⟨b.field, 0, len, off⟩
  | .msgEncode b size | .msgDecode b size => ⟨b.field, 0, size, 0⟩
  | .layoutMsgsize size | .layoutPaysize size | .txSend size => ⟨0, 0, size, 0⟩
  | .checkSetup | .txCansend | .txStep | .txStop | .rxStart | .rxStop | .rxStep | .rxWake => ⟨0, 0, 0, 0⟩

theorem encode_eq_commandWord (i : Instr) :
    encode i = commandWord i.opcode i.operands.ba i.operands.bb i.operands.n i.operands.v := by
  cases i <;> rfl

/-- Every command's mask covers RSV and OPC. -/
theorem Instr.usedBits_selector (i : Instr) : bits i.usedBits 15 12 = 15 ∧ bits i.usedBits 7 0 = 255 := by
  cases i <;> simp [Instr.usedBits, bits]

/-- The operands of a well-formed command fit their fields. -/
theorem Instr.operands_lt {i : Instr} (h : i.wf = true) :
    i.operands.ba < 4 ∧ i.operands.bb < 4 ∧ i.operands.n < 256 ∧ i.operands.v < 256 := by
  have hbyte (x : Byte) : x.toNat < 256 := x.isLt
  cases i <;> simp_all [Instr.wf, Instr.operands, fitsField, BufId.field_lt]

/-- The decoder's row of an opcode takes up the operands that the encoder laid down for it. -/
theorem decodeOpcode_operands (i : Instr) :
    decodeOpcode i.opcode i.operands.ba i.operands.bb i.operands.n i.operands.v = some i := by
  cases i <;> simp [decodeOpcode, Instr.opcode, Instr.operands]

/-! ### What a row of the opcode map decodes (R84) -/

theorem decodeOpcode_opcode {opc ba bb n v : Nat} {i : Instr} (h : decodeOpcode opc ba bb n v = some i) :
    opc = i.opcode := by
  unfold decodeOpcode at h
  split at h <;> cases h <;> rfl

theorem decodeOpcode_wf {opc ba bb n v : Nat} {i : Instr} (hn : n < 256) (hv : v < 256)
    (h : decodeOpcode opc ba bb n v = some i) : i.wf = true := by
  unfold decodeOpcode at h
  split at h <;> cases h <;> simp [Instr.wf, fitsField, hn, hv]

/-- The row of a command's opcode yields that command exactly when the fields it reads hold the command's operands. -/
theorem decodeOpcode_eq_some_iff (w : Word) (i : Instr) :
    decodeOpcode i.opcode (bits w 9 8) (bits w 11 10) (bits w 23 16) (bits w 31 24) = some i ↔
      bits (w &&& i.usedBits) 9 8 = i.operands.ba ∧ bits (w &&& i.usedBits) 11 10 = i.operands.bb
      ∧ bits (w &&& i.usedBits) 23 16 = i.operands.n ∧ bits (w &&& i.usedBits) 31 24 = i.operands.v := by
  have hba {b : BufId} : BufId.ofField (bits w 9 8) = b ↔ bits w 9 8 = b.field := BufId.ofField_eq_iff (bits_lt w 9 8)
  have hbb {b : BufId} : BufId.ofField (bits w 11 10) = b ↔ bits w 11 10 = b.field := BufId.ofField_eq_iff (bits_lt w 11 10)
  have hval {x : Byte} : BitVec.ofNat 8 (bits w 31 24) = x ↔ bits w 31 24 = x.toNat := by
    rw [← BitVec.toNat_inj, BitVec.toNat_ofNat, Nat.mod_eq_of_lt (bits_lt w 31 24)]
  cases i
  all_goals
    simp (disch := decide) only [Instr.usedBits, bits_and_of_covered, bits_and_of_uncovered]
    simp [decodeOpcode, Instr.opcode, Instr.operands, hba, hbb, hval, and_comm]

/-! ### What a word decodes to (R85) -/

theorem decode_eq_ok_iff_decodeOpcode {w : Word} {i : Instr} : decode w = .ok i ↔ bits w 15 12 = 0
    ∧ decodeOpcode (bits w 7 0) (bits w 9 8) (bits w 11 10) (bits w 23 16) (bits w 31 24) = some i := by
  unfold decode
  by_cases hrsv : bits w 15 12 = 0
  · cases decodeOpcode _ _ _ _ _ <;> simp [hrsv]
  · simp [hrsv]

theorem decode_wf {w : Word} {i : Instr} (h : decode w = .ok i) : i.wf = true :=
  decodeOpcode_wf (bits_lt w 23 16) (bits_lt w 31 24) (decode_eq_ok_iff_decodeOpcode.1 h).2

/-- A decoded word has RSV = 0 and the command's opcode in OPC (R85). -/
theorem decode_selector {w : Word} {i : Instr} (h : decode w = .ok i) : bits w 15 12 = 0 ∧ bits w 7 0 = i.opcode := by
  obtain ⟨hrsv, hrow⟩ := decode_eq_ok_iff_decodeOpcode.1 h
  exact ⟨hrsv, decodeOpcode_opcode hrow⟩

/-- A word decodes to a command exactly when its used bits are the command's word. -/
theorem decode_eq_ok_iff {w : Word} {i : Instr} (hwf : i.wf = true) : decode w = .ok i ↔ w &&& i.usedBits = encode i := by
  obtain ⟨hba, hbb, hn, hv⟩ := i.operands_lt hwf
  obtain ⟨hrsv, hopc⟩ := i.usedBits_selector
  rw [encode_eq_commandWord, eq_commandWord_iff i.opcode_lt hba hbb hn hv, ← decodeOpcode_eq_some_iff,
    bits_and_of_covered w hrsv, bits_and_of_covered w hopc]
  refine ⟨fun h => ?_, fun ⟨hr, ho, hrow⟩ => decode_eq_ok_iff_decodeOpcode.2 ⟨hr, ho ▸ hrow⟩⟩
  obtain ⟨hr, ho⟩ := decode_selector h
  exact ⟨hr, ho, ho ▸ (decode_eq_ok_iff_decodeOpcode.1 h).2⟩

/-- Settles O1: the encoder lays down the fields that the row of the command's opcode takes up. -/
theorem encodedCommandDecodesBack : Obligations.EncodedCommandDecodesBack := by
  intro i hwf
  obtain ⟨hba, hbb, hn, hv⟩ := i.operands_lt hwf
  rw [encode_eq_commandWord]
  exact decode_commandWord i.opcode_lt hba hbb hn hv (decodeOpcode_operands i)

/-- Settles O2: decoding to a command is an equation on the word's used bits. -/
theorem decodingReadsExactlyTheUsedFields : Obligations.DecodingReadsExactlyTheUsedFields := by
  intro w i h
  have hwf := decode_wf h
  have hused := (decode_eq_ok_iff hwf).1 h
  exact ⟨hwf, hused.symm, fun w' hw' => (decode_eq_ok_iff hwf).2 (hw'.trans hused)⟩

/-! ### Selection by opcode (R84, R85) -/

/-- Every assigned opcode has a row, whatever the operand fields hold. -/
theorem decodeOpcode_of_mem {opc : Nat} (h : opc ∈ assignedOpcodes) (ba bb n v : Nat) :
    ∃ i, decodeOpcode opc ba bb n v = some i := by
  simp only [assignedOpcodes, List.mem_cons, List.not_mem_nil, or_false] at h
  rcases h with rfl | rfl | rfl | rfl | rfl | rfl | rfl | rfl | rfl | rfl | rfl | rfl | rfl | rfl | rfl | rfl | rfl | rfl | rfl
  all_goals exact ⟨_, rfl⟩

/-- The mask 0x0000F0FF reads RSV and OPC. -/
theorem and_selector_eq_iff {w : Word} {opc : Nat} (h : opc < 256) :
    w &&& 0x0000F0FF#32 = BitVec.ofNat 32 opc ↔ bits w 15 12 = 0 ∧ bits w 7 0 = opc := by
  have hword : BitVec.ofNat 32 opc = commandWord opc 0 0 0 0 := by simp [commandWord]
  rw [hword, eq_commandWord_iff h (by decide) (by decide) (by decide) (by decide)]
  simp (disch := decide) only [bits_and_of_covered, bits_and_of_uncovered, and_true]

/-- Settles O3: RSV = 0 and an assigned OPC are what the decoder asks for. -/
theorem commandIsSelectedByMaskedOpcode : Obligations.CommandIsSelectedByMaskedOpcode := by
  refine fun w => ⟨fun i h => (and_selector_eq_iff i.opcode_lt).2 (decode_selector h), fun opc hmem hsel => ?_⟩
  obtain ⟨hrsv, hopc⟩ := (and_selector_eq_iff (assignedOpcodes_lt opc hmem)).1 hsel
  obtain ⟨i, hrow⟩ := decodeOpcode_of_mem hmem (bits w 9 8) (bits w 11 10) (bits w 23 16) (bits w 31 24)
  exact ⟨i, decode_eq_ok_iff_decodeOpcode.2 ⟨hrsv, hopc.symm ▸ hrow⟩, (decodeOpcode_opcode hrow).symm⟩

end Sys2Proof

namespace Sys2Proof.Machine

/-! ### Illegal words (R86) -/

/-- A step on a word that decodes to no command takes it off the list and only responds ILLEGAL. -/
theorem step_of_undecodable {s : State} {w : Word} {rest : List Word} (hp : s.pending = w :: rest)
    (hd : ∀ i, decode w ≠ .ok i) : step s = .next ((s.withPending rest).responded 0x10#32 0) := by
  simp only [step, State.nextCommand?, hp]
  cases hw : decode w with
  | ok i => exact absurd hw (hd i)
  | error => rfl

/-- Settles O4: a word that decodes has RSV = 0 and the opcode of its command, so neither kind of illegal word does. -/
theorem illegalWordsOnlyReportIllegal : Obligations.IllegalWordsOnlyReportIllegal := by
  intro s w rest hp hill
  refine step_of_undecodable hp fun i hd => ?_
  obtain ⟨hrsv, hopc⟩ := decode_selector hd
  rcases hill with hne | hnot
  · exact hne hrsv
  · refine hnot ?_
    have hbyte : bits w 7 0 = w.toNat % 256 := by simp [bits]
    rw [← hbyte, hopc]
    exact i.opcode_mem

/-! ### The assembler (R89, R90) -/

/-- BUF_FILL writes its bytes at rising offsets. -/
theorem bufFill_eq_map (b : BufId) (off : Nat) (bytes : List Byte) :
    bufFill b off bytes = (List.range bytes.length).map fun k => Instr.bufWr b (off + k) (bytes.getD k 0) := by
  induction bytes generalizing off with
  | nil => rfl
  | cons x rest ih =>
    simp [bufFill, ih, List.range_succ_eq_map, Function.comp_def, Nat.add_assoc, Nat.add_comm 1]

/-- Every command of a line that assembles has an encoding. -/
theorem assemble_wf {line : String} {is : List Instr} (h : assemble line = some is) : ∀ i ∈ is, i.wf = true := by
  simp only [assemble] at h
  split at h
  · cases h; simp
  · split at h
    · split at h <;> cases h
      next hall => exact List.all_eq_true.1 hall
    · cases h

/-- Settles O60: BUF_FILL by induction on its bytes, the other expansions by definition, and O1 for each command of a line. -/
theorem pseudoInstructionsExpand : Obligations.PseudoInstructionsExpand := by
  refine ⟨bufFill_eq_map, fun h p => ⟨rfl, rfl⟩, rfl, fun line is hline i hi => ?_⟩
  have hwf := assemble_wf hline i hi
  exact ⟨hwf, encodedCommandDecodesBack i hwf⟩

/-- Settles O5: the nine lines are assembled and encoded by evaluation, and O1 decodes their words. -/
theorem workedEncodingsHold : Obligations.WorkedEncodingsHold := by
  have roundTrip {line : String} {i : Instr} {w : Word} (hline : assemble line = some [i]) (hword : encode i = w) :
      assemble line = some [i] ∧ encode i = w ∧ decode w = .ok i :=
    ⟨hline, hword, hword ▸ encodedCommandDecodesBack i (assemble_wf hline i (List.mem_singleton.2 rfl))⟩
  simp only [Obligations.WorkedEncodingsHold, List.forall_mem_cons, List.not_mem_nil, false_imp_iff, implies_true, and_true]
  refine ⟨?_, ?_, ?_, ?_, ?_, ?_, ?_, ?_, ?_⟩ <;> exact roundTrip (by decide) (by decide)

end Sys2Proof.Machine
end

/-! # The frame codec (40_frame_codec.md)

Laws/Codec.lean gives the codec over byte lists: `stuffFrom` is CobsEncode run by run, `unstuff` is what CobsDecode does to the
bytes it reads. Here each is read block by block: what un-stuffing makes of one block (`unstuff_block`) and of the code byte at
an index of its input (`unstuff_fails_at`). The rules about CobsEncode are inductions over `stuffFrom`; the rules about memory
follow from `cobsDecode_eq`. -/

section
namespace Sys2Proof.Machine

/-! ### One block of un-stuffing (R105) -/

@[simp] theorem unstuff_nil (fuel : Nat) : unstuff fuel [] = (true, []) := by cases fuel <;> rfl

/-- The code byte of a run of at most 254 bytes holds the run's length plus one. -/
theorem codeByte_toNat {k : Nat} (h : k ≤ 254) : (BitVec.ofNat 8 (k + 1)).toNat = k + 1 := by
  rw [BitVec.toNat_ofNat, Nat.mod_eq_of_lt (by omega)]

theorem codeByte_ne_zero {k : Nat} (h : k ≤ 254) : BitVec.ofNat 8 (k + 1) ≠ 0x00#8 := fun h0 => by
  have := codeByte_toNat h
  simp [h0] at this

/-- A whole block gives its run, and a delimiter after it unless the block is full or the input ends there. -/
theorem unstuff_block (fuel : Nat) {run : List Byte} (e : List Byte) (h : run.length ≤ 254) :
    unstuff (fuel + 1) (BitVec.ofNat 8 (run.length + 1) :: (run ++ e)) =
      ((unstuff fuel e).1,
        run ++ (if run.length ≠ 254 ∧ e ≠ [] then [delimiter] else []) ++ (unstuff fuel e).2) := by
  have hgood : ¬ (BitVec.ofNat 8 (run.length + 1) = 0 ∨ (run ++ e).length + 1 < run.length + 1) := by
    simpa using codeByte_ne_zero h
  simp only [unstuff, codeByte_toNat h, if_neg hgood]
  simp [List.length_eq_zero_iff]

/-! ### Un-stuffing inverts stuffing (R110) -/

theorem stuffFrom_ne_nil (run d : List Byte) : stuffFrom run d ≠ [] := by
  fun_induction stuffFrom run d <;> simp_all

/-- Un-stuffing the stuffed bytes of an open run and more input gives the run and the input. -/
theorem unstuff_stuffFrom {run d : List Byte} (h : run.length ≤ 253) {fuel : Nat}
    (hfuel : (stuffFrom run d).length ≤ fuel) : unstuff fuel (stuffFrom run d) = (true, run ++ d) := by
  fun_induction stuffFrom run d generalizing fuel with
  | case1 run =>
    obtain _ | fuel := fuel
    · simp at hfuel
    · simpa using unstuff_block fuel [] (by omega : run.length ≤ 254)
  | case2 run rest ih =>
    obtain _ | fuel := fuel
    · simp at hfuel
    · simp only [List.length_append, List.length_cons] at hfuel
      rw [List.cons_append, unstuff_block fuel _ (by omega), ih (by simp) (by omega)]
      simp [stuffFrom_ne_nil, show run.length ≠ 254 by omega]
  | case3 run x rest _ hfull ih =>
    have hlen : (run ++ [x]).length = 254 := by simp; omega
    obtain _ | fuel := fuel
    · simp at hfuel
    · simp only [List.length_append, List.length_cons] at hfuel
      rw [show run.length + 2 = (run ++ [x]).length + 1 by simp, List.cons_append, unstuff_block fuel _ (by omega),
        ih (by simp) (by omega)]
      simp [hlen]
  | case4 run x rest _ hopen ih => simpa using ih (by simp; omega) hfuel

/-- Un-stuffing inverts CobsEncode, with a pass of fuel for each stuffed byte. -/
theorem unstuff_cobsEncode (d : List Byte) : unstuff (cobsEncode d).length (cobsEncode d) = (true, d) := by
  rw [cobsEncode_eq_stuff]
  exact unstuff_stuffFrom (by simp) (Nat.le_refl _)

/-- Settles O21: by `cobsDecode_eq` the decode is an un-stuffing and one sequence of writes, in place or not, and un-stuffing
inverts CobsEncode. -/
theorem decodeInvertsEncode : Obligations.DecodeInvertsEncode := by
  refine ⟨fun d m src dst hsrc => ?_, rfl⟩
  simp only [cobsDecode_eq, hsrc, unstuff_cobsEncode, Decoded.decodedSize, if_true, true_and, and_true]
  exact m.readBytes_writeBytes dst 0 d

/-! ### The stuffed form (R103, R104) -/

/-- A run without delimiter, stuffed with what follows it, holds no delimiter. -/
theorem stuffFrom_ne_delimiter {run d : List Byte} (h : run.length ≤ 253) (hrun : ∀ x ∈ run, x ≠ delimiter) :
    ∀ x ∈ stuffFrom run d, x ≠ delimiter := by
  fun_induction stuffFrom run d with
  | case1 run => exact List.forall_mem_cons.2 ⟨codeByte_ne_zero (by omega), hrun⟩
  | case2 run rest ih =>
    exact List.forall_mem_append.2 ⟨List.forall_mem_cons.2 ⟨codeByte_ne_zero (by omega), hrun⟩, ih (by simp) (by simp)⟩
  | case3 run x rest hx hfull ih =>
    have hrun' : ∀ y ∈ run ++ [x], y ≠ delimiter := List.forall_mem_append.2 ⟨hrun, by simpa using hx⟩
    exact List.forall_mem_append.2 ⟨List.forall_mem_cons.2 ⟨codeByte_ne_zero (by omega), hrun'⟩, ih (by simp) (by simp)⟩
  | case4 run x rest hx hopen ih =>
    exact ih (by simp; omega) (List.forall_mem_append.2 ⟨hrun, by simpa using hx⟩)

/-- Settles O19: CobsEncode stuffs from an empty run. -/
theorem stuffedBytesHoldNoDelimiter : Obligations.StuffedBytesHoldNoDelimiter := by
  intro d
  rw [cobsEncode_eq_stuff]
  exact stuffFrom_ne_delimiter (by simp) (by simp)

/-- How many full blocks of 254 bytes an open run and more input hold: the sum of R104, the open run being part of the input's
first run. -/
def fullBlocks (run d : List Byte) : Nat :=
  (((d.splitOn 0x00#8).modifyHead (run ++ ·)).map fun r => r.length / 254).sum

theorem fullBlocks_nil_left (d : List Byte) : fullBlocks [] d = ((d.splitOn 0x00#8).map fun r => r.length / 254).sum := by
  cases hd : d.splitOn 0x00#8 <;> simp [fullBlocks, hd]

theorem fullBlocks_nil_right (run : List Byte) : fullBlocks run [] = run.length / 254 := by simp [fullBlocks]

theorem fullBlocks_delimiter (run d : List Byte) : fullBlocks run (delimiter :: d) = run.length / 254 + fullBlocks [] d := by
  rw [fullBlocks_nil_left]
  simp [fullBlocks, delimiter, List.splitOn_cons_eq_if_modifyHead]

theorem fullBlocks_cons {x : Byte} (hx : x ≠ delimiter) (run d : List Byte) :
    fullBlocks run (x :: d) = fullBlocks (run ++ [x]) d := by
  have hne : x ≠ 0x00#8 := hx
  simp [fullBlocks, List.splitOn_cons_eq_if_modifyHead, hne, Function.comp_def]

theorem fullBlocks_full {run : List Byte} (h : run.length = 254) (d : List Byte) :
    fullBlocks run d = 1 + fullBlocks [] d := by
  obtain ⟨head, tail, hd⟩ := List.exists_cons_of_ne_nil (List.splitOn_ne_nil 0x00#8 d)
  simp only [fullBlocks, hd, List.modifyHead_cons, List.map_cons, List.sum_cons, List.length_append, h, List.nil_append]
  omega

/-- Stuffing adds one byte for the last block and one for each full block. -/
theorem stuffFrom_length_eq {run d : List Byte} (h : run.length ≤ 253) :
    (stuffFrom run d).length = run.length + d.length + 1 + fullBlocks run d := by
  fun_induction stuffFrom run d with
  | case1 run =>
    simp only [fullBlocks_nil_right, List.length_cons, List.length_nil]
    omega
  | case2 run rest ih =>
    simp only [fullBlocks_delimiter, List.length_append, List.length_cons, List.length_nil, ih (by simp)]
    omega
  | case3 run x rest hx hfull ih =>
    rw [fullBlocks_cons hx, fullBlocks_full (by simp; omega)]
    simp only [List.length_append, List.length_cons, List.length_nil, ih (by simp)]
    omega
  | case4 run x rest hx hopen ih =>
    rw [ih (by simp; omega), fullBlocks_cons hx]
    simp only [List.length_append, List.length_cons, List.length_nil]
    omega

/-- Settles O20: the sum counts the full blocks from an empty run; the second part is the codec's own length law. -/
theorem stuffedLengthFormula : Obligations.StuffedLengthFormula := by
  refine fun d => ⟨?_, cobsEncode_length⟩
  rw [cobsEncode_eq_stuff, stuffFrom_length_eq (by simp), fullBlocks_nil_left]
  simp

/-! ### Malformed inputs (R106) -/

theorem CodeAt.lt {input : List Byte} {r : Nat} (h : CodeAt input r) : r < input.length := by
  cases h with
  | first hne => exact List.length_pos_iff.2 hne
  | next _ _ _ _ _ hlt => exact hlt

/-- The two defects of a code byte `x` read at index `r` (R106). -/
def MalformedAt (input : List Byte) (r : Nat) (x : Byte) : Prop := x = 0 ∨ input.length < r + x.toNat

/-- Un-stuffing from an index fails by a defect there, or from the end of its block on. -/
theorem unstuff_fails_at {input : List Byte} {r : Nat} {x : Byte} (hx : input[r]? = some x) (fuel : Nat) :
    (unstuff (fuel + 1) (input.drop r)).1 = false ↔
      MalformedAt input r x ∨ (unstuff fuel (input.drop (r + x.toNat))).1 = false := by
  obtain ⟨hr, rfl⟩ := List.getElem?_eq_some_iff.1 hx
  have hbad : (input[r] = 0 ∨ (input.drop (r + 1)).length + 1 < input[r].toNat) ↔ MalformedAt input r input[r] :=
    or_congr_right (by rw [List.length_drop]; omega)
  rw [List.drop_eq_getElem_cons hr]
  simp only [unstuff]
  split
  next h => simp [hbad.1 h]
  next h =>
    have hpos : 0 < input[r].toNat := BitVec.toNat_pos_of_ne_zero fun h0 => h (.inl h0)
    rw [List.drop_drop, show r + 1 + (input[r].toNat - 1) = r + input[r].toNat by omega]
    simp [mt hbad.2 h]

/-- A failure has a cause: some code byte of the input is defective. -/
theorem exists_malformedAt {input : List Byte} {fuel r : Nat} (hr : CodeAt input r)
    (hfail : (unstuff fuel (input.drop r)).1 = false) :
    ∃ r' x, CodeAt input r' ∧ input[r']? = some x ∧ MalformedAt input r' x := by
  induction fuel generalizing r with
  | zero => simp [unstuff] at hfail
  | succ fuel ih =>
    obtain ⟨x, hx⟩ : ∃ x, input[r]? = some x := ⟨_, List.getElem?_eq_getElem hr.lt⟩
    by_cases hbad : MalformedAt input r x
    · exact ⟨r, x, hr, hx, hbad⟩
    · have hrest := ((unstuff_fails_at hx fuel).1 hfail).resolve_left hbad
      have hlt : r + x.toNat < input.length := by
        by_contra hge
        simp [List.drop_eq_nil_of_le (Nat.le_of_not_lt hge)] at hrest
      exact ih (.next r x hr hx (fun h0 => hbad (.inl h0)) hlt) hrest

/-- A failure at a code byte is a failure of the whole input: un-stuffing reaches every code byte with fuel left. -/
theorem CodeAt.unstuff_fails {input : List Byte} {r : Nat} (h : CodeAt input r) :
    ∃ fuel, input.length - r ≤ fuel ∧
      ((unstuff fuel (input.drop r)).1 = false → (unstuff input.length input).1 = false) := by
  induction h with
  | first _ => exact ⟨input.length, Nat.sub_le _ _, id⟩
  | next r x hr hx hne hlt ih =>
    obtain ⟨fuel, hfuel, hfail⟩ := ih
    have hpos := BitVec.toNat_pos_of_ne_zero hne
    obtain ⟨k, rfl⟩ : ∃ k, fuel = k + 1 := ⟨fuel - 1, by have := hr.lt; omega⟩
    exact ⟨k, by omega, fun hk => hfail ((unstuff_fails_at hx k).2 (.inr hk))⟩

/-- Un-stuffing fails exactly on an input with a defective code byte. -/
theorem unstuff_fails_iff (input : List Byte) :
    (unstuff input.length input).1 = false ↔ ∃ r x, CodeAt input r ∧ input[r]? = some x ∧ MalformedAt input r x := by
  constructor
  · intro hfail
    have hne : input ≠ [] := by
      rintro rfl
      simp at hfail
    exact exists_malformedAt (.first hne) hfail
  · rintro ⟨r, x, hr, hx, hbad⟩
    obtain ⟨fuel, hfuel, hfail⟩ := hr.unstuff_fails
    obtain ⟨k, rfl⟩ : ∃ k, fuel = k + 1 := ⟨fuel - 1, by have := hr.lt; omega⟩
    exact hfail ((unstuff_fails_at hx k).2 (.inl hbad))

/-- Settles O22: CobsDecode fails where the un-stuffing of the bytes it reads fails. -/
theorem malformedInputsAreExactlyTwo : Obligations.MalformedInputsAreExactlyTwo := by
  intro m src dst n
  simpa [cobsDecode_eq, MalformedAt] using unstuff_fails_iff (m.readBytes src 0 n)

/-! ### What decoding reads and writes (R107, R108) -/

/-- CobsDecode writes the first `size` bytes of its destination only. -/
theorem cobsDecode_readByte_other (src : Region) {dst b : Region} (n : Nat) (m : Memory) {off : Nat}
    (h : b ≠ dst ∨ (cobsDecode src dst n m).size ≤ off) :
    (cobsDecode src dst n m).mem.readByte b off = m.readByte b off := by
  rw [cobsDecode_eq] at h ⊢
  exact Memory.readByte_writeBytes_other m _ (h.imp_right fun hle => .inr (by simpa using hle))

/-- Settles O23: outcome, size and written bytes are the un-stuffing of the `n` bytes read. -/
theorem decodeStaysInBounds : Obligations.DecodeStaysInBounds := by
  intro m src dst n
  have hsize := cobsDecode_size_lt src dst n m
  refine ⟨fun _ => hsize, fun hn => by omega, fun b off => cobsDecode_readByte_other src n m, fun m' hread => ?_⟩
  simp only [cobsDecode_eq, hread, Memory.readBytes_writeBytes, and_self]

/-- Settles O24: both decodes read the same bytes and write what they un-stuff to the same place. -/
theorem inPlaceDecodeEqualsDecodeOfACopy : Obligations.InPlaceDecodeEqualsDecodeOfACopy := by
  intro m b copy n hcopy
  simp only [cobsDecode_eq, hcopy, implies_true, and_self]

/-! ### FRAME_ENCODE and FRAME_DECODE (R112, R113) -/

/-- Of the causes of RANGE, two ids that name buffers leave only the size (R112, R113). -/
theorem rangeCause_of_regionOf {src dst : BufId} {a b : Region} {p : Prop} (ha : regionOf src = some a) (hb : regionOf dst = some b)
    (h : src = .reserved ∨ dst = .reserved ∨ p) : p := by
  rcases h with rfl | rfl | hp
  · cases ha
  · cases hb
  · exact hp

/-- FRAME_ENCODE over two buffers: its checks in their order, then the stuffing. -/
theorem exec_frameEncode {src dst : BufId} {a b : Region} (ha : regionOf src = some a) (hb : regionOf dst = some b) (n : Nat)
    (s : State) : exec (.frameEncode src dst n) s =
      if s.cfg.msm < n then .next (s.responded 0x20#32 0)
      else if a = b then .next (s.responded 0x30#32 0)
      else if s.owned b then .next (s.responded 0x40#32 0)
      else .next { s.responded 0x01#32 (BitVec.ofNat 32 (n + 1)) with
        mem := s.mem.writeBytes b 0 (cobsEncode (s.mem.readBytes a 0 n)) } := by
  simp only [exec, execFrameEncode, ha, hb, State.owned_beginCommand]
  rfl

/-- A size above MSM or a reserved id ends FRAME_ENCODE at its first check. -/
theorem exec_frameEncode_range {src dst : BufId} {n : Nat} {s : State}
    (h : src = .reserved ∨ dst = .reserved ∨ s.cfg.msm < n) :
    exec (.frameEncode src dst n) s = .next (s.responded 0x20#32 0) := by
  simp only [exec, execFrameEncode]
  split
  next a b ha hb => exact if_pos (rangeCause_of_regionOf ha hb h)
  · rfl

/-- Settles O25: `exec_frameEncode` check by check, and the length of the stuffing of at most MSM bytes. -/
theorem frameEncodeStuffsAcrossBuffers : Obligations.FrameEncodeStuffsAcrossBuffers := by
  refine fun src dst n s hc => ⟨exec_frameEncode_range, fun a b ha hb hn => ?_⟩
  have hne : src ≠ dst → a ≠ b := by
    rintro hsd rfl
    exact hsd (regionOf_inj ha hb)
  rw [exec_frameEncode ha hb, if_neg (Nat.not_lt.2 hn)]
  refine ⟨fun hsd => ?_, fun hsd hown => ?_, fun hsd hown => ?_⟩
  · have hab : a = b := Option.some.inj (ha.symm.trans (hsd ▸ hb))
    rw [if_pos hab]
  · rw [if_neg (hne hsd), if_pos hown]
  · have hmsm := (Config.msm_bounds hc).2
    have hlen : (cobsEncode (s.mem.readBytes a 0 n)).length = n + 1 := by
      rw [cobsEncode_length (by simp; omega), Memory.readBytes_length]
    refine ⟨s.mem.writeBytes b 0 (cobsEncode (s.mem.readBytes a 0 n)), ?_, ?_, fun b' off h => ?_⟩
    · simp [hne hsd, hown]
    · rw [← hlen, Memory.readBytes_writeBytes]
    · exact Memory.readByte_writeBytes_other _ _ (h.imp_right fun hle => .inr (by omega))

/-- FRAME_DECODE over two buffers or in place: its checks in their order, then the un-stuffing. -/
theorem exec_frameDecode {src dst : BufId} {a b : Region} (ha : regionOf src = some a) (hb : regionOf dst = some b) (n : Nat)
    (s : State) : exec (.frameDecode src dst n) s =
      if s.cfg.bufCap < n then .next (s.responded 0x20#32 0)
      else if s.owned b then .next (s.responded 0x40#32 0)
      else
        let r := cobsDecode a b n s.mem
        if r.ok = true ∧ 0 < r.size then .next { s.responded 0x01#32 (BitVec.ofNat 32 r.size) with mem := r.mem }
        else .next { s.responded 0x60#32 0 with mem := r.mem } := by
  simp only [exec, execFrameDecode, ha, hb, State.owned_beginCommand]
  rfl

/-- A size above BUF_CAP or a reserved id ends FRAME_DECODE at its first check. -/
theorem exec_frameDecode_range {src dst : BufId} {n : Nat} {s : State}
    (h : src = .reserved ∨ dst = .reserved ∨ s.cfg.bufCap < n) :
    exec (.frameDecode src dst n) s = .next (s.responded 0x20#32 0) := by
  simp only [exec, execFrameDecode]
  split
  next a b ha hb => exact if_pos (rangeCause_of_regionOf ha hb h)
  · rfl

/-- Settles O26: `exec_frameDecode` check by check, with CobsDecode's own frame. -/
theorem frameDecodeUnstuffs : Obligations.FrameDecodeUnstuffs := by
  refine fun src dst n s => ⟨exec_frameDecode_range, fun a b ha hb hn => ?_⟩
  rw [exec_frameDecode ha hb, if_neg (Nat.not_lt.2 hn)]
  refine ⟨fun hown => if_pos hown, fun hown => ⟨?_, fun b' off => cobsDecode_readByte_other a n s.mem⟩⟩
  simp only [hown, Bool.false_eq_true, if_false]

end Sys2Proof.Machine
end

/-! # The keyed integrity check (41_integrity_check.md)

Fletcher16 is the pair of its sums, and the sums of a concatenation go on from those of its first part: everything the spec
derives in R136 follows. The last part lifts R136 (c) from the check to whole commands: each function of the model carries
a key of equal sums along untouched. -/

section
namespace Sys2Proof.Machine

/-! ### The arithmetic of the check (R132, R133, R136) -/

/-- Equal values of Fletcher16 are equal sums, since it holds both. -/
theorem fletcherSums_eq_of_fletcher16_eq {x y : List Byte} (h : fletcher16 x = fletcher16 y) :
    fletcherSums x = fletcherSums y := by
  have hnat : (fletcher16 x).toNat = (fletcher16 y).toNat := congrArg BitVec.toNat h
  rw [fletcher16_toNat, fletcher16_toNat] at hnat
  have hx := fletcherSums_lt x
  have hy := fletcherSums_lt y
  exact Prod.ext (by omega) (by omega)

/-- Fletcher16 of a concatenation sees its first part only through that part's sums. -/
theorem fletcher16_append_congr {x y : List Byte} (h : fletcherSums x = fletcherSums y) (data : List Byte) :
    fletcher16 (x ++ data) = fletcher16 (y ++ data) := by
  simp only [fletcher16, fletcherSums_append, h]

/-- Fletcher16 is at most 0xFEFE, as both sums are below 255 (R136 a). -/
theorem fletcher16_le (x : List Byte) : (fletcher16 x).toNat ≤ 0xFEFE := by
  have := fletcherSums_lt x
  rw [fletcher16_toNat]
  omega

/-- The low check byte is the first sum. -/
theorem checkLow_fletcher16_toNat (x : List Byte) : (checkLow (fletcher16 x)).toNat = (fletcherSums x).1 := by
  have := fletcherSums_lt x
  simp only [checkLow, fletcher16_toNat, BitVec.toNat_ofNat]
  omega

/-- The high check byte is the second sum. -/
theorem checkHigh_fletcher16_toNat (x : List Byte) : (checkHigh (fletcher16 x)).toNat = (fletcherSums x).2 := by
  have := fletcherSums_lt x
  simp only [checkHigh, fletcher16_toNat, BitVec.toNat_ofNat]
  omega

theorem ne_ff_of_toNat_lt {x : Byte} (h : x.toNat < 255) : x ≠ 0xFF#8 := by
  rintro rfl
  exact absurd h (by decide)

/-- Modulo 255 the byte 0xFF adds what 0x00 adds (R136 b). -/
theorem fletcherPush_ff (sums : Nat × Nat) : fletcherPush sums 0xFF#8 = fletcherPush sums 0x00#8 := by
  simp [fletcherPush]

/-- Keys with equal Fletcher16 give equal checks (R136 c). -/
theorem keyedCheck_congr {c c' : Config} (h : fletcher16 c.key = fletcher16 c'.key) (data : List Byte) :
    keyedCheck c data = keyedCheck c' data :=
  fletcher16_append_congr (fletcherSums_eq_of_fletcher16_eq h) data

/-- Settles O29: the check bytes are sums modulo 255, 0xFF is 0 there, and the data's sums start from the key's. -/
theorem keyedCheckArithmetic : Obligations.KeyedCheckArithmetic := by
  refine ⟨fun x => ⟨ne_ff_of_toNat_lt ?_, ne_ff_of_toNat_lt ?_⟩, fun x y => fletcher16_append_congr ?_ y,
    fun c c' => keyedCheck_congr, fun c c' h => keyedCheck_congr (congrArg fletcher16 h)⟩
  · rw [checkLow_fletcher16_toNat]
    exact (fletcherSums_lt x).1
  · rw [checkHigh_fletcher16_toNat]
    exact (fletcherSums_lt x).2
  · simp only [fletcherSums_append, List.foldl_cons, List.foldl_nil, fletcherPush_ff]

/-! ### CHECK_SETUP and CHECK_COMPUTE (R137, R138) -/

theorem Config.keyValid_iff_length (c : Config) : c.keyValid = true ↔ 1 ≤ c.key.length := decide_eq_true_iff

theorem Config.keyValid_eq_false_iff (c : Config) : c.keyValid = false ↔ c.key = [] := by
  rw [← Bool.not_eq_true, Config.keyValid_iff, not_not]

theorem inBuffer_eq_false_iff (c : Config) (off n : Nat) : inBuffer c off n = false ↔ c.bufCap < off + n := by
  simp [inBuffer]

/-- Settles O27: CHECK_SETUP answers KeyValid, which is having a key byte. -/
theorem checkSetupReportsTheKey : Obligations.CheckSetupReportsTheKey := by
  intro s
  simp only [exec, execCheckSetup, State.beginCommand_cfg, Config.keyValid_iff_length]
  rfl

/-- CHECK_COMPUTE over a buffer: its checks in their order, then the keyed check. -/
theorem exec_checkCompute {buf : BufId} {b : Region} (hb : regionOf buf = some b) (off len : Nat) (s : State) :
    exec (.checkCompute buf off len) s =
      if s.cfg.bufCap < off + len then .next (s.responded 0x20#32 0)
      else if s.cfg.key = [] then .next (s.responded 0x50#32 0)
      else .next (s.responded 0x01#32 ((keyedCheck s.cfg (s.mem.readBytes b off len)).setWidth 32)) := by
  simp only [exec, execCheckCompute, hb, State.beginCommand_cfg, inBuffer_eq_false_iff, Config.keyValid_eq_false_iff]
  rfl

/-- A reserved id or a range past BUF_CAP ends CHECK_COMPUTE at its first check. -/
theorem exec_checkCompute_range {buf : BufId} {off len : Nat} {s : State}
    (h : buf = .reserved ∨ s.cfg.bufCap < off + len) :
    exec (.checkCompute buf off len) s = .next (s.responded 0x20#32 0) := by
  cases hb : regionOf buf with
  | none =>
    simp only [exec, execCheckCompute, hb]
    rfl
  | some b =>
    have hout : s.cfg.bufCap < off + len := h.resolve_left (by rintro rfl; cases hb)
    rw [exec_checkCompute hb, if_pos hout]

/-- Settles O28: `exec_checkCompute` check by check, and the bound of Fletcher16. -/
theorem checkComputeGivesTheKeyedCheck : Obligations.CheckComputeGivesTheKeyedCheck := by
  refine fun buf off len s => ⟨exec_checkCompute_range, fun b hb hin => ?_⟩
  rw [exec_checkCompute hb, if_neg (Nat.not_lt.2 hin)]
  refine ⟨fun hkey => if_pos hkey, fun hkey => ⟨_, if_neg hkey, rfl, ?_⟩⟩
  rw [BitVec.toNat_setWidth_of_le (by decide)]
  exact fletcher16_le _

end Sys2Proof.Machine

/-! ### Another key in a configuration, a state and an outcome -/

namespace Sys2Proof

/-- The configuration with another key. -/
def Config.withKey (c : Config) (key : List Byte) : Config := { c with key := key }

end Sys2Proof

namespace Sys2Proof.Machine

/-- The state with another key. -/
def State.withKey (s : State) (key : List Byte) : State := { s with cfg := s.cfg.withKey key }

/-- The outcome with another key in its next state. -/
def nextWithKey (key : List Byte) : Result → Result
  | .next t => .next (t.withKey key)
  | r => r

@[simp] theorem State.withKey_cfg (s : State) (key : List Byte) : (s.withKey key).cfg = s.cfg.withKey key := rfl
@[simp] theorem State.withKey_txState (s : State) (key : List Byte) : (s.withKey key).txState = s.txState := rfl
@[simp] theorem State.withKey_rxAcc (s : State) (key : List Byte) : (s.withKey key).rxAcc = s.rxAcc := rfl
@[simp] theorem State.withKey_rxSize (s : State) (key : List Byte) : (s.withKey key).rxSize = s.rxSize := rfl
@[simp] theorem State.withKey_link (s : State) (key : List Byte) : (s.withKey key).link = s.link := rfl

theorem State.withKey_beginCommand (s : State) (key : List Byte) :
    (s.withKey key).beginCommand = s.beginCommand.withKey key := rfl

theorem State.withKey_withLink (s : State) (key : List Byte) (l : Link) :
    (s.withKey key).withLink l = (s.withLink l).withKey key := rfl

theorem State.withKey_withRxLife (s : State) (key : List Byte) (l : RxLife) :
    (s.withKey key).withRxLife l = (s.withRxLife l).withKey key := rfl

theorem State.withKey_withRxLastTime (s : State) (key : List Byte) (now : Word) :
    (s.withKey key).withRxLastTime now = (s.withRxLastTime now).withKey key := rfl

/-! ### The functions that read the key (R131, R133)

There are two: KeyValid and KeyedCheck. -/

/-- Another key that KeyValid and KeyedCheck do not tell from the configuration's own. -/
structure SameChecks (c : Config) (key : List Byte) : Prop where
  keyValid : (c.withKey key).keyValid = c.keyValid
  keyedCheck : ∀ data, keyedCheck (c.withKey key) data = keyedCheck c data

/-- Non-empty keys with equal Fletcher16 are such keys (R136 c). -/
theorem sameChecks_of_fletcher16_eq {c : Config} {key : List Byte} (hc : c.key ≠ []) (hkey : key ≠ [])
    (hsum : fletcher16 key = fletcher16 c.key) : SameChecks c key where
  keyValid := ((Config.keyValid_iff _).2 hkey).trans ((Config.keyValid_iff c).2 hc).symm
  keyedCheck := keyedCheck_congr hsum

theorem SameChecks.messageEncode {c : Config} {key : List Byte} (h : SameChecks c key) (b : Region) (n : Nat)
    (m : Memory) : messageEncode (c.withKey key) b n m = messageEncode c b n m := by
  simp only [Machine.messageEncode, insertCheck, h.keyedCheck]

theorem SameChecks.messageDecodeValidate {c : Config} {key : List Byte} (h : SameChecks c key) (b : Region)
    (size : Nat) (m : Memory) : messageDecodeValidate (c.withKey key) b size m = messageDecodeValidate c b size m := by
  simp only [Machine.messageDecodeValidate, h.keyedCheck]

/-! ### Commands that only answer

Once `apply_ite` has moved the key into the branches, both sides make the same checks. -/

theorem execBufRd_withKey (buf : BufId) (off : Nat) (s : State) (key : List Byte) :
    execBufRd buf off (s.withKey key) = nextWithKey key (execBufRd buf off s) := by
  cases hb : regionOf buf with
  | none => simp only [execBufRd, hb]; rfl
  | some b => simp only [execBufRd, hb, apply_ite (nextWithKey key)]; rfl

theorem execBufWr_withKey (buf : BufId) (off : Nat) (val : Byte) (s : State) (key : List Byte) :
    execBufWr buf off val (s.withKey key) = nextWithKey key (execBufWr buf off val s) := by
  cases hb : regionOf buf with
  | none => simp only [execBufWr, hb]; rfl
  | some b => simp only [execBufWr, hb, apply_ite (nextWithKey key)]; rfl

/-- No register of R41 shows the key (R40). -/
theorem register?_withKey (number : Nat) (s : State) (key : List Byte) :
    (s.withKey key).register? number = s.register? number := rfl

theorem execRegRd_withKey (reg : Nat) (s : State) (key : List Byte) :
    execRegRd reg (s.withKey key) = nextWithKey key (execRegRd reg s) := by
  simp only [execRegRd, State.withKey_beginCommand, register?_withKey]
  cases s.beginCommand.register? reg <;> rfl

theorem execFrameEncode_withKey (src dst : BufId) (n : Nat) (s : State) (key : List Byte) :
    execFrameEncode src dst n (s.withKey key) = nextWithKey key (execFrameEncode src dst n s) := by
  simp only [execFrameEncode]
  split
  · simp only [apply_ite (nextWithKey key)]; rfl
  · rfl

theorem execFrameDecode_withKey (src dst : BufId) (n : Nat) (s : State) (key : List Byte) :
    execFrameDecode src dst n (s.withKey key) = nextWithKey key (execFrameDecode src dst n s) := by
  simp only [execFrameDecode]
  split
  · simp only [apply_ite (nextWithKey key)]; rfl
  · rfl

theorem execTxCansend_withKey (s : State) (key : List Byte) :
    execTxCansend (s.withKey key) = nextWithKey key (execTxCansend s) := by
  simp only [execTxCansend, apply_ite (nextWithKey key)]
  rfl

theorem execTxSend_withKey (n : Nat) (s : State) (key : List Byte) :
    execTxSend n (s.withKey key) = nextWithKey key (execTxSend n s) := by
  simp only [execTxSend, apply_ite (nextWithKey key)]
  rfl

/-! ### The Transmitter carries the key along -/

theorem txStartDelimiter_withKey (room : Nat) (s : State) (key : List Byte) :
    txStartDelimiter room (s.withKey key) = (txStartDelimiter room s).withKey key := by
  simp only [txStartDelimiter, apply_ite (State.withKey · key)]
  rfl

theorem txWriteChunk_withKey (room : Nat) (s : State) (key : List Byte) :
    txWriteChunk room (s.withKey key) = (txWriteChunk room s).withKey key := by
  simp only [txWriteChunk, apply_ite (State.withKey · key)]
  rfl

theorem txData_withKey (room : Nat) (s : State) (key : List Byte) :
    txData room (s.withKey key) = (txData room s).withKey key := by
  simp only [txData, txWriteChunk_withKey, apply_ite (State.withKey · key)]
  rfl

theorem txEndDelimiter_withKey (room : Nat) (s : State) (key : List Byte) :
    txEndDelimiter room (s.withKey key) = (txEndDelimiter room s).withKey key := by
  simp only [txEndDelimiter, apply_ite (State.withKey · key)]
  rfl

theorem txWork_withKey (room : Nat) (s : State) (key : List Byte) :
    txWork room (s.withKey key) = (txWork room s).withKey key := by
  simp only [txWork, txStartDelimiter_withKey, txData_withKey, txEndDelimiter_withKey, apply_ite (State.withKey · key)]
  rfl

theorem txLinked_withKey (s : State) (key : List Byte) : txLinked (s.withKey key) = (txLinked s).withKey key := by
  simp only [txLinked, apply_ite (State.withKey · key)]
  exact if_congr Iff.rfl rfl (txWork_withKey _ s.callConnected.2.callAvailableForWrite.2 key)

theorem txStepAt_withKey (now : Word) (s : State) (key : List Byte) :
    txStepAt now (s.withKey key) = (txStepAt now s).withKey key := by
  simp only [txStepAt, State.withKey_txState, txLinked_withKey]
  cases s.txState.timeoutError? with
  | none => rfl
  | some e =>
    simp only [apply_ite (State.withKey · key)]
    rfl

/-! ### The Receiver up to a delivery carries the key along -/

theorem reportLinkDown_withKey (s : State) (key : List Byte) :
    (s.withKey key).reportLinkDown = s.reportLinkDown.withKey key := by
  simp only [State.reportLinkDown, apply_ite (State.withKey · key)]
  rfl

theorem execRxStop_withKey (s : State) (key : List Byte) :
    execRxStop (s.withKey key) = nextWithKey key (execRxStop s) := by
  simp only [execRxStop, State.withKey_beginCommand, reportLinkDown_withKey, apply_ite (nextWithKey key)]
  rfl

theorem processAppend_withKey (x : Byte) (s : State) (key : List Byte) :
    processAppend x (s.withKey key) = (processAppend x s).withKey key := by
  simp only [processAppend, apply_ite (State.withKey · key)]
  rfl

theorem processByte_withKey (x : Byte) (s : State) (key : List Byte) :
    processByte x (s.withKey key) = ((processByte x s).1, (processByte x s).2.withKey key) := by
  cases hacc : s.rxAcc with
  | waitingForStart =>
    simp only [processByte, State.withKey_rxAcc, hacc, processWaitingForStart]
    split <;> rfl
  | waitingForData =>
    simp only [processByte, State.withKey_rxAcc, hacc, processWaitingForData]
    split <;> rfl
  | readingData =>
    by_cases hx : x = delimiter
    · by_cases hn : Config.msgMin ≤ s.rxSize.toNat
      · simp only [processByte, State.withKey_rxAcc, State.withKey_rxSize, hacc, hx, hn, if_true]
      · simp only [processByte, State.withKey_rxAcc, State.withKey_rxSize, hacc, hx, hn, if_true, if_false]
        rfl
    · simp only [processByte, State.withKey_rxAcc, hacc, hx, if_false, processAppend_withKey]

/-- The result of the read loop with another key in its state. -/
def RxReads.withKey (r : RxReads) (key : List Byte) : RxReads := { r with state := r.state.withKey key }

theorem rxReadLoop_withKey (now : Word) (k : Nat) (s : State) (key : List Byte) :
    rxReadLoop now k (s.withKey key) = (rxReadLoop now k s).withKey key := by
  induction k generalizing s with
  | zero => rfl
  | succ k ih =>
    by_cases h0 : s.link.available.1 = 0
    · simp [rxReadLoop, h0, State.withKey_withLink, RxReads.withKey]
    · cases hp : (processByte s.link.available.2.read.1
        (((s.withLink s.link.available.2).withLink s.link.available.2.read.2).withRxLastTime now)).1 <;>
      simp [rxReadLoop, h0, hp, State.withKey_withLink, State.withKey_withRxLastTime, processByte_withKey, ih,
        RxReads.withKey]

theorem rxIdleCheck_withKey (now : Word) (reads : Nat) (s : State) (key : List Byte) :
    rxIdleCheck now reads (s.withKey key) = (rxIdleCheck now reads s).withKey key := by
  simp only [rxIdleCheck, apply_ite (State.withKey · key)]
  rfl

theorem rxFinish_withKey (now : Word) (reads : Nat) (s : State) (key : List Byte) :
    rxFinish now reads (s.withKey key) = (rxFinish now reads s).withKey key := by
  unfold rxFinish rxMarkActivity
  split <;> rfl

theorem rxLinkUp_withKey (s : State) (key : List Byte) : rxLinkUp (s.withKey key) = (rxLinkUp s).withKey key := by
  simp only [rxLinkUp, apply_ite (State.withKey · key)]
  rfl

theorem rxLinkDown_withKey (s : State) (key : List Byte) : rxLinkDown (s.withKey key) = (rxLinkDown s).withKey key := by
  simp only [rxLinkDown, reportLinkDown_withKey]
  rfl

/-! ### Where the key is read: the check commands, the message codec, RX_START and a delivery -/

section
variable {s : State} {key : List Byte}

theorem execCheckSetup_withKey (h : SameChecks s.cfg key) :
    execCheckSetup (s.withKey key) = nextWithKey key (execCheckSetup s) := by
  simp only [execCheckSetup, State.withKey_beginCommand, State.withKey_cfg, State.beginCommand_cfg, h.keyValid]
  rfl

theorem execCheckCompute_withKey (h : SameChecks s.cfg key) (buf : BufId) (off len : Nat) :
    execCheckCompute buf off len (s.withKey key) = nextWithKey key (execCheckCompute buf off len s) := by
  cases hb : regionOf buf with
  | none => simp only [execCheckCompute, hb]; rfl
  | some b =>
    simp only [execCheckCompute, hb, apply_ite (nextWithKey key)]
    simp only [State.withKey_beginCommand, State.withKey_cfg, State.beginCommand_cfg, h.keyValid, h.keyedCheck]
    rfl

theorem execMsgEncode_withKey (h : SameChecks s.cfg key) (buf : BufId) (n : Nat) :
    execMsgEncode buf n (s.withKey key) = nextWithKey key (execMsgEncode buf n s) := by
  cases hb : regionOf buf with
  | none => simp only [execMsgEncode, hb]; rfl
  | some b =>
    simp only [execMsgEncode, hb, apply_ite (nextWithKey key)]
    simp only [State.withKey_beginCommand, State.withKey_cfg, State.beginCommand_cfg, h.keyValid, h.messageEncode]
    rfl

theorem execMsgDecode_withKey (h : SameChecks s.cfg key) (buf : BufId) (size : Nat) :
    execMsgDecode buf size (s.withKey key) = nextWithKey key (execMsgDecode buf size s) := by
  cases hb : regionOf buf with
  | none => simp only [execMsgDecode, hb]; rfl
  | some b =>
    simp only [execMsgDecode, hb, apply_ite (nextWithKey key)]
    simp only [State.withKey_beginCommand, State.withKey_cfg, State.beginCommand_cfg, h.keyValid, h.messageDecodeValidate]
    rfl

theorem execRxStart_withKey (h : SameChecks s.cfg key) :
    execRxStart (s.withKey key) = nextWithKey key (execRxStart s) := by
  simp only [execRxStart, apply_ite (nextWithKey key)]
  simp only [State.withKey_beginCommand, State.withKey_cfg, State.beginCommand_cfg, h.keyValid]
  rfl

theorem rxDeliver_withKey (h : SameChecks s.cfg key) : rxDeliver (s.withKey key) = (rxDeliver s).withKey key := by
  simp only [rxDeliver, State.withKey_cfg, h.messageDecodeValidate]
  rfl

/-- A connected step ends in a delivery or in the idle check; both carry the key along. -/
theorem rxConnected_withKey (now : Word) (h : SameChecks s.cfg key) :
    rxConnected now (s.withKey key) = (rxConnected now s).withKey key := by
  have hloop : rxReadLoop now (s.withKey key).cfg.maxIn (s.withKey key) = (rxReadLoop now s.cfg.maxIn s).withKey key :=
    rxReadLoop_withKey now s.cfg.maxIn s key
  unfold rxConnected
  rw [hloop]
  cases hclosed : (rxReadLoop now s.cfg.maxIn s).closed with
  | false =>
    simp only [RxReads.withKey, hclosed, Bool.false_eq_true, if_false, rxIdleCheck_withKey, rxFinish_withKey]
  | true =>
    have hcfg : SameChecks ((rxReadLoop now s.cfg.maxIn s).state.withRxLife .delivering).cfg key := by simpa using h
    simp only [RxReads.withKey, hclosed, if_true, State.withKey_withRxLife, rxDeliver_withKey hcfg, rxFinish_withKey]

theorem rxStepAt_withKey (now : Word) (h : SameChecks s.cfg key) :
    rxStepAt now (s.withKey key) = (rxStepAt now s).withKey key := by
  have hconn := rxConnected_withKey now (s := rxLinkUp s.callConnected.2) (key := key) (by simpa using h)
  rw [← rxLinkUp_withKey] at hconn
  simp only [rxStepAt, apply_ite (State.withKey · key)]
  exact if_congr Iff.rfl rfl (if_congr Iff.rfl (rxLinkDown_withKey s.callConnected.2 key) hconn)

/-! ### Every command -/

/-- Under a key of the same checks every command does the same, and the key stays in place. -/
theorem exec_withKey (i : Instr) (h : SameChecks s.cfg key) : exec i (s.withKey key) = nextWithKey key (exec i s) := by
  cases i with
  | bufRd buf off => exact execBufRd_withKey buf off s key
  | bufWr buf off val => exact execBufWr_withKey buf off val s key
  | regRd reg => exact execRegRd_withKey reg s key
  | frameEncode src dst n => exact execFrameEncode_withKey src dst n s key
  | frameDecode src dst n => exact execFrameDecode_withKey src dst n s key
  | checkSetup => exact execCheckSetup_withKey h
  | checkCompute buf off len => exact execCheckCompute_withKey h buf off len
  | msgEncode buf n => exact execMsgEncode_withKey h buf n
  | msgDecode buf size => exact execMsgDecode_withKey h buf size
  | txCansend => exact execTxCansend_withKey s key
  | txSend n => exact execTxSend_withKey n s key
  | txStep => exact congrArg Host.Outcome.next (txStepAt_withKey s.sampledNow (s.beginCommand.withLink s.sampledLink) key)
  | rxStart => exact execRxStart_withKey h
  | rxStop => exact execRxStop_withKey s key
  | rxStep =>
    exact congrArg Host.Outcome.next (rxStepAt_withKey s.sampledNow (s := s.beginCommand.withLink s.sampledLink) h)
  | layoutMsgsize | layoutPaysize | txStop | rxWake => rfl

end

/-- Settles O58: non-empty keys of equal Fletcher16 give the same checks, and `exec_withKey` is the simulation of every
command. -/
theorem keysWithEqualSumsAreIndistinguishable : Obligations.KeysWithEqualSumsAreIndistinguishable := by
  intro i s t key hold hnew hsum ht
  have hexec := exec_withKey i (sameChecks_of_fletcher16_eq hold hnew hsum)
  rw [ht] at hexec
  exact hexec

end Sys2Proof.Machine
end

/-! # The message layout (42_message_layout.md)

Each layout command answers OK with its conversion. The two conversions composed clamp a message size to 3..255, and R155
is that clamp on and below the range. -/

section
namespace Sys2Proof.Machine

/-! ### LAYOUT_MSGSIZE and LAYOUT_PAYSIZE (R156, R157) -/

/-- A command that only succeeds leaves its response: OK with no error code, the value, no events and no calls (R317). -/
theorem State.beginCommand_succeed (s : State) (v : Word) : s.beginCommand.succeed v = s.responded 0x01#32 v := rfl

theorem exec_layoutMsgsize (n : Nat) (s : State) :
    exec (.layoutMsgsize n) s = .next (s.responded 0x01#32 (BitVec.ofNat 32 (messageSize n))) := by
  simp only [exec, execLayoutMsgsize, State.beginCommand_succeed]

theorem exec_layoutPaysize (n : Nat) (s : State) :
    exec (.layoutPaysize n) s = .next (s.responded 0x01#32 (BitVec.ofNat 32 (payloadSize n))) := by
  simp only [exec, execLayoutPaysize, State.beginCommand_succeed]

/-- Settles O30: each command answers its conversion, which is the arithmetic of R153 or R154 by definition. -/
theorem layoutCommandsConvertSizes : Obligations.LayoutCommandsConvertSizes :=
  fun n s => ⟨exec_layoutMsgsize n s, exec_layoutPaysize n s⟩

/-! ### The conversions composed (R155) -/

/-- A message size, taken to its payload size and back, is clamped to 3..255: the conversions saturate at both ends. -/
theorem messageSize_payloadSize (n : Nat) : messageSize (payloadSize n) = min (max n 3) 255 := by
  unfold messageSize payloadSize
  split
  next hn => rw [Nat.sub_add_cancel hn, Nat.max_eq_left hn]
  next hn => rw [Nat.zero_add, Nat.max_eq_right (Nat.le_of_not_le hn)]

/-- Settles O31: the clamp fixes 3..255 and lifts what is below 3 to 3. -/
theorem layoutConversionsAgree : Obligations.LayoutConversionsAgree := by
  refine fun n => ⟨fun hlow hhigh => ?_, fun hbelow => ?_⟩ <;> rw [messageSize_payloadSize]
  · rw [Nat.max_eq_left hlow, Nat.min_eq_left hhigh]
  · rw [Nat.max_eq_right hbelow.le, Nat.min_eq_left (by decide)]

end Sys2Proof.Machine
end

/-! # The message codec (43_message_codec.md)

MSG_ENCODE leaves a stuffed frame (`messageEncode_readBytes`), and MSG_DECODE of a stuffed frame is valid and leaves the
frame's content (`exec_msgDecode_stuffedFrame`). The round trip of R177 is the two in a row. -/

section
namespace Sys2Proof.Machine

/-! ### What MessageEncode leaves in memory (R171) -/

/-- Inserting the check writes the two check bytes only. -/
theorem insertCheck_readByte_other (c : Config) {b b' : Region} (n : Nat) (m : Memory) {off : Nat}
    (h : b' ≠ b ∨ 2 ≤ off) : (insertCheck c b n m).readByte b' off = m.readByte b' off := by
  have hlow : b' ≠ b ∨ off ≠ crc0Offset := h.imp_right fun hoff => by simp only [crc0Offset]; omega
  have hhigh : b' ≠ b ∨ off ≠ crc1Offset := h.imp_right fun hoff => by simp only [crc1Offset]; omega
  simp only [insertCheck]
  rw [Memory.readByte_writeByte_other _ _ hhigh, Memory.readByte_writeByte_other _ _ hlow]

theorem frameOf_readBytes_length (c : Config) (b : Region) (m : Memory) {n : Nat} (hn : 3 ≤ n) :
    (frameOf c (m.readBytes b 2 (n - 2))).length = n := by
  rw [frameOf_length, Memory.readBytes_length]
  omega

/-- MessageEncode of a legal size leaves the stuffed frame, one byte longer than the message. -/
theorem messageEncode_readBytes (c : Config) (b : Region) (m : Memory) {n : Nat} (hn : 3 ≤ n) (hmax : n ≤ 253) :
    (messageEncode c b n m).readBytes b 0 (n + 1) = cobsEncode (frameOf c (m.readBytes b 2 (n - 2))) := by
  have hframe := frameOf_readBytes_length c b m hn
  have hlen : (cobsEncode (frameOf c (m.readBytes b 2 (n - 2)))).length = n + 1 := by
    rw [cobsEncode_length (by omega), hframe]
  rw [messageEncode_eq c b n m hn, ← hlen, Memory.readBytes_writeBytes]

/-- Beyond the stuffed frame and its copy in SCRATCH, MessageEncode writes nothing. -/
theorem messageEncode_readByte_other (c : Config) {b b' : Region} (m : Memory) {n off : Nat} (hn : 3 ≤ n) (hmax : n ≤ 253)
    (hscratch : b' ≠ .scratch ∨ n ≤ off) (hbuf : b' ≠ b ∨ n + 1 ≤ off) :
    (messageEncode c b n m).readByte b' off = m.readByte b' off := by
  have hframe := frameOf_readBytes_length c b m hn
  have hstuffed := cobsEncode_length (d := frameOf c (m.readBytes b 2 (n - 2))) (by omega)
  calc (messageEncode c b n m).readByte b' off
    _ = ((insertCheck c b n m).writeBytes .scratch 0 (frameOf c (m.readBytes b 2 (n - 2)))).readByte b' off := by
        rw [messageEncode_eq c b n m hn]
        exact Memory.readByte_writeBytes_other _ _ (hbuf.imp_right fun hoff => .inr (by omega))
    _ = (insertCheck c b n m).readByte b' off :=
        Memory.readByte_writeBytes_other _ _ (hscratch.imp_right fun hoff => .inr (by omega))
    _ = m.readByte b' off := insertCheck_readByte_other c n m (hbuf.imp_right fun hoff => by omega)

/-! ### MSG_ENCODE (R173) -/

/-- MSG_ENCODE of a buffer: its checks in their order, then MessageEncode. -/
theorem exec_msgEncode {buf : BufId} {b : Region} (hb : regionOf buf = some b) (n : Nat) (s : State) :
    exec (.msgEncode buf n) s =
      if n < 3 ∨ s.cfg.msm < n then .next (s.responded 0x20#32 0)
      else if s.owned b then .next (s.responded 0x40#32 0)
      else if s.cfg.key = [] then .next (s.responded 0x50#32 0)
      else .next { s.responded 0x01#32 (BitVec.ofNat 32 (n + 1)) with mem := messageEncode s.cfg b n s.mem } := by
  simp only [exec, execMsgEncode, hb, State.owned_beginCommand, State.beginCommand_cfg, Config.keyValid_eq_false_iff]
  rfl

/-- A reserved id or a size outside MSG_MIN..MSM ends MSG_ENCODE at its first check. -/
theorem exec_msgEncode_range {buf : BufId} {n : Nat} {s : State} (h : buf = .reserved ∨ n < 3 ∨ s.cfg.msm < n) :
    exec (.msgEncode buf n) s = .next (s.responded 0x20#32 0) := by
  cases hb : regionOf buf with
  | none =>
    simp only [exec, execMsgEncode, hb]
    rfl
  | some b =>
    have hsize : n < 3 ∨ s.cfg.msm < n := h.resolve_left (by rintro rfl; cases hb)
    rw [exec_msgEncode hb, if_pos hsize]

/-- Settles O32: `exec_msgEncode` check by check, then what MessageEncode leaves in memory. -/
theorem msgEncodeBuildsTheStuffedFrame : Obligations.MsgEncodeBuildsTheStuffedFrame := by
  refine fun buf n s hc => ⟨exec_msgEncode_range, fun b hb hn hm => ?_⟩
  have hrange : ¬ (n < 3 ∨ s.cfg.msm < n) := by omega
  have hmax : n ≤ 253 := hm.trans (Config.msm_bounds hc).2
  rw [exec_msgEncode hb, if_neg hrange]
  refine ⟨fun hown => if_pos hown, fun hown hkey => ?_, fun hown hkey => ⟨messageEncode s.cfg b n s.mem, ?_,
    messageEncode_readBytes s.cfg b s.mem hn hmax, fun b' off => messageEncode_readByte_other s.cfg s.mem hn hmax⟩⟩
  · rw [if_neg (by simp [hown]), if_pos hkey]
  · rw [if_neg (by simp [hown]), if_neg hkey]

/-! ### MessageDecodeValidate (R172) -/

/-- Why a decoded message is refused: CODEC for a failed or short decode, else CRC for a stored check that is not the
computed one. -/
theorem messageDecodeValidate_why (c : Config) (b : Region) (size : Nat) (m : Memory) :
    let r := cobsDecode b b size m
    let check := keyedCheck c (r.mem.readBytes b 2 (r.size - 2))
    (messageDecodeValidate c b size m).why =
      if r.ok = false ∨ r.size < 3 then .codec
      else if r.mem.readByte b 0 = checkLow check ∧ r.mem.readByte b 1 = checkHigh check then .none
      else .crc := by
  simp only [messageDecodeValidate, Config.msgMin, headerOffset, crc0Offset, crc1Offset]
  generalize cobsDecode b b size m = r
  cases hok : r.ok with
  | false => simp [Decoded.decodedSize, hok]
  | true =>
    simp only [Decoded.decodedSize, hok, if_true, Bool.true_eq_false, false_or]
    split
    · rfl
    · split <;> rfl

/-! ### MSG_DECODE (R174) -/

/-- MSG_DECODE of a buffer: its checks in their order, then CODEC, OK or CRC over the in-place decode. -/
theorem exec_msgDecode {buf : BufId} {b : Region} (hb : regionOf buf = some b) (size : Nat) (s : State) :
    exec (.msgDecode buf size) s =
      if s.cfg.bufCap < size then .next (s.responded 0x20#32 0)
      else if s.owned b then .next (s.responded 0x40#32 0)
      else if s.cfg.key = [] then .next (s.responded 0x50#32 0)
      else
        let r := cobsDecode b b size s.mem
        let check := keyedCheck s.cfg (r.mem.readBytes b 2 (r.size - 2))
        if r.ok = false ∨ r.size < 3 then .next { s.responded 0x60#32 0 with mem := r.mem }
        else if r.mem.readByte b 0 = checkLow check ∧ r.mem.readByte b 1 = checkHigh check then
          .next { s.responded 0x01#32 (BitVec.ofNat 32 r.size) with mem := r.mem }
        else .next { s.responded 0x70#32 (BitVec.ofNat 32 r.size) with mem := r.mem } := by
  simp only [exec, execMsgDecode, hb, State.owned_beginCommand, State.beginCommand_cfg, State.beginCommand_mem,
    Config.keyValid_eq_false_iff, messageDecodeValidate_why, messageDecodeValidate_size, messageDecodeValidate_mem]
  generalize cobsDecode b b size s.mem = r
  congr 3
  by_cases hshort : r.ok = false ∨ r.size < 3
  · simp only [if_pos hshort]
    rfl
  · have hsize : r.decodedSize = r.size := if_pos (by simpa using fun h => hshort (.inl h))
    simp only [if_neg hshort, hsize]
    split <;> rfl

/-- A reserved id or a size above BUF_CAP ends MSG_DECODE at its first check. -/
theorem exec_msgDecode_range {buf : BufId} {size : Nat} {s : State} (h : buf = .reserved ∨ s.cfg.bufCap < size) :
    exec (.msgDecode buf size) s = .next (s.responded 0x20#32 0) := by
  cases hb : regionOf buf with
  | none =>
    simp only [exec, execMsgDecode, hb]
    rfl
  | some b =>
    have hsize : s.cfg.bufCap < size := h.resolve_left (by rintro rfl; cases hb)
    rw [exec_msgDecode hb, if_pos hsize]

/-- Settles O33: `exec_msgDecode` check by check, with CobsDecode's own frame. -/
theorem msgDecodeValidatesTheFrame : Obligations.MsgDecodeValidatesTheFrame := by
  refine fun buf size s => ⟨exec_msgDecode_range, fun b hb hsize => ?_⟩
  rw [exec_msgDecode hb, if_neg (Nat.not_lt.2 hsize)]
  refine ⟨fun hown => if_pos hown, fun hown hkey => ?_,
    fun hown hkey => ⟨?_, fun b' off => cobsDecode_readByte_other b size s.mem⟩⟩
  · rw [if_neg (by simp [hown]), if_pos hkey]
  · rw [if_neg (by simp [hown]), if_neg hkey]
    rfl

/-! ### The round trip (R177) -/

/-- A frame in memory is its check at Crc0 and Crc1 and its content from Header on (R150). -/
theorem readBytes_eq_frameOf_iff (c : Config) (b : Region) (m : Memory) (content : List Byte) :
    m.readBytes b 0 (content.length + 2) = frameOf c content ↔
      m.readByte b 0 = checkLow (keyedCheck c content) ∧ m.readByte b 1 = checkHigh (keyedCheck c content)
      ∧ m.readBytes b 2 content.length = content := by
  simp only [Memory.readBytes_succ, frameOf, List.cons.injEq, Nat.zero_add, Nat.reduceAdd]

/-- A content in memory is its header and the payload after it (R150). -/
theorem readBytes_eq_content_iff (b : Region) (m : Memory) (h : Byte) (p : List Byte) :
    m.readBytes b 2 (p.length + 1) = h :: p ↔ m.readByte b 2 = h ∧ m.readBytes b 3 p.length = p := by
  simp only [Memory.readBytes_succ, List.cons.injEq, Nat.reduceAdd]

/-- A stuffed frame decodes in place to the frame. -/
theorem cobsDecode_stuffedFrame {c : Config} {b : Region} {m : Memory} {size : Nat} {content : List Byte}
    (h : m.readBytes b 0 size = cobsEncode (frameOf c content)) :
    let r := cobsDecode b b size m
    r.ok = true ∧ r.size = content.length + 2 ∧ r.mem.readBytes b 0 (content.length + 2) = frameOf c content := by
  obtain rfl : size = (cobsEncode (frameOf c content)).length := by simpa using congrArg List.length h
  obtain ⟨hok, hsize, hmem, -⟩ := decodeInvertsEncode.1 (frameOf c content) m b b h
  exact ⟨hok, hsize, hmem⟩

/-- MSG_DECODE of a stuffed frame that holds a header answers OK and the frame's size, and leaves the content from Header
on. -/
theorem exec_msgDecode_stuffedFrame {buf : BufId} {b : Region} (hb : regionOf buf = some b) {s : State} {size : Nat}
    {content : List Byte} (hcap : size ≤ s.cfg.bufCap) (hown : s.owned b = false) (hkey : s.cfg.key ≠ [])
    (hne : content ≠ []) (h : s.mem.readBytes b 0 size = cobsEncode (frameOf s.cfg content)) :
    ∃ m : Memory, exec (.msgDecode buf size) s =
        .next { s.responded 0x01#32 (BitVec.ofNat 32 (content.length + 2)) with mem := m }
      ∧ m.readBytes b 2 content.length = content := by
  have hpos : 0 < content.length := List.length_pos_iff.2 hne
  obtain ⟨hok, hsize, hmem⟩ := cobsDecode_stuffedFrame h
  obtain ⟨hlow, hhigh, hcontent⟩ := (readBytes_eq_frameOf_iff s.cfg b _ content).1 hmem
  refine ⟨(cobsDecode b b size s.mem).mem, ?_, hcontent⟩
  rw [exec_msgDecode hb, if_neg (Nat.not_lt.2 hcap), if_neg (by simp [hown]), if_neg hkey]
  simp only [hok, hsize, Nat.add_sub_cancel, hcontent]
  rw [if_neg (by simp; omega), if_pos ⟨hlow, hhigh⟩]

/-- Settles O34: by O32 MSG_ENCODE leaves the stuffed frame of the header and the payload, and MSG_DECODE of it gives its
content back. -/
theorem messageRoundTrip : Obligations.MessageRoundTrip := by
  intro s buf b h p hc hkey hb hown hp hheader hpayload
  have hmin := (Config.msm_bounds hc).1
  have hmsm : p.length + 3 ≤ s.cfg.msm := by simp only [Config.psm] at hp; omega
  have hcontent : s.mem.readBytes b 2 (p.length + 1) = h :: p :=
    (readBytes_eq_content_iff b s.mem h p).2 ⟨hheader, hpayload⟩
  obtain ⟨m, hencode, hstuffed, -⟩ :=
    ((msgEncodeBuildsTheStuffedFrame buf (p.length + 3) s hc).2 b hb (by omega) hmsm).2.2 hown hkey
  rw [show p.length + 3 - 2 = p.length + 1 by omega, hcontent] at hstuffed
  obtain ⟨m', hdecode, hback⟩ := exec_msgDecode_stuffedFrame hb
    (s := { s.responded 0x01#32 (BitVec.ofNat 32 (p.length + 3 + 1)) with mem := m })
    (Nat.succ_le_succ hmsm) ((State.owned_congr rfl rfl b).trans hown) hkey (List.cons_ne_nil h p) hstuffed
  obtain ⟨hheader', hpayload'⟩ := (readBytes_eq_content_iff b m' h p).1 hback
  exact ⟨_, _, hencode, hdecode, rfl, rfl, hheader', hpayload'⟩

end Sys2Proof.Machine
end

/-! # The Transmitter (44_transmitter.md)

`exec_txCansend`, `exec_txSend` and `exec_txStep` read each TX command as its checks in their order; `exec_txStep_start`,
`exec_txStep_data` and `exec_txStep_end` read the unit of work of a connected TX_STEP in each sending state. The rules R203 to
R212 are their branches. -/

section
namespace Sys2Proof.Machine

/-! ### Legal configurations and 8-bit counts -/

theorem Config.maxOut_pos {c : Config} (h : c.wf = true) : 0 < c.maxOut := by
  simp only [Config.wf, Bool.and_eq_true, decide_eq_true_eq] at h
  omega

/-- A count up to the value of an 8-bit register loses nothing in one (log 12). -/
theorem toNat_ofNat_register {n : Nat} {x : BitVec 8} (h : n ≤ x.toNat) : (BitVec.ofNat 8 n).toNat = n := by
  rw [BitVec.toNat_ofNat, Nat.mod_eq_of_lt (h.trans_lt x.isLt)]

/-- A count up to the value of an 8-bit register is that value as a word exactly when it is as a number. -/
theorem ofNat_eq_register_iff {n : Nat} {x : BitVec 8} (h : n ≤ x.toNat) : BitVec.ofNat 8 n = x ↔ n = x.toNat := by
  rw [← BitVec.toNat_inj, toNat_ofNat_register h]

/-! ### TX_CANSEND, TX_SEND and TX_STOP (R203, R204, R212) -/

theorem exec_txCansend (s : State) :
    exec .txCansend s =
      let room := s.beginCommand.link.availableForWrite
      if s.txState ≠ .notSending then .next (s.responded 0x01#32 0)
      else .next { s.responded 0x01#32 (if s.cfg.txMinHeadroom ≤ room.1 then 1 else 0) with link := room.2 } := rfl

/-- Settles O36: the two branches of TX_CANSEND. -/
theorem txCansendReportsCanSend : Obligations.TxCansendReportsCanSend := by
  refine fun s => ⟨fun hbusy => ?_, fun hidle => ?_⟩ <;> rw [exec_txCansend]
  · exact if_pos hbusy
  · exact if_neg (not_not_intro hidle)

theorem State.withLink_withLink (s : State) (l l' : Link) : (s.withLink l).withLink l' = s.withLink l' := rfl

/-- The response of an accepted TX_SEND, with the registers it sets. -/
theorem startTransfer_succeed (now : Word) (n : Nat) (s : State) (l : Link) :
    (startTransfer now n (s.beginCommand.withLink l)).succeed 1 = { s.responded 0x01#32 1 with
      link := l, txSize := BitVec.ofNat 8 n, txSent := 0, txStartTime := now, txState := .sendingStartDelimiter } := by
  unfold startTransfer State.withTxSize State.withTxSent State.withTxStartTime State.withTxState
  rfl

/-- TX_SEND: its checks in their order, after NOW is sampled. -/
theorem exec_txSend (n : Nat) (s : State) :
    exec (.txSend n) s =
      let room := s.sampledLink.availableForWrite
      if s.cfg.bufCap < n then .next { s.responded 0x20#32 0 with link := s.sampledLink }
      else if n < 3 then .next { s.responded 0x80#32 0 with link := s.sampledLink }
      else if s.txState ≠ .notSending then .next { s.responded 0x80#32 0 with link := s.sampledLink }
      else if room.1 < s.cfg.txMinHeadroom then .next { s.responded 0x80#32 0 with link := room.2 }
      else .next { s.responded 0x01#32 1 with
        link := room.2, txSize := BitVec.ofNat 8 n, txSent := 0, txStartTime := s.sampledNow,
        txState := .sendingStartDelimiter } := by
  simp only [exec, execTxSend, State.sampleNow_eq, State.callAvailableForWrite_eq, State.withLink_withLink,
    startTransfer_succeed]
  rfl

/-- Settles O37: `exec_txSend` check by check. -/
theorem txSendAcceptsOrRejects : Obligations.TxSendAcceptsOrRejects := by
  refine fun n s => ⟨fun hcap => ?_, fun hcap hreject => ?_, fun hcap hmin hidle hroom => ?_,
    fun hcap hmin hidle hroom => ?_⟩ <;> rw [exec_txSend]
  · exact if_pos hcap
  · rw [if_neg (Nat.not_lt.2 hcap)]
    by_cases hmin : n < 3
    · exact if_pos hmin
    · rw [if_neg hmin]
      exact if_pos (hreject.resolve_left hmin)
  · rw [if_neg (Nat.not_lt.2 hcap), if_neg (Nat.not_lt.2 hmin), if_neg (not_not_intro hidle)]
    exact if_pos hroom
  · rw [if_neg (Nat.not_lt.2 hcap), if_neg (Nat.not_lt.2 hmin), if_neg (not_not_intro hidle)]
    exact if_neg (Nat.not_lt.2 hroom)

/-- Settles O42: TX_STOP has one branch. -/
theorem txStopCancelsTheSend : Obligations.TxStopCancelsTheSend := fun _ => rfl

/-! ### TX_STEP up to its unit of work (R205 to R207) -/

/-- A sending Transmitter has an error for its deadline (R206). -/
theorem TxState.exists_timeoutError {t : TxState} (h : t ≠ .notSending) : ∃ e, t.timeoutError? = some e := by
  cases t with
  | notSending => exact absurd rfl h
  | sendingStartDelimiter | sendingData | sendingEndDelimiter => exact ⟨_, rfl⟩

/-- TX_STEP samples NOW, then steps. -/
theorem exec_txStep_eq (s : State) :
    exec .txStep s = .next (txStepAt s.sampledNow (s.beginCommand.withLink s.sampledLink)) := rfl

theorem exec_txStep_idle {s : State} (h : s.txState = .notSending) :
    exec .txStep s = .next { s.responded 0x01#32 0x80000000#32 with link := s.sampledLink } := by
  simp only [exec_txStep_eq, txStepAt, State.withLink_txState, State.beginCommand_txState, h, TxState.timeoutError?]
  rfl

/-- TX_STEP of a sending Transmitter: the deadline, then the link, then the unit of work. -/
theorem exec_txStep {s : State} {e : TxErr} (he : s.txState.timeoutError? = some e) :
    exec .txStep s = .next (
      if s.writeDeadlinePassed then
        { s.responded 0x01#32 0x80000000#32 with
          link := s.sampledLink, txState := .notSending, events := [(Event.txError e).word] }
      else if s.stepConnected = false then { s.responded 0x01#32 0x80000000#32 with link := s.connectedLink }
      else txWork s.stepRoom (s.beginCommand.withLink s.roomLink)) := by
  simp only [exec_txStep_eq, txStepAt, State.withLink_txState, State.beginCommand_txState, he]
  rfl

/-- A TX_STEP within the deadline and with the link up makes its unit of work (R205). -/
theorem exec_txStep_work {s : State} {e : TxErr} (he : s.txState.timeoutError? = some e) (hd : ¬ s.writeDeadlinePassed)
    (hc : s.stepConnected = true) : exec .txStep s = .next (txWork s.stepRoom (s.beginCommand.withLink s.roomLink)) := by
  rw [exec_txStep he, if_neg hd, if_neg (by simp [hc])]

/-- Settles O38: `exec_txStep_idle`, and the first two checks of `exec_txStep`. -/
theorem txStepSuspends : Obligations.TxStepSuspends := by
  refine fun s => ⟨exec_txStep_idle, fun hsend hlate => ?_, fun hsend hd hdown => ?_⟩
  · cases hstate : s.txState with
    | notSending => exact absurd hstate hsend
    | sendingStartDelimiter => rw [exec_txStep (e := .startTimeout) (by rw [hstate]; rfl), if_pos hlate]; rfl
    | sendingData => rw [exec_txStep (e := .dataTimeout) (by rw [hstate]; rfl), if_pos hlate]; rfl
    | sendingEndDelimiter => rw [exec_txStep (e := .endTimeout) (by rw [hstate]; rfl), if_pos hlate]; rfl
  · obtain ⟨e, he⟩ := TxState.exists_timeoutError hsend
    rw [exec_txStep he, if_neg hd, if_pos hdown]

/-! ### The unit of work of a TX_STEP (R208 to R210) -/

/-- The response of a step that moves to a TX_STATE, over the edge that its calls leave. -/
theorem State.withTxState_finishStep (s : State) (l : Link) (t : TxState) (r : Rearm) :
    ((s.beginCommand.withLink l).withTxState t).finishStep r =
      { s.responded 0x01#32 r.word with link := l, txState := t } := rfl

/-- The response of a step that moves and emits. -/
theorem State.emit_finishStep (s : State) (l : Link) (t : TxState) (e : Event) (r : Rearm) :
    (((s.beginCommand.withLink l).withTxState t).emit e).finishStep r =
      { s.responded 0x01#32 r.word with link := l, txState := t, events := [e.word] } := by
  unfold State.emit State.withEvents State.withTxState
  rfl

theorem txWork_of_start (room : Nat) {s : State} (h : s.txState = .sendingStartDelimiter) :
    txWork room s = txStartDelimiter room s := by
  rw [txWork, if_pos h]

theorem txWork_of_data (room : Nat) {s : State} (h : s.txState = .sendingData) : txWork room s = txData room s := by
  rw [txWork, if_neg (by simp [h]), if_pos h]

theorem txWork_of_end (room : Nat) {s : State} (h : s.txState = .sendingEndDelimiter) :
    txWork room s = txEndDelimiter room s := by
  rw [txWork, if_neg (by simp [h]), if_neg (by simp [h])]

/-- A data step writes its chunk, unless it is empty (R209). -/
theorem txWriteChunk_eq (s : State) :
    txWriteChunk s.stepRoom (s.beginCommand.withLink s.roomLink) =
      let w := s.roomLink.write s.stepChunk
      if 0 < s.stepChunk.length then (s.beginCommand.withLink w.2).withTxSent (s.txSent.toNat + w.1)
      else s.beginCommand.withLink s.roomLink := by
  have hlen : s.stepChunk.length = txChunk s.stepRoom (s.beginCommand.withLink s.roomLink) := Memory.readBytes_length _ _ _ _
  rw [txWriteChunk, hlen]
  rfl

/-- A data step moves on when everything is sent (R209). -/
theorem txData_eq (room : Nat) (s : State) :
    txData room s =
      let u := txWriteChunk room s
      (u.withTxState (if u.txSent = u.txSize then .sendingEndDelimiter else u.txState)).finishStep .immediate := by
  simp only [txData]
  split <;> rfl

/-- The response of a data step that wrote. -/
theorem State.withTxSent_finishStep (s : State) (l : Link) (n : Nat) (t : TxState) (r : Rearm) :
    (((s.beginCommand.withLink l).withTxSent n).withTxState t).finishStep r =
      { s.responded 0x01#32 r.word with link := l, txSent := BitVec.ofNat 8 n, txState := t } := by
  unfold State.withTxState State.withTxSent
  rfl

section
variable {s : State} (hd : ¬ s.writeDeadlinePassed) (hc : s.stepConnected = true)
include hd hc

theorem exec_txStep_start (h : s.txState = .sendingStartDelimiter) :
    exec .txStep s = .next (
      let w := s.roomLink.write [0x00#8]
      if 1 ≤ s.stepRoom then
        if w.1 = 1 then { s.responded 0x01#32 0 with link := w.2, txState := .sendingData }
        else { s.responded 0x01#32 0 with link := w.2 }
      else { s.responded 0x01#32 0 with link := s.roomLink }) := by
  rw [exec_txStep_work (e := .startTimeout) (by rw [h]; rfl) hd hc, txWork_of_start _ (by simpa using h)]
  rfl

theorem exec_txStep_data (h : s.txState = .sendingData) :
    exec .txStep s = .next (
      let w := s.roomLink.write s.stepChunk
      let sent := BitVec.ofNat 8 (s.txSent.toNat + w.1)
      if 0 < s.stepChunk.length then
        { s.responded 0x01#32 0 with
          link := w.2, txSent := sent, txState := if sent = s.txSize then .sendingEndDelimiter else .sendingData }
      else
        { s.responded 0x01#32 0 with
          link := s.roomLink, txState := if s.txSent = s.txSize then .sendingEndDelimiter else .sendingData }) := by
  rw [exec_txStep_work (e := .dataTimeout) (by rw [h]; rfl) hd hc, txWork_of_data _ (by simpa using h), txData_eq,
    txWriteChunk_eq]
  split
  · simp only [State.withTxSent_finishStep, State.withTxSent_txSent, State.withTxSent_txSize, State.withTxSent_txState,
      State.withLink_txSize, State.withLink_txState, State.beginCommand_txSize, State.beginCommand_txState, h]
    rfl
  · simp only [State.withTxState_finishStep, State.withLink_txSent, State.withLink_txSize, State.withLink_txState,
      State.beginCommand_txSent, State.beginCommand_txSize, State.beginCommand_txState, h]
    rfl

theorem exec_txStep_end (h : s.txState = .sendingEndDelimiter) :
    exec .txStep s = .next (
      let w := s.roomLink.write [0x00#8]
      if 1 ≤ s.stepRoom then
        if w.1 = 1 then
          { s.responded 0x01#32 0x80000000#32 with link := w.2, txState := .notSending, events := [0x03#32] }
        else { s.responded 0x01#32 0 with link := w.2 }
      else { s.responded 0x01#32 0 with link := s.roomLink }) := by
  rw [exec_txStep_work (e := .endTimeout) (by rw [h]; rfl) hd hc, txWork_of_end _ (by simpa using h)]
  simp only [txEndDelimiter, State.callWrite_eq, State.withLink_withLink, State.emit_finishStep]
  rfl

end

/-- Settles O39: without headroom, with the delimiter accepted, and with it refused. -/
theorem txStepWritesTheStartDelimiter : Obligations.TxStepWritesTheStartDelimiter := by
  refine fun s hstate hd hc => ⟨fun hroom => ?_, fun hroom => ?_⟩ <;> rw [exec_txStep_start hd hc hstate]
  · rw [if_neg (by omega)]
  · rw [if_pos hroom]
    by_cases hw : (s.roomLink.write [0x00#8]).1 = 1
    · rw [if_pos hw, if_pos hw]
    · rw [if_neg hw, if_neg hw, ← hstate]
      rfl

/-- Settles O41: without headroom, with the delimiter refused, and with it accepted. -/
theorem txStepWritesTheEndDelimiter : Obligations.TxStepWritesTheEndDelimiter := by
  refine fun s hstate hd hc => ⟨fun hroom => ?_, fun hroom hw => ?_, fun hroom hw => ?_⟩ <;>
    rw [exec_txStep_end hd hc hstate]
  · rw [if_neg (by omega)]
  · rw [if_pos hroom, if_neg hw]
  · rw [if_pos hroom, if_pos hw]

/-- The chunk of a data step is as long as R209 says. -/
theorem State.stepChunk_length (s : State) :
    s.stepChunk.length = min s.cfg.maxOut (min s.stepRoom (s.txSize.toNat - s.txSent.toNat)) :=
  Memory.readBytes_length _ _ _ _

/-- No data step writes past the end of the message. -/
theorem State.sent_add_accepted_le {s : State} (hs : s.TxInv) (l : Link) :
    s.txSent.toNat + (l.write s.stepChunk).1 ≤ s.txSize.toNat := by
  have hle := hs.1
  have haccept := l.write_accepted_le s.stepChunk
  rw [s.stepChunk_length] at haccept
  omega

/-- Settles O40: the chunk is empty exactly without headroom or with nothing left, and TX_SENT never overflows its
register. -/
theorem txStepWritesADataChunk : Obligations.TxStepWritesADataChunk := by
  intro s hcfg hs hstate hd hc
  have hle := hs.1
  have hmax := Config.maxOut_pos hcfg
  refine ⟨fun hnone => ?_, fun hroom hleft => ?_⟩
  · have hempty : ¬ 0 < s.stepChunk.length := by
      rw [s.stepChunk_length]
      rcases hnone with hroom | hall
      · omega
      · rw [hall]
        omega
    rw [exec_txStep_data hd hc hstate, if_neg hempty]
  · have hlt : s.txSent.toNat < s.txSize.toNat := lt_of_le_of_ne hle fun h => hleft (BitVec.eq_of_toNat_eq h)
    have hpos : 0 < s.stepChunk.length := by
      rw [s.stepChunk_length]
      omega
    have hsent := State.sent_add_accepted_le hs s.roomLink
    refine ⟨s.stepChunk_length, hpos, hsent, ?_⟩
    rw [exec_txStep_data hd hc hstate, if_pos hpos]
    simp only [ofNat_eq_register_iff hsent]

end Sys2Proof.Machine
end

/-! # A send on the wire (44_transmitter.md R213, R214)

While a send runs, a command other than TX_STEP and TX_STOP keeps it where it is (`State.KeepsTransfer`), and each write of a
TX_STEP puts on the wire exactly the bytes by which `State.sentSoFar` grows. -/

section
namespace Sys2Proof.Machine

/-! ### The Receiver sends nothing and reports no sent message -/

/-- MSG_SENT is the only event with its word: the KIND field tells the events apart (R313, R314). -/
theorem Event.word_ne_msgSent {e : Event} (h : e ≠ .msgSent) : e.word ≠ 0x03#32 := by
  have hkind (kind arg header psize : Nat) (hk : kind < 16) : (eventWord kind arg header psize).toNat % 16 = kind := by
    simp only [eventWord, BitVec.toNat_ofNat]
    omega
  intro heq
  have hword : e.word.toNat % 16 = 3 := by rw [heq]; rfl
  cases e with
  | msgSent => exact h rfl
  | connChanged | msgReceived | rxError | txError =>
    rw [Event.word, hkind _ _ _ _ (by decide)] at hword
    exact absurd hword (by decide)

/-- Emitting another event reports no sent message. -/
theorem State.emit_not_msgSent {s : State} {e : Event} (he : e ≠ .msgSent) (h : 0x03#32 ∉ s.events) :
    0x03#32 ∉ (s.emit e).events := by
  simpa [h] using (Event.word_ne_msgSent he).symm

theorem State.reportLinkDown_not_msgSent {s : State} (h : 0x03#32 ∉ s.events) : 0x03#32 ∉ s.reportLinkDown.events := by
  rw [State.reportLinkDown_events]
  split <;> simp [h]

theorem ByteEffect.not_msgSent {x : Byte} {s t : State} (hb : ByteEffect x s t) (h : 0x03#32 ∉ s.events) :
    0x03#32 ∉ t.events := by
  cases hb with
  | unchanged | started | stored => exact h
  | dropped e => exact State.emit_not_msgSent (s := s) (e := .rxError e) (by simp) h

theorem rxReadLoop_not_msgSent (now : Word) (k : Nat) {s : State} (h : 0x03#32 ∉ s.events) :
    0x03#32 ∉ (rxReadLoop now k s).state.events :=
  rxReadLoop_induct (P := fun t => 0x03#32 ∉ t.events) now (fun _ ht => ht)
    (fun t ht => (processByte_effect _ _).not_msgSent (s := (t.withLink t.link.read.2).withRxLastTime now) ht) k s h

theorem rxDeliver_not_msgSent {s : State} (h : 0x03#32 ∉ s.events) : 0x03#32 ∉ (rxDeliver s).events := by
  refine State.emit_not_msgSent (e := deliveryEvent (messageDecodeValidate s.cfg .rxb s.rxSize.toNat s.mem)) ?_ h
  unfold deliveryEvent
  split <;> simp

theorem rxIdleCheck_not_msgSent (now : Word) (reads : Nat) {s : State} (h : 0x03#32 ∉ s.events) :
    0x03#32 ∉ (rxIdleCheck now reads s).events := by
  unfold rxIdleCheck
  split
  · exact State.emit_not_msgSent (s := s) (e := .rxError .startTimeout) (by simp) h
  · exact h

theorem rxLinkUp_not_msgSent {s : State} (h : 0x03#32 ∉ s.events) : 0x03#32 ∉ (rxLinkUp s).events := by
  unfold rxLinkUp
  split
  · exact State.emit_not_msgSent (s := s) (e := .connChanged true) (by simp) h
  · exact h

theorem rxConnected_not_msgSent (now : Word) {s : State} (h : 0x03#32 ∉ s.events) :
    0x03#32 ∉ (rxConnected now s).events := by
  have hloop := rxReadLoop_not_msgSent now s.cfg.maxIn h
  simp only [rxConnected, rxFinish_events]
  split
  · exact rxDeliver_not_msgSent hloop
  · exact rxIdleCheck_not_msgSent _ _ hloop

theorem rxStepAt_not_msgSent (now : Word) {s : State} (h : 0x03#32 ∉ s.events) : 0x03#32 ∉ (rxStepAt now s).events := by
  rcases rxStepAt_cases now s with ⟨_, ht⟩ | ⟨_, _, ht⟩ | ⟨_, _, ht⟩ <;> rw [ht]
  · exact h
  · simpa [rxLinkDown] using State.reportLinkDown_not_msgSent (s := s.withLink s.link.connected.2) h
  · exact rxConnected_not_msgSent now (rxLinkUp_not_msgSent h)

@[simp] theorem rxReadLoop_outbound (now : Word) (k : Nat) (s : State) :
    (rxReadLoop now k s).state.link.outbound = s.link.outbound :=
  rxReadLoop_induct (P := fun t => t.link.outbound = s.link.outbound) now (by simp) (by simp) k s rfl

@[simp] theorem rxConnected_outbound (now : Word) (s : State) : (rxConnected now s).link.outbound = s.link.outbound := by
  simp only [rxConnected, rxFinish_link]
  split <;> simp

@[simp] theorem rxStepAt_outbound (now : Word) (s : State) : (rxStepAt now s).link.outbound = s.link.outbound := by
  rcases rxStepAt_cases now s with ⟨_, ht⟩ | ⟨_, _, ht⟩ | ⟨_, _, ht⟩ <;> rw [ht]
  · rfl
  · simp [rxLinkDown]
  · simp

/-! ### The edge before the write of a TX_STEP -/

@[simp] theorem State.sampledLink_outbound (s : State) : s.sampledLink.outbound = s.link.outbound := by
  simp [State.sampledLink]

@[simp] theorem State.connectedLink_outbound (s : State) : s.connectedLink.outbound = s.link.outbound := by
  simp [State.connectedLink]

@[simp] theorem State.roomLink_outbound (s : State) : s.roomLink.outbound = s.link.outbound := by
  simp [State.roomLink]

/-! ### Commands that leave a send where it is -/

/-- `t` has the transfer of `s`: its registers, its buffer and its bytes on the wire; and it reports no sent message. -/
structure State.KeepsTransfer (s t : State) : Prop where
  txState : t.txState = s.txState
  txSize : t.txSize = s.txSize
  txSent : t.txSent = s.txSent
  txb : t.mem.cells .txb = s.mem.cells .txb
  outbound : t.link.outbound = s.link.outbound
  notSent : 0x03#32 ∉ t.events

/-- A response over an edge that has carried nothing keeps the transfer. -/
theorem State.keepsTransfer_responded (s : State) (w v : Word) {l : Link} (hl : l.outbound = s.link.outbound := by simp) :
    s.KeepsTransfer { s.responded w v with link := l } :=
  ⟨rfl, rfl, rfl, rfl, hl, List.not_mem_nil⟩

/-- While a send runs, an answer that is silent keeps the transfer: TXB is owned (R44). -/
theorem State.Answers.keepsTransfer {s t : State} (ha : s.Answers t) (hsilent : s.Silent t)
    (hsend : s.txState ≠ .notSending) : s.KeepsTransfer t := by
  have howned : s.owned .txb = true := by simpa [State.owned] using hsend
  obtain ⟨hlink, hevents⟩ := hsilent
  obtain ⟨m, l, events, status, result, hleave, -, rfl⟩ := ha
  exact ⟨rfl, rfl, rfl, hleave.txb howned, (congrArg Link.outbound hlink :), by rw [hevents]; exact List.not_mem_nil⟩

theorem execRxStart_keepsTransfer (s : State) : Ensures s.KeepsTransfer (execRxStart s) := by
  have hnot := State.emit_not_msgSent (s := s.beginCommand) (e := .rxError .setupError) (by simp) List.not_mem_nil
  refine .ite (.next ?_) (.ite (.next ?_) (.next ?_))
  · constructor <;> simp
  · exact { txState := by simp, txSize := by simp, txSent := by simp, txb := by simp, outbound := by simp,
            notSent := by simpa using hnot }
  · constructor <;> simp [Link.record]

theorem execRxStop_keepsTransfer (s : State) : Ensures s.KeepsTransfer (execRxStop s) := by
  have hnot := State.reportLinkDown_not_msgSent (s := s.beginCommand) List.not_mem_nil
  refine .ite (.next ?_) (.next ?_)
  · constructor <;> simp
  · exact { txState := by simp, txSize := by simp, txSent := by simp, txb := by simp, outbound := by simp [Link.record],
            notSent := by simpa using hnot }

theorem execRxStep_keepsTransfer (s : State) : Ensures s.KeepsTransfer (execRxStep s) :=
  .next { txState := by simp, txSize := by simp, txSent := by simp, txb := rxStepAt_cells _ _ (by decide),
          outbound := by simp, notSent := rxStepAt_not_msgSent _ List.not_mem_nil }

/-- While a send runs, every command but TX_STEP and TX_STOP keeps the transfer. -/
theorem exec_keepsTransfer {i : Instr} {s t : State} (hstep : i ≠ .txStep) (hstop : i ≠ .txStop)
    (hsend : s.txState ≠ .notSending) (h : exec i s = .next t) : s.KeepsTransfer t := by
  cases i with
  | txStep => exact absurd rfl hstep
  | txStop => exact absurd rfl hstop
  | txCansend =>
    rw [(txCansendReportsCanSend s).1 hsend] at h
    cases h
    exact s.keepsTransfer_responded _ _
  | txSend n =>
    obtain ⟨hrange, hreject, -⟩ := txSendAcceptsOrRejects n s
    by_cases hcap : s.cfg.bufCap < n
    · rw [hrange hcap] at h
      cases h
      exact s.keepsTransfer_responded _ _
    · rw [hreject (Nat.not_lt.1 hcap) (.inr hsend)] at h
      cases h
      exact s.keepsTransfer_responded _ _
  | rxStart => exact execRxStart_keepsTransfer s t h
  | rxStop => exact execRxStop_keepsTransfer s t h
  | rxStep => exact execRxStep_keepsTransfer s t h
  | bufRd | bufWr | regRd | frameEncode | frameDecode | checkSetup | checkCompute | layoutMsgsize | layoutPaysize
  | msgEncode | msgDecode | rxWake =>
    have hsilent := exec_silent ⟨by simp, by simp⟩ s t h
    cases exec_effect h with
    | answer ha => exact ha.keepsTransfer hsilent hsend

/-! ### The bytes so far -/

/-- A read looks at one store only. -/
theorem Memory.readBytes_of_cells {m m' : Memory} {b : Region} (h : m.cells b = m'.cells b) (off n : Nat) :
    m.readBytes b off n = m'.readBytes b off n :=
  Memory.readBytes_congr fun k _ => by rw [Memory.readByte, Memory.readByte, h]

theorem Memory.take_readBytes (m : Memory) (b : Region) (off : Nat) {k n : Nat} (h : k ≤ n) :
    (m.readBytes b off n).take k = m.readBytes b off k := by
  obtain ⟨j, rfl⟩ := Nat.exists_eq_add_of_le h
  rw [Memory.readBytes_append, List.take_left' (Memory.readBytes_length _ _ _ _)]

theorem State.KeepsTransfer.sentSoFar_eq {s t : State} (h : s.KeepsTransfer t) : t.sentSoFar = s.sentSoFar := by
  simp only [State.sentSoFar, h.txState, h.txSize, h.txSent, Memory.readBytes_of_cells h.txb]

/-- Among and right after the data bytes the wire holds the delimiter and the bytes counted by TX_SENT (R209, R43). -/
theorem State.sentSoFar_of_data {t : State}
    (h : t.txState = if t.txSent = t.txSize then .sendingEndDelimiter else .sendingData) :
    t.sentSoFar = delimiter :: t.mem.readBytes .txb 0 t.txSent.toNat := by
  by_cases hall : t.txSent = t.txSize
  · rw [if_pos hall] at h
    simp only [State.sentSoFar, h, hall]
  · rw [if_neg hall] at h
    simp only [State.sentSoFar, h]

/-- What is on the wire of a transfer is how the whole transfer begins (R214). -/
theorem State.sentSoFar_prefix {s : State} (hs : s.TxInv) :
    s.sentSoFar <+: wireFormat (s.mem.readBytes .txb 0 s.txSize.toNat) := by
  obtain ⟨rest, hrest⟩ := Nat.exists_eq_add_of_le hs.1
  have hdata : delimiter :: s.mem.readBytes .txb 0 s.txSize.toNat <+: wireFormat (s.mem.readBytes .txb 0 s.txSize.toNat) :=
    List.prefix_append _ _
  cases hstate : s.txState with
  | notSending | sendingStartDelimiter =>
    simp only [State.sentSoFar, hstate]
    exact List.nil_prefix
  | sendingData =>
    simp only [State.sentSoFar, hstate]
    refine List.IsPrefix.trans ?_ hdata
    rw [hrest, Memory.readBytes_append]
    exact List.prefix_append _ _
  | sendingEndDelimiter => simpa only [State.sentSoFar, hstate] using hdata

/-! ### The wire after a step (R213) -/

/-- A send that goes on in `t` with its bytes so far on the wire after `before`, and is not reported as sent. -/
structure State.GoesOn (before : List Byte) (t : State) : Prop where
  sending : t.txState ≠ .notSending
  notSent : 0x03#32 ∉ t.events
  wire : t.link.outbound = before ++ t.sentSoFar

/-- A send that has ended in `t` with the whole of `frame` on the wire after `before`, and is reported as sent. -/
structure State.EndsSent (before frame : List Byte) (t : State) : Prop where
  idle : t.txState = .notSending
  sent : t.events = [0x03#32]
  wire : t.link.outbound = before ++ frame

/-- A send that has ended in `t` with one TX_ERROR and only the bytes `soFar` on the wire after `before`. -/
structure State.EndsLate (before soFar : List Byte) (t : State) : Prop where
  idle : t.txState = .notSending
  error : ∃ e : TxErr, t.events = [(Event.txError e).word]
  wire : t.link.outbound = before ++ soFar

/-- The data bytes so far and the accepted part of the next chunk are the data bytes so far after the write (R209). -/
theorem State.readBytes_append_accepted (s : State) (l : Link) :
    s.mem.readBytes .txb 0 s.txSent.toNat ++ s.stepChunk.take (l.write s.stepChunk).1 =
      s.mem.readBytes .txb 0 (s.txSent.toNat + (l.write s.stepChunk).1) := by
  have htake : s.stepChunk.take (l.write s.stepChunk).1 = s.mem.readBytes .txb s.txSent.toNat (l.write s.stepChunk).1 :=
    Memory.take_readBytes _ _ _ (s.stepChunk_length ▸ l.write_accepted_le s.stepChunk)
  rw [htake, Memory.readBytes_append, Nat.zero_add]

/-- A refused delimiter puts nothing on the wire. -/
theorem Link.write_refused_outbound {l : Link} {x : Byte} (h : (l.write [x]).1 ≠ 1) :
    (l.write [x]).2.outbound = l.outbound := by
  rw [Link.write_outbound, (l.write_singleton x).resolve_right h, List.take_zero, List.append_nil]

/-- An accepted delimiter is appended to the wire. -/
theorem Link.write_accepted_outbound {l : Link} {x : Byte} (h : (l.write [x]).1 = 1) :
    (l.write [x]).2.outbound = l.outbound ++ [x] := by
  rw [Link.write_outbound, h, List.take_one]
  rfl

section
variable {s t : State} {before : List Byte} (hwire : s.link.outbound = before ++ s.sentSoFar)
include hwire

theorem State.KeepsTransfer.goesOn (hsend : s.txState ≠ .notSending) (h : s.KeepsTransfer t) : t.GoesOn before where
  sending := h.txState ▸ hsend
  notSent := h.notSent
  wire := by rw [h.outbound, h.sentSoFar_eq, hwire]

variable (hd : ¬ s.writeDeadlinePassed) (hc : s.stepConnected = true)
include hd hc

/-- An accepted end delimiter completes the frame, and only it does (R210). -/
theorem txStep_end_goesOn_or_ends (hstate : s.txState = .sendingEndDelimiter) (h : exec .txStep s = .next t) :
    t.GoesOn before ∨ t.EndsSent before (wireFormat (s.mem.readBytes .txb 0 s.txSize.toNat)) := by
  have hsend : s.txState ≠ .notSending := by simp [hstate]
  obtain ⟨hnoroom, hrefuse, haccept⟩ := txStepWritesTheEndDelimiter s hstate hd hc
  rcases Nat.eq_zero_or_pos s.stepRoom with hroom | hroom
  · rw [hnoroom hroom] at h
    cases h
    exact .inl ((s.keepsTransfer_responded _ _).goesOn hwire hsend)
  · by_cases hw : (s.roomLink.write [0x00#8]).1 = 1
    · rw [haccept hroom hw] at h
      cases h
      have hsofar : s.sentSoFar = delimiter :: s.mem.readBytes .txb 0 s.txSize.toNat := by
        simp only [State.sentSoFar, hstate]
      refine .inr ⟨rfl, rfl, ?_⟩
      rw [Link.write_accepted_outbound hw, State.roomLink_outbound, hwire, hsofar, List.append_assoc]
      rfl
    · rw [hrefuse hroom hw] at h
      cases h
      exact .inl ((s.keepsTransfer_responded _ _
        (by rw [Link.write_refused_outbound hw, State.roomLink_outbound])).goesOn hwire hsend)

variable (hs : s.TxInv)
include hs

/-- An accepted start delimiter is the first byte so far (R208). -/
theorem txStep_start_goesOn (hstate : s.txState = .sendingStartDelimiter) (h : exec .txStep s = .next t) :
    t.GoesOn before := by
  have hsend : s.txState ≠ .notSending := by simp [hstate]
  obtain ⟨-, -, hstart, -⟩ := hs
  obtain ⟨hnoroom, hwrite⟩ := txStepWritesTheStartDelimiter s hstate hd hc
  rcases Nat.eq_zero_or_pos s.stepRoom with hroom | hroom
  · rw [hnoroom hroom] at h
    cases h
    exact (s.keepsTransfer_responded _ _).goesOn hwire hsend
  · rw [hwrite hroom] at h
    cases h
    by_cases hw : (s.roomLink.write [0x00#8]).1 = 1
    · have hempty : s.sentSoFar = [] := by simp only [State.sentSoFar, hstate]
      have hzero := hstart hstate
      refine ⟨by simp [hw], List.not_mem_nil, ?_⟩
      rw [hempty, List.append_nil] at hwire
      simp [State.sentSoFar, hw, State.responded, hzero, hwire, delimiter]
    · rw [if_neg hw, ← hstate]
      exact (s.keepsTransfer_responded _ _
        (by rw [Link.write_refused_outbound hw, State.roomLink_outbound])).goesOn hwire hsend

/-- The accepted part of the chunk follows the data bytes so far (R209). -/
theorem txStep_data_goesOn (hstate : s.txState = .sendingData) (h : exec .txStep s = .next t) : t.GoesOn before := by
  have hsofar : s.sentSoFar = delimiter :: s.mem.readBytes .txb 0 s.txSent.toNat := by simp only [State.sentSoFar, hstate]
  rw [exec_txStep_data hd hc hstate] at h
  cases h
  have hsent := State.sent_add_accepted_le hs s.roomLink
  split
  · refine ⟨?_, List.not_mem_nil, ?_⟩
    · dsimp only
      split <;> nofun
    · rw [State.sentSoFar_of_data rfl]
      dsimp only
      rw [toNat_ofNat_register hsent]
      calc (s.roomLink.write s.stepChunk).2.outbound
        _ = before ++ delimiter ::
              (s.mem.readBytes .txb 0 s.txSent.toNat ++ s.stepChunk.take (s.roomLink.write s.stepChunk).1) := by
            rw [Link.write_outbound, State.roomLink_outbound, hwire, hsofar, List.append_assoc, List.cons_append]
        _ = before ++ delimiter ::
              s.mem.readBytes .txb 0 (s.txSent.toNat + (s.roomLink.write s.stepChunk).1) := by
            rw [State.readBytes_append_accepted]
  · refine ⟨?_, List.not_mem_nil, ?_⟩
    · dsimp only
      split <;> nofun
    · rw [State.sentSoFar_of_data rfl, State.roomLink_outbound, hwire, hsofar]
      rfl

end

/-- A TX_STEP of a running send ends it only when the end delimiter is accepted, or with one TX_ERROR past the deadline and
nothing written (R206, R213). -/
theorem txStep_outcome {s t : State} {before : List Byte} (hwire : s.link.outbound = before ++ s.sentSoFar) (hs : s.TxInv)
    (hsend : s.txState ≠ .notSending) (h : exec .txStep s = .next t) :
    t.GoesOn before ∨ t.EndsSent before (wireFormat (s.mem.readBytes .txb 0 s.txSize.toNat))
    ∨ t.EndsLate before s.sentSoFar := by
  obtain ⟨e, he⟩ := TxState.exists_timeoutError hsend
  by_cases hd : s.writeDeadlinePassed
  · rw [exec_txStep he, if_pos hd] at h
    cases h
    exact .inr (.inr ⟨rfl, ⟨e, rfl⟩, s.sampledLink_outbound.trans hwire⟩)
  · cases hc : s.stepConnected with
    | false =>
      rw [exec_txStep he, if_neg hd, if_pos hc] at h
      cases h
      exact .inl ((s.keepsTransfer_responded _ _).goesOn hwire hsend)
    | true =>
      cases hstate : s.txState with
      | notSending => exact absurd hstate hsend
      | sendingStartDelimiter => exact .inl (txStep_start_goesOn hwire hd hc hs hstate h)
      | sendingData => exact .inl (txStep_data_goesOn hwire hd hc hs hstate h)
      | sendingEndDelimiter => exact (txStep_end_goesOn_or_ends hwire hd hc hstate h).imp_right .inl

/-- Settles O43: TX_STEP by `txStep_outcome`, TX_STOP, which writes nothing, and every other command, which keeps the
transfer. -/
theorem aTransferPutsExactlyItsFrameOnTheWire : Obligations.ATransferPutsExactlyItsFrameOnTheWire := by
  intro s t i before _ hs hsend hwire h
  have htxb : t.mem.txb = s.mem.txb := (ownedBuffersAreNotWritten i s t h).1 hsend
  by_cases hstep : i = .txStep
  · subst hstep
    have hsize : t.txSize = s.txSize := by
      cases h
      simp
    refine ⟨htxb, hsize, State.sentSoFar_prefix hs, ?_⟩
    rcases txStep_outcome hwire hs hsend h with hgo | hsent | hlate
    · exact .inl ⟨hgo.sending, hgo.notSent, hgo.wire⟩
    · exact .inr (.inl ⟨rfl, hsent.idle, hsent.sent, hsent.wire⟩)
    · exact .inr (.inr (.inl ⟨rfl, hlate.idle, hlate.error, hlate.wire⟩))
  · by_cases hstop : i = .txStop
    · subst hstop
      rw [txStopCancelsTheSend s] at h
      cases h
      exact ⟨htxb, rfl, State.sentSoFar_prefix hs, .inr (.inr (.inr ⟨rfl, rfl, rfl, hwire⟩))⟩
    · have hkeep := exec_keepsTransfer hstep hstop hsend h
      have hgo := hkeep.goesOn hwire hsend
      exact ⟨htxb, hkeep.txSize, State.sentSoFar_prefix hs, .inl ⟨hgo.sending, hgo.notSent, hgo.wire⟩⟩

end Sys2Proof.Machine
end

/-! # The Receiver (45_receiver.md)

`exec_rxStart`, `exec_rxStop` and `exec_rxStep_cases` read each RX command as its branches, and the equations of ProcessByte read
it by the accumulation state and the byte. What a connected RX_STEP does from its read loop on stands in the two parts after
this one. -/

section
namespace Sys2Proof.Machine

/-! ### Updates as one record

An equation between a step's last state and a literal record is checked field by field once each update is a record itself. -/

theorem State.succeed_eq (s : State) (v : Word) : s.succeed v = { s with status := 0x01#32, result := v } := rfl

theorem State.finishStep_eq (s : State) (r : Rearm) :
    s.finishStep r = { s with status := 0x01#32, result := r.word } := rfl

theorem State.emit_eq (s : State) (e : Event) : s.emit e = { s with events := s.events ++ [e.word] } := rfl

theorem State.callBegin_eq (s : State) :
    s.callBegin = { s with link := s.link.record (.beginLink s.cfg.baudrate) } := rfl

theorem State.callEnd_eq (s : State) : s.callEnd = { s with link := s.link.record .endLink } := rfl

theorem State.withAccumulator_eq (s : State) (a : RxAcc) (n : Nat) :
    s.withAccumulator a n = { s with rxAcc := a, rxSize := BitVec.ofNat 8 n } := rfl

theorem State.resetReceiver_eq (s : State) (l : RxLife) :
    s.resetReceiver l = { s with rxLife := l, rxAcc := .waitingForStart, rxSize := 0, rxActive := false } := rfl

/-- Reporting the link down appends to the events what R243 and R246 say, and changes nothing else. -/
theorem State.reportLinkDown_eq (s : State) :
    s.reportLinkDown =
      { s with events := s.events ++ if s.rxLife = .polling ∨ s.rxLife = .accumulating then [0x01#32] else [] } := by
  unfold State.reportLinkDown
  split
  · rfl
  · rw [List.append_nil]

/-! ### RX_START, RX_STOP and RX_WAKE (R242, R243, R258) -/

theorem exec_rxStart (s : State) :
    exec .rxStart s =
      if s.rxLife ≠ .disabled then .next (s.responded 0x01#32 0)
      else if s.cfg.key = [] then .next { s.responded 0x50#32 0 with events := [0x54#32] }
      else .next { s.responded 0x01#32 0 with
        link := { s.link with calls := [.beginLink s.cfg.baudrate] },
        rxLife := .waitingForTransport, rxAcc := .waitingForStart, rxSize := 0, rxActive := false } := by
  simp only [exec, execRxStart, State.beginCommand_cfg, Config.keyValid_eq_false_iff, State.callBegin_eq,
    State.resetReceiver_eq, State.succeed_eq, State.emit_eq]
  rfl

/-- Settles O44: the three branches of RX_START. -/
theorem rxStartEnablesTheReceiver : Obligations.RxStartEnablesTheReceiver := by
  refine fun s => ⟨fun hon => ?_, fun hoff hkey => ?_, fun hoff hkey => ?_⟩ <;> rw [exec_rxStart]
  · exact if_pos hon
  · rw [if_neg (not_not_intro hoff), if_pos hkey]
  · rw [if_neg (not_not_intro hoff), if_neg hkey]

theorem exec_rxStop (s : State) :
    exec .rxStop s =
      if s.rxLife = .disabled then .next (s.responded 0x01#32 0)
      else .next { s.responded 0x01#32 0 with
        link := { s.link with calls := [.endLink] },
        events := if s.rxLife = .polling ∨ s.rxLife = .accumulating then [0x01#32] else [],
        rxLife := .disabled, rxAcc := .waitingForStart, rxSize := 0, rxActive := false } := by
  simp only [exec, execRxStop, State.reportLinkDown_eq, State.callEnd_eq, State.resetReceiver_eq, State.succeed_eq]
  rfl

/-- Settles O45: the two branches of RX_STOP. -/
theorem rxStopDisablesTheReceiver : Obligations.RxStopDisablesTheReceiver := by
  refine fun s => ⟨fun hoff => ?_, fun hon => ?_⟩ <;> rw [exec_rxStop]
  · exact if_pos hoff
  · exact if_neg hon

/-- Settles O46: RX_WAKE is its answer, one re-arm word of the two. -/
theorem rxWakeOnlyAnswers : Obligations.RxWakeOnlyAnswers := by
  intro s
  by_cases hoff : s.rxLife = .disabled
  · simp only [exec, execRxWake, State.beginCommand_rxLife, hoff, if_true]
    rfl
  · simp only [exec, execRxWake, State.beginCommand_rxLife, hoff, if_false]
    rfl

/-! ### RX_STEP up to its read loop (R245 to R247) -/

/-- RX_STEP samples NOW, then steps. -/
theorem exec_rxStep_eq (s : State) :
    exec .rxStep s = .next (rxStepAt s.sampledNow (s.beginCommand.withLink s.sampledLink)) := rfl

theorem exec_rxStep_disabled {s : State} (h : s.rxLife = .disabled) :
    exec .rxStep s = .next { s.responded 0x01#32 0x80000000#32 with link := s.sampledLink } := by
  rw [exec_rxStep_eq, rxStepAt, if_pos (by simpa using h)]
  rfl

theorem exec_rxStep_linkDown {s : State} (h : s.rxLife ≠ .disabled) (hdown : s.stepConnected = false) :
    exec .rxStep s = .next { s.responded 0x01#32 (BitVec.ofNat 32 (0x40000000 + s.cfg.disconnectedPollMs)) with
      link := s.connectedLink,
      events := if s.rxLife = .polling ∨ s.rxLife = .accumulating then [0x01#32] else [],
      rxLife := .waitingForTransport, rxAcc := .waitingForStart, rxSize := 0, rxActive := false } := by
  rw [exec_rxStep_eq, rxStepAt, if_neg (by simpa using h)]
  simp only [rxLinkDown, State.reportLinkDown_eq, State.resetReceiver_eq, State.finishStep_eq]
  exact congrArg Host.Outcome.next (if_pos hdown)

/-- Settles O47: a disabled Receiver's step, and a step with the link down. -/
theorem rxStepWithoutALink : Obligations.RxStepWithoutALink :=
  fun _ => ⟨exec_rxStep_disabled, exec_rxStep_linkDown⟩

/-- Reporting the link up is what `State.linkReported` says, over the edge after `T.connected()`. -/
theorem rxLinkUp_beginCommand (s : State) (l : Link) :
    rxLinkUp (s.beginCommand.withLink l) = s.linkReported.withEdge l s.rxLastTime := by
  unfold rxLinkUp State.linkReported
  by_cases h : s.rxLife = .waitingForTransport
  · rw [if_pos (by simpa using h), if_pos h, if_pos h]
    rfl
  · rw [if_neg (by simpa using h), if_neg h, if_neg h]
    rfl

theorem exec_rxStep_connected {s : State} (h : s.rxLife ≠ .disabled) (hc : s.stepConnected = true) :
    exec .rxStep s = .next (rxConnected s.sampledNow (s.linkReported.withEdge s.connectedLink s.rxLastTime)) := by
  rw [exec_rxStep_eq, rxStepAt, if_neg (by simpa using h), ← rxLinkUp_beginCommand]
  exact congrArg Host.Outcome.next (if_neg (by simp [hc] : ¬ s.stepConnected = false))

/-- Every way an RX_STEP can go: disabled, without a link, or with one. -/
theorem exec_rxStep_cases {s t : State} (h : exec .rxStep s = .next t) :
    t = { s.responded 0x01#32 0x80000000#32 with link := s.sampledLink }
    ∨ t = { s.responded 0x01#32 (BitVec.ofNat 32 (0x40000000 + s.cfg.disconnectedPollMs)) with
        link := s.connectedLink,
        events := if s.rxLife = .polling ∨ s.rxLife = .accumulating then [0x01#32] else [],
        rxLife := .waitingForTransport, rxAcc := .waitingForStart, rxSize := 0, rxActive := false }
    ∨ t = rxConnected s.sampledNow (s.linkReported.withEdge s.connectedLink s.rxLastTime) := by
  by_cases hoff : s.rxLife = .disabled
  · rw [exec_rxStep_disabled hoff] at h
    cases h
    exact .inl rfl
  · cases hc : s.stepConnected with
    | false =>
      rw [exec_rxStep_linkDown hoff hc] at h
      cases h
      exact .inr (.inl rfl)
    | true =>
      rw [exec_rxStep_connected hoff hc] at h
      cases h
      exact .inr (.inr rfl)

/-! ### One byte (R249 to R252) -/

theorem processByte_waitingForStart (x : Byte) {s : State} (h : s.rxAcc = .waitingForStart) :
    processByte x s = (false, { s with rxAcc := if x = 0x00#8 then .waitingForData else .waitingForStart }) := by
  by_cases hx : x = 0x00#8
  · simp only [processByte, h, processWaitingForStart, delimiter, hx, if_true]
    rfl
  · simp only [processByte, h, processWaitingForStart, delimiter, hx, if_false]
    rw [← h]

theorem processByte_idle {s : State} (h : s.rxAcc = .waitingForData) : processByte delimiter s = (false, s) := by
  simp only [processByte, h, processWaitingForData, if_true]

/-- The first data byte is stored at RXB[0] (R250). -/
theorem processByte_first {x : Byte} {s : State} (h : s.rxAcc = .waitingForData) (hx : x ≠ delimiter) :
    processByte x s = (false, { s with mem := s.mem.writeByte .rxb 0 x, rxAcc := .readingData, rxSize := 1 }) := by
  simp only [processByte, h, processWaitingForData, if_neg hx]
  rfl

theorem processByte_tooShort {s : State} (h : s.rxAcc = .readingData) (hn : s.rxSize.toNat < 3) :
    processByte delimiter s =
      (false, { s with events := s.events ++ [0x14#32], rxAcc := .waitingForData, rxSize := 0 }) := by
  have hmin : ¬ Config.msgMin ≤ s.rxSize.toNat := Nat.not_le.2 hn
  simp only [processByte, h, if_true, if_neg hmin]
  rfl

/-- A data byte below the capacity is stored after the bytes held (R252). -/
theorem processByte_append {x : Byte} {s : State} (h : s.rxAcc = .readingData) (hx : x ≠ delimiter)
    (hn : s.rxSize.toNat < s.cfg.bufCap) :
    processByte x s =
      (false, { s with mem := s.mem.writeByte .rxb s.rxSize.toNat x, rxSize := s.rxSize + 1 }) := by
  have hsize : BitVec.ofNat 8 (s.rxSize.toNat + 1) = s.rxSize + 1 := by
    rw [BitVec.ofNat_add, BitVec.ofNat_toNat, BitVec.setWidth_eq]
    rfl
  simp only [processByte, h, if_neg hx, processAppend, if_pos hn, ← hsize]
  rw [← h]
  rfl

theorem processByte_overflow {x : Byte} {s : State} (h : s.rxAcc = .readingData) (hx : x ≠ delimiter)
    (hn : s.cfg.bufCap ≤ s.rxSize.toNat) :
    processByte x s =
      (false, { s with events := s.events ++ [0x24#32], rxAcc := .waitingForStart, rxSize := 0 }) := by
  simp only [processByte, h, if_neg hx, processAppend, if_neg (Nat.not_lt.2 hn)]
  rfl

/-- Settles O49: one equation of ProcessByte per clause, and what a write to RXB leaves. -/
theorem everyByteIsClassified : Obligations.EveryByteIsClassified := by
  refine fun x s => ⟨processByte_waitingForStart x, ?_, fun h hx => ?_, ?_, ?_, fun h hx hn => ?_, processByte_overflow⟩
  · rintro h rfl
    exact processByte_idle h
  · exact ⟨_, processByte_first h hx, Memory.readByte_writeByte_same .., fun _ _ => Memory.readByte_writeByte_other _ _⟩
  · rintro h rfl
    exact processByte_closes h
  · rintro h rfl
    exact processByte_tooShort h
  · exact ⟨_, processByte_append h hx hn, Memory.readByte_writeByte_same ..,
      fun _ _ => Memory.readByte_writeByte_other _ _⟩

end Sys2Proof.Machine
end

/-! # The transport work of one step (45_receiver.md R248, 70_reset_and_hazards.md R365) -/

section
namespace Sys2Proof.Machine

/-- From `l` to `l'` the call list gains reads of the bytes `reads`, which the inbound stream gains too, and the writes
`writes`, besides calls that move no byte (20_memory.md R66 to R71). -/
structure Link.Moves (l l' : Link) (reads : List Byte) (writes : List (List Byte × Nat)) : Prop where
  readCalls_eq : readCalls l'.calls = readCalls l.calls ++ reads
  writeCalls_eq : writeCalls l'.calls = writeCalls l.calls ++ writes
  inbound_eq : l'.inbound = l.inbound ++ reads

theorem Link.Moves.refl (l : Link) : l.Moves l [] [] := by constructor <;> simp

theorem Link.Moves.trans {l l' l'' : Link} {rs rs' : List Byte} {ws ws' : List (List Byte × Nat)} (h : l.Moves l' rs ws)
    (h' : l'.Moves l'' rs' ws') : l.Moves l'' (rs ++ rs') (ws ++ ws') where
  readCalls_eq := by rw [h'.readCalls_eq, h.readCalls_eq, List.append_assoc]
  writeCalls_eq := by rw [h'.writeCalls_eq, h.writeCalls_eq, List.append_assoc]
  inbound_eq := by rw [h'.inbound_eq, h.inbound_eq, List.append_assoc]

theorem Link.moves_connected (l : Link) : l.Moves l.connected.2 [] [] := by
  constructor <;> simp [readCalls, writeCalls]

theorem Link.moves_availableForWrite (l : Link) : l.Moves l.availableForWrite.2 [] [] := by
  constructor <;> simp [readCalls, writeCalls]

theorem Link.moves_available (l : Link) : l.Moves l.available.2 [] [] := by
  constructor <;> simp [readCalls, writeCalls]

theorem Link.moves_read (l : Link) : l.Moves l.read.2 [l.read.1] [] := by
  constructor <;> simp [readCalls, writeCalls]

theorem Link.moves_write (l : Link) (xs : List Byte) : l.Moves (l.write xs).2 [] [(xs, (l.write xs).1)] := by
  constructor <;> simp [readCalls, writeCalls]

theorem State.moves_sampledLink (s : State) : s.link.forgetCalls.Moves s.sampledLink [] [] := by
  constructor <;> simp [State.sampledLink]

theorem State.moves_connectedLink (s : State) : s.link.forgetCalls.Moves s.connectedLink [] [] :=
  s.moves_sampledLink.trans s.sampledLink.moves_connected

theorem State.moves_roomLink (s : State) : s.link.forgetCalls.Moves s.roomLink [] [] :=
  s.moves_connectedLink.trans s.connectedLink.moves_availableForWrite

/-- The read loop makes at most one read for each it has left, and no write (R248). -/
theorem rxReadLoop_moves (now : Word) (k : Nat) (s : State) :
    ∃ rs, rs.length ≤ k ∧ s.link.Moves (rxReadLoop now k s).state.link rs [] := by
  induction k generalizing s with
  | zero => exact ⟨[], Nat.le_refl 0, .refl _⟩
  | succ k ih =>
    by_cases h0 : s.link.available.1 = 0
    · exact ⟨[], Nat.zero_le _, by simpa [rxReadLoop, h0] using s.link.moves_available⟩
    · have hbyte := s.link.moves_available.trans s.link.available.2.moves_read
      cases hp : (processByte s.link.available.2.read.1
        (((s.withLink s.link.available.2).withLink s.link.available.2.read.2).withRxLastTime now)).1 with
      | true => exact ⟨[_], Nat.succ_le_succ (Nat.zero_le k), by simpa [rxReadLoop, h0, hp] using hbyte⟩
      | false =>
        obtain ⟨rs, hlen, hrest⟩ := ih (processByte s.link.available.2.read.1
          (((s.withLink s.link.available.2).withLink s.link.available.2.read.2).withRxLastTime now)).2
        rw [processByte_link] at hrest
        exact ⟨_ :: rs, Nat.succ_le_succ hlen, by simpa [rxReadLoop, h0, hp] using hbyte.trans hrest⟩

/-- Delivery, idle check and end of a connected step make no call. -/
theorem rxConnected_link (now : Word) (s : State) :
    (rxConnected now s).link = (rxReadLoop now s.cfg.maxIn s).state.link := by
  simp only [rxConnected, rxFinish_link]
  split <;> simp

theorem execRxStep_moves {s t : State} (h : exec .rxStep s = .next t) :
    ∃ rs, rs.length ≤ s.cfg.maxIn ∧ s.link.forgetCalls.Moves t.link rs [] := by
  rcases exec_rxStep_cases h with rfl | rfl | rfl
  · exact ⟨[], Nat.zero_le _, s.moves_sampledLink⟩
  · exact ⟨[], Nat.zero_le _, s.moves_connectedLink⟩
  · obtain ⟨rs, hlen, hloop⟩ :=
      rxReadLoop_moves s.sampledNow s.cfg.maxIn (s.linkReported.withEdge s.connectedLink s.rxLastTime)
    rw [rxConnected_link]
    exact ⟨rs, hlen, s.moves_connectedLink.trans hloop⟩

/-- A data step offers at most MAX_OUT bytes (R209). -/
theorem State.stepChunk_length_le (s : State) : s.stepChunk.length ≤ s.cfg.maxOut := by
  rw [s.stepChunk_length]
  exact Nat.min_le_left _ _

/-- The edge after a TX_STEP: it writes nothing, or once at most MAX_OUT bytes (R209, R365). -/
theorem execTxStep_moves {s t : State} (hc : s.cfg.wf = true) (h : exec .txStep s = .next t) :
    s.link.forgetCalls.Moves t.link [] []
    ∨ ∃ xs, xs.length ≤ s.cfg.maxOut ∧ s.link.forgetCalls.Moves t.link [] [(xs, (s.roomLink.write xs).1)] := by
  have hwrite (xs : List Byte) := s.moves_roomLink.trans (s.roomLink.moves_write xs)
  have hone : [0x00#8].length ≤ s.cfg.maxOut := Config.maxOut_pos hc
  by_cases hidle : s.txState = .notSending
  · rw [exec_txStep_idle hidle] at h
    cases h
    exact .inl s.moves_sampledLink
  obtain ⟨e, he⟩ := TxState.exists_timeoutError hidle
  by_cases hd : s.writeDeadlinePassed
  · rw [exec_txStep he, if_pos hd] at h
    cases h
    exact .inl s.moves_sampledLink
  cases hconn : s.stepConnected with
  | false =>
    rw [exec_txStep he, if_neg hd, if_pos hconn] at h
    cases h
    exact .inl s.moves_connectedLink
  | true =>
    cases hstate : s.txState with
    | notSending => exact absurd hstate hidle
    | sendingStartDelimiter =>
      rw [exec_txStep_start hd hconn hstate] at h
      cases h
      dsimp only
      split
      · split <;> exact .inr ⟨_, hone, hwrite _⟩
      · exact .inl s.moves_roomLink
    | sendingData =>
      rw [exec_txStep_data hd hconn hstate] at h
      cases h
      dsimp only
      split
      · exact .inr ⟨_, s.stepChunk_length_le, hwrite _⟩
      · exact .inl s.moves_roomLink
    | sendingEndDelimiter =>
      rw [exec_txStep_end hd hconn hstate] at h
      cases h
      dsimp only
      split
      · split <;> exact .inr ⟨_, hone, hwrite _⟩
      · exact .inl s.moves_roomLink

/-- Settles O50: a command starts with an empty call list, so the calls its edge has gained are all of them. -/
theorem stepsDoBoundedTransportWork : Obligations.StepsDoBoundedTransportWork := by
  refine fun s t hc => ⟨fun h => ?_, fun h => ?_⟩
  · obtain ⟨rs, hlen, hreads, hwrites, hinbound⟩ := execRxStep_moves h
    obtain rfl : readCalls t.link.calls = rs := hreads
    exact ⟨hlen, hwrites, hinbound⟩
  · rcases execTxStep_moves hc h with ⟨hreads, hwrites, -⟩ | ⟨xs, hlen, hreads, hwrites, -⟩
    · have hnone : writeCalls t.link.calls = [] := hwrites
      exact ⟨hreads, by simp [hnone], by simp [hnone]⟩
    · have hone : writeCalls t.link.calls = [(xs, (s.roomLink.write xs).1)] := hwrites
      exact ⟨hreads, by simp [hone], by simpa [hone] using ⟨hlen, s.roomLink.write_accepted_le xs⟩⟩

end Sys2Proof.Machine
end

/-! # A connected RX_STEP (45_receiver.md R247 to R262)

A connected step is its read loop, which `rxReadLoop_readsBytes` turns into the bytes read and their accumulation, and then an
idle check or a delivery: `rxConnected_quiet` reads nothing, `rxConnected_open` closes no frame, `rxConnected_closes` closes
one. -/

section
namespace Sys2Proof.Machine

/-! ### The end of a connected step (R255 to R257) -/

/-- With no byte read the poll is passive and the request is the relaxed delay. -/
theorem rxFinish_passive (now : Word) (s : State) :
    rxFinish now 0 s = { s with
      status := 0x01#32, result := BitVec.ofNat 32 (0x40000000 + s.cfg.pollPeriodMs), rxActive := false,
      rxLife := if s.rxAcc = .readingData then .accumulating else .polling } := rfl

/-- With bytes read the poll is active and the request is IMMEDIATE. -/
theorem rxFinish_active (now : Word) {reads : Nat} (h : 0 < reads) (s : State) :
    rxFinish now reads s = { s with
      status := 0x01#32, result := 0x00000000#32, rxPollTime := now, rxActive := true,
      rxLife := if s.rxAcc = .readingData then .accumulating else .polling } := by
  simp only [rxFinish, rxMarkActivity, if_pos h]
  rfl

/-- A timeout is checked only in a step that read nothing (R255). -/
theorem rxIdleCheck_of_reads (now : Word) {reads : Nat} (h : reads ≠ 0) (s : State) : rxIdleCheck now reads s = s :=
  if_neg fun hidle => h hidle.1

theorem rxIdleCheck_timeout {now : Word} {s : State} (hacc : s.rxAcc = .readingData)
    (hlate : s.cfg.readTimeoutMs < elapsedMs now s.rxLastTime) :
    rxIdleCheck now 0 s = { s with events := s.events ++ [0x34#32], rxAcc := .waitingForStart, rxSize := 0 } := by
  rw [rxIdleCheck, if_pos ⟨rfl, hacc, hlate⟩]
  rfl

theorem rxIdleCheck_inTime {now : Word} {s : State}
    (h : ¬ (s.rxAcc = .readingData ∧ s.cfg.readTimeoutMs < elapsedMs now s.rxLastTime)) : rxIdleCheck now 0 s = s :=
  if_neg fun hidle => h hidle.2

/-- The idle check emits StartTimeout or nothing. -/
theorem mem_rxIdleCheck_events {now : Word} {reads : Nat} {s : State} {w : Word} (h : w ∈ (rxIdleCheck now reads s).events) :
    w ∈ s.events ∨ w = 0x34#32 := by
  unfold rxIdleCheck at h
  split at h
  · exact (List.mem_append.1 h).imp_right List.mem_singleton.1
  · exact .inl h

/-! ### The read loop's ends -/

/-- The loop stops at the first answer 0 of `T.available()` (R248). -/
theorem rxReadLoop_drained (now : Word) (k : Nat) (s : State) {l : Link} (t : Word) (h : l.available.1 = 0) :
    rxReadLoop now (k + 1) (s.withEdge l t) = { closed := false, reads := 0, state := s.withEdge l.available.2 t } := by
  simp [rxReadLoop, h]

section
variable {s u : State} {l l' : Link} {xs : List Byte} (now t : Word)

/-- A connected step that makes MAX_IN reads, none of which closes a frame, or whose reads are ended by an answer 0. -/
theorem rxConnected_open (hne : xs ≠ []) (hl : l.readsBytes xs = some l') (hu : s.accumulate xs = some u) {l'' : Link}
    (hend : xs.length = s.cfg.maxIn ∧ l'' = l' ∨ xs.length < s.cfg.maxIn ∧ l'.available.1 = 0 ∧ l'' = l'.available.2) :
    rxConnected now (s.withEdge l t) = rxFinish now xs.length (u.withEdge l'' now) := by
  have hpos : xs.length ≠ 0 := fun h => hne (List.length_eq_zero_iff.1 h)
  have hloop : rxReadLoop now s.cfg.maxIn (s.withEdge l t) =
      { closed := false, reads := xs.length, state := u.withEdge l'' now } := by
    rcases hend with ⟨hmax, rfl⟩ | ⟨hmax, hzero, rfl⟩
    · rw [← hmax, ← Nat.add_zero xs.length, rxReadLoop_readsBytes 0 hl hu, if_neg hne]
      simp [rxReadLoop]
    · obtain ⟨k, hk⟩ := Nat.exists_eq_add_of_lt hmax
      rw [hk, Nat.add_assoc, rxReadLoop_readsBytes (k + 1) hl hu, if_neg hne, rxReadLoop_drained _ _ _ _ hzero]
      simp
  simp only [rxConnected, State.withEdge_cfg, hloop, Bool.false_eq_true, if_false, rxIdleCheck_of_reads now hpos]

/-- A connected step whose reads end with a delimiter after at least MSG_MIN bytes. -/
theorem rxConnected_closes (hmax : xs.length + 1 ≤ s.cfg.maxIn) (hl : l.readsBytes (xs ++ [delimiter]) = some l')
    (hu : s.accumulate xs = some u) (hacc : u.rxAcc = .readingData) (hsize : 3 ≤ u.rxSize.toNat) :
    rxConnected now (s.withEdge l t) =
      rxFinish now (xs.length + 1) (rxDeliver ((u.withEdge l' now).withRxLife .delivering)) := by
  obtain ⟨k, hk⟩ := Nat.exists_eq_add_of_le hmax
  obtain ⟨m, hxs, hlast⟩ := Link.readsBytes_append hl
  simp only [Link.readsBytes] at hlast
  split at hlast
  next hread =>
    obtain ⟨havail, hbyte⟩ := hread
    cases hlast
    have hcloses := processByte_closes hacc hsize
    rw [← hbyte] at hcloses
    have hloop : rxReadLoop now s.cfg.maxIn (s.withEdge l t) =
        { closed := true, reads := xs.length + 1, state := u.withEdge m.available.2.read.2 now } := by
      rw [hk, show xs.length + 1 + k = xs.length + (k + 1) by omega, rxReadLoop_readsBytes (k + 1) hxs hu,
        rxReadLoop_close havail (by rw [hcloses]), hcloses, Nat.add_comm]
    simp only [rxConnected, State.withEdge_cfg, hloop, if_true]
  next => cases hlast

end

/-! ### What the reads of a step emit and write (R249 to R252) -/

/-- A byte emits TooShort, Overflow or nothing. -/
theorem mem_processByte_events {x : Byte} {s : State} {w : Word} (h : w ∈ (processByte x s).2.events) :
    w ∈ s.events ∨ w ∈ [0x14#32, 0x24#32] := by
  have hlast {e : Word} (he : e ∈ [0x14#32, 0x24#32]) (hw : w ∈ s.events ++ [e]) :
      w ∈ s.events ∨ w ∈ [0x14#32, 0x24#32] :=
    (List.mem_append.1 hw).imp_right fun hw => by rwa [List.mem_singleton.1 hw]
  cases hacc : s.rxAcc with
  | waitingForStart =>
    rw [processByte_waitingForStart x hacc] at h
    exact .inl h
  | waitingForData =>
    by_cases hx : x = delimiter
    · rw [hx, processByte_idle hacc] at h
      exact .inl h
    · rw [processByte_first hacc hx] at h
      exact .inl h
  | readingData =>
    by_cases hx : x = delimiter
    · subst hx
      by_cases hn : s.rxSize.toNat < 3
      · rw [processByte_tooShort hacc hn] at h
        exact hlast (by simp) h
      · rw [processByte_closes hacc (Nat.not_lt.1 hn)] at h
        exact .inl h
    · by_cases hn : s.rxSize.toNat < s.cfg.bufCap
      · rw [processByte_append hacc hx hn] at h
        exact .inl h
      · rw [processByte_overflow hacc hx (Nat.not_lt.1 hn)] at h
        exact hlast (by simp) h

/-- The response holds only what a connected step emits up to its last read: CONN_CHANGED(1), TooShort and Overflow. -/
def State.OnlyReadEvents (s : State) : Prop := ∀ w ∈ s.events, w ∈ [0x11#32, 0x14#32, 0x24#32]

theorem State.linkReported_onlyReadEvents (s : State) : s.linkReported.OnlyReadEvents := by
  intro w hw
  simp only [State.linkReported] at hw
  split at hw
  · simp [List.mem_singleton.1 hw]
  · cases hw

theorem processByte_onlyReadEvents (x : Byte) {s : State} (h : s.OnlyReadEvents) : (processByte x s).2.OnlyReadEvents :=
  fun w hw => (mem_processByte_events hw).elim (h w) (List.mem_cons_of_mem _)

theorem rxReadLoop_onlyReadEvents (now : Word) (k : Nat) {s : State} (h : s.OnlyReadEvents) :
    (rxReadLoop now k s).state.OnlyReadEvents :=
  rxReadLoop_induct now (fun _ hs => hs)
    (fun t ht => processByte_onlyReadEvents _ (s := (t.withLink t.link.read.2).withRxLastTime now) ht) k s h

/-- A byte is written to RXB or nowhere. -/
theorem ByteEffect.readByte_other {x : Byte} {s t : State} (h : ByteEffect x s t) {b : Region} (hb : b ≠ .rxb) (off : Nat) :
    t.mem.readByte b off = s.mem.readByte b off := by
  cases h with
  | unchanged | started | dropped => rfl
  | stored n => exact Memory.readByte_writeByte_other _ _ (.inl hb)

/-- What the bytes of a step leave alone: the configuration and every store but RXB; and what they may emit. -/
theorem linkReported_accumulate {s u : State} {xs : List Byte} (h : s.linkReported.accumulate xs = some u) :
    u.cfg = s.cfg ∧ u.OnlyReadEvents ∧ ∀ b off, b ≠ .rxb → u.mem.readByte b off = s.mem.readByte b off := by
  refine State.accumulate_induct (P := fun u => u.cfg = s.cfg ∧ u.OnlyReadEvents
    ∧ ∀ b off, b ≠ .rxb → u.mem.readByte b off = s.mem.readByte b off) ?_ h
    ⟨rfl, s.linkReported_onlyReadEvents, fun _ _ _ => rfl⟩
  rintro x t ⟨hcfg, hevents, hmem⟩
  exact ⟨(processByte_cfg x t).trans hcfg, processByte_onlyReadEvents x hevents,
    fun b off hb => ((processByte_effect x t).readByte_other hb off).trans (hmem b off hb)⟩

/-! ### A step that closes no frame -/

theorem Config.maxIn_pos {c : Config} (h : c.wf = true) : 0 < c.maxIn := by
  simp only [Config.wf, Bool.and_eq_true, decide_eq_true_eq] at h
  omega

/-- A connected step that reads nothing: the idle check alone. -/
theorem rxConnected_quiet (now : Word) {s : State} {l : Link} (t : Word) (hc : s.cfg.wf = true) (h : l.available.1 = 0) :
    rxConnected now (s.withEdge l t) = rxFinish now 0 (rxIdleCheck now 0 (s.withEdge l.available.2 t)) := by
  obtain ⟨k, hk⟩ := Nat.exists_eq_add_of_lt (Config.maxIn_pos hc)
  rw [Nat.zero_add] at hk
  simp only [rxConnected, State.withEdge_cfg, hk, rxReadLoop_drained _ _ _ _ h, Bool.false_eq_true, if_false]

/-- Settles O48: `rxConnected_quiet` with and without the timeout, and `rxConnected_open` for its two ends. -/
theorem rxStepThatClosesNoFrame : Obligations.RxStepThatClosesNoFrame := by
  intro s hon hup
  rw [exec_rxStep_connected hon hup]
  refine ⟨fun hc hquiet => ?_, fun xs l' u hne hl hu => ?_⟩
  · rw [rxConnected_quiet _ _ (s := s.linkReported) hc hquiet]
    refine ⟨fun ⟨hacc, hlate⟩ => ?_, fun hsoon => ?_⟩
    · rw [rxIdleCheck_timeout (s := s.linkReported.withEdge _ _) hacc hlate, rxFinish_passive]
      rfl
    · rw [rxIdleCheck_inTime (s := s.linkReported.withEdge _ _) hsoon, rxFinish_passive]
      rfl
  · have hpos : 0 < xs.length := List.length_pos_iff.2 hne
    obtain ⟨-, hevents, hmem⟩ := linkReported_accumulate hu
    refine ⟨hevents, hmem, fun hmax => ?_, fun hmax hzero => ?_⟩
    · rw [rxConnected_open _ _ hne hl hu (.inl ⟨hmax, rfl⟩), rxFinish_active _ hpos]
      rfl
    · rw [rxConnected_open _ _ hne hl hu (.inr ⟨hmax, hzero, rfl⟩), rxFinish_active _ hpos]
      rfl

/-! ### A delivery (R254) -/

/-- The un-stuffed bytes in RXB are a valid frame: un-stuffing succeeded with at least MSG_MIN bytes, and the stored check is
the computed one. -/
def Decoded.ValidFrame (c : Config) (r : Decoded) : Prop :=
  let check := fletcher16 (c.key ++ r.mem.readBytes .rxb 2 (r.size - 2))
  r.ok = true ∧ 3 ≤ r.size ∧ r.mem.readByte .rxb 0 = checkLow check ∧ r.mem.readByte .rxb 1 = checkHigh check

/-- The event of the delivery of a valid frame. -/
theorem deliveryEvent_of_valid {c : Config} {n : Nat} {m : Memory} (h : (cobsDecode .rxb .rxb n m).ValidFrame c) :
    deliveryEvent (messageDecodeValidate c .rxb n m) =
      .msgReceived ((cobsDecode .rxb .rxb n m).mem.readByte .rxb 2) ((cobsDecode .rxb .rxb n m).size - 3) := by
  have hwhy : (messageDecodeValidate c .rxb n m).why = .none := (messageDecodeValidate_why_eq_none c .rxb n m).2 h
  have hsize : (cobsDecode .rxb .rxb n m).decodedSize = (cobsDecode .rxb .rxb n m).size := if_pos h.1
  rw [deliveryEvent, if_pos hwhy, messageDecodeValidate_mem, messageDecodeValidate_size, hsize]
  rfl

/-- The event of any other delivery, whatever its defect. -/
theorem deliveryEvent_of_not_valid {c : Config} {n : Nat} {m : Memory} (h : ¬ (cobsDecode .rxb .rxb n m).ValidFrame c) :
    deliveryEvent (messageDecodeValidate c .rxb n m) = .rxError .crc :=
  if_neg (mt (messageDecodeValidate_why_eq_none c .rxb n m).1 h)

theorem rxDeliver_eq (s : State) :
    rxDeliver s = { s with
      mem := (cobsDecode .rxb .rxb s.rxSize.toNat s.mem).mem,
      events := s.events ++ [(deliveryEvent (messageDecodeValidate s.cfg .rxb s.rxSize.toNat s.mem)).word],
      rxAcc := .waitingForData, rxSize := 0 } := by
  simp only [rxDeliver, messageDecodeValidate_mem, State.withAccumulator_eq, State.emit_eq]
  rfl

/-- The word of a delivery holds its header and payload size, and is no other event's (R313, R314). -/
theorem Event.msgReceived_word_toNat (h : Byte) {p : Nat} (hp : p < 256) :
    (Event.msgReceived h p).word.toNat = 2 + h.toNat * 2 ^ 8 + p * 2 ^ 16 := by
  have hh := h.isLt
  simp only [Event.word, eventWord, BitVec.toNat_ofNat]
  omega

theorem Event.msgReceived_word_inj {h h' : Byte} {p p' : Nat} (hp : p < 256) (hp' : p' < 256)
    (heq : (Event.msgReceived h p).word = (Event.msgReceived h' p').word) : h = h' ∧ p = p' := by
  have hh := h.isLt
  have hh' := h'.isLt
  have hnat := congrArg BitVec.toNat heq
  rw [Event.msgReceived_word_toNat h hp, Event.msgReceived_word_toNat h' hp'] at hnat
  exact ⟨BitVec.eq_of_toNat_eq (by omega), by omega⟩

theorem Event.msgReceived_word_not_mem (h : Byte) {p : Nat} (hp : p < 256) :
    (Event.msgReceived h p).word ∉ [0x01#32, 0x11#32, 0x14#32, 0x24#32, 0x34#32, 0x44#32] := by
  have hword := Event.msgReceived_word_toNat h hp
  intro hmem
  have hkind : ∀ w ∈ [0x01#32, 0x11#32, 0x14#32, 0x24#32, 0x34#32, 0x44#32], w.toNat % 16 ≠ 2 := by simp
  exact hkind _ hmem (by omega)

/-- A state that has emitted only what reads emit has delivered nothing. -/
theorem State.OnlyReadEvents.msgReceived_not_mem {s : State} (hs : s.OnlyReadEvents) (h : Byte) {p : Nat} (hp : p < 256) :
    (Event.msgReceived h p).word ∉ s.events := fun hmem =>
  Event.msgReceived_word_not_mem h hp
    ((by decide : [0x11#32, 0x14#32, 0x24#32] ⊆ [0x01#32, 0x11#32, 0x14#32, 0x24#32, 0x34#32, 0x44#32]) (hs _ hmem))

/-- RXB holds a frame with this header and payload size whose stored check is the keyed check of its content (R261). -/
def Memory.HoldsFrame (m : Memory) (c : Config) (h : Byte) (p : Nat) : Prop :=
  let check := fletcher16 (c.key ++ m.readBytes .rxb 2 (p + 1))
  p ≤ c.psm ∧ m.readByte .rxb 2 = h ∧ m.readByte .rxb 0 = checkLow check ∧ m.readByte .rxb 1 = checkHigh check

/-- A valid frame un-stuffed from at most BUF_CAP bytes is held in RXB: un-stuffing gives fewer bytes than it reads. -/
theorem Decoded.ValidFrame.holdsFrame {c : Config} {n : Nat} {m : Memory} (hn : n ≤ c.bufCap)
    (h : (cobsDecode .rxb .rxb n m).ValidFrame c) :
    (cobsDecode .rxb .rxb n m).mem.HoldsFrame c ((cobsDecode .rxb .rxb n m).mem.readByte .rxb 2)
      ((cobsDecode .rxb .rxb n m).size - 3) := by
  have hlt := cobsDecode_size_lt .rxb .rxb n m
  obtain ⟨-, hmin, hlow, hhigh⟩ := h
  simp only [Config.bufCap] at hn
  rw [Memory.HoldsFrame, show (cobsDecode .rxb .rxb n m).size - 3 + 1 = (cobsDecode .rxb .rxb n m).size - 2 by omega]
  exact ⟨by simp only [Config.psm]; omega, rfl, hlow, hhigh⟩

/-- A delivery that adds MSG_RECEIVED to the events leaves a frame of that header and size in RXB. -/
theorem rxDeliver_holdsFrame {s : State} {h : Byte} {p : Nat} (hcap : s.rxSize.toNat ≤ s.cfg.bufCap) (hp : p < 256)
    (hnot : (Event.msgReceived h p).word ∉ s.events) (hmem : (Event.msgReceived h p).word ∈ (rxDeliver s).events) :
    (rxDeliver s).mem.HoldsFrame s.cfg h p := by
  rw [rxDeliver_eq] at hmem ⊢
  have hdeliver := List.mem_singleton.1 ((List.mem_append.1 hmem).resolve_left hnot)
  by_cases hvalid : (cobsDecode .rxb .rxb s.rxSize.toNat s.mem).ValidFrame s.cfg
  · have hlt := cobsDecode_size_lt .rxb .rxb s.rxSize.toNat s.mem
    have hreg := s.rxSize.isLt
    rw [deliveryEvent_of_valid hvalid] at hdeliver
    obtain ⟨rfl, rfl⟩ := Event.msgReceived_word_inj hp (by omega) hdeliver
    exact hvalid.holdsFrame hcap
  · rw [deliveryEvent_of_not_valid hvalid] at hdeliver
    exact absurd (by rw [hdeliver]; decide) (Event.msgReceived_word_not_mem h hp)

/-- A connected step that reports MSG_RECEIVED leaves a frame of that header and size in RXB. -/
theorem rxConnected_holdsFrame {now : Word} {s : State} {h : Byte} {p : Nat} (hc : s.cfg.wf = true) (hacc : s.AccInv)
    (hs : s.OnlyReadEvents) (hp : p < 256) (hmem : (Event.msgReceived h p).word ∈ (rxConnected now s).events) :
    (rxConnected now s).mem.HoldsFrame s.cfg h p := by
  have hnot := (rxReadLoop_onlyReadEvents now s.cfg.maxIn hs).msgReceived_not_mem h hp
  obtain ⟨-, hcap⟩ := rxReadLoop_accInv now s.cfg.maxIn hc hacc
  simp only [rxConnected, rxFinish_events, rxFinish_mem] at hmem ⊢
  split at hmem
  next hclosed =>
    rw [if_pos hclosed]
    simpa using rxDeliver_holdsFrame (s := (rxReadLoop now s.cfg.maxIn s).state.withRxLife .delivering) hcap hp hnot hmem
  next =>
    rcases mem_rxIdleCheck_events hmem with hread | hidle
    · exact absurd hread hnot
    · exact absurd (by simp [hidle]) (Event.msgReceived_word_not_mem h hp)

/-- Settles O51: only a connected step delivers, and what it then leaves in RXB is the valid frame it has un-stuffed. -/
theorem noDeliveryWithoutValidation : Obligations.NoDeliveryWithoutValidation := by
  intro s t h p hc hinv hp hstep hmem
  rcases exec_rxStep_cases hstep with rfl | rfl | rfl
  · cases hmem
  · dsimp only at hmem
    split at hmem
    · exact absurd (by simp [List.mem_singleton.1 hmem]) (Event.msgReceived_word_not_mem h hp)
    · cases hmem
  · exact rxConnected_holdsFrame (s := s.linkReported.withEdge s.connectedLink s.rxLastTime) hc hinv.accInv
      s.linkReported_onlyReadEvents hp hmem

/-! ### A step that closes a frame -/

/-- The state that a connected step leaves when it closes a frame: the frame un-stuffed in place, its event last, and the
accumulator ready for the next one. -/
theorem exec_rxStep_closes {s u : State} {l' : Link} {xs : List Byte} (hon : s.rxLife ≠ .disabled)
    (hup : s.stepConnected = true) (hmax : xs.length + 1 ≤ s.cfg.maxIn)
    (hl : s.connectedLink.readsBytes (xs ++ [delimiter]) = some l') (hu : s.linkReported.accumulate xs = some u)
    (hacc : u.rxAcc = .readingData) (hsize : 3 ≤ u.rxSize.toNat) :
    exec .rxStep s = .next { u with
      status := 0x01#32, result := 0x00000000#32, mem := (cobsDecode .rxb .rxb u.rxSize.toNat u.mem).mem, link := l',
      events := u.events ++ [(deliveryEvent (messageDecodeValidate u.cfg .rxb u.rxSize.toNat u.mem)).word],
      rxLife := .polling, rxAcc := .waitingForData, rxSize := 0, rxActive := true,
      rxLastTime := s.sampledNow, rxPollTime := s.sampledNow } := by
  rw [exec_rxStep_connected hon hup, rxConnected_closes _ _ (s := s.linkReported) hmax hl hu hacc hsize,
    rxFinish_active _ (Nat.succ_pos _), rxDeliver_eq]
  rfl

/-- A step that closes a frame: what its bytes emit and write, and the event of the delivery by the frame's validity. -/
theorem rxStep_closes_anyFrame (s : State) (xs : List Byte) (l' : Link) (u : State) (hon : s.rxLife ≠ .disabled)
    (hup : s.stepConnected = true) (hmax : xs.length + 1 ≤ s.cfg.maxIn)
    (hl : s.connectedLink.readsBytes (xs ++ [0x00#8]) = some l') (hu : s.linkReported.accumulate xs = some u)
    (hacc : u.rxAcc = .readingData) (hsize : 3 ≤ u.rxSize.toNat) :
    let r := cobsDecode .rxb .rxb u.rxSize.toNat u.mem
    (∀ w ∈ u.events, w ∈ [0x11#32, 0x14#32, 0x24#32])
    ∧ (∀ b off, b ≠ .rxb → r.mem.readByte b off = s.mem.readByte b off)
    ∧ (r.ValidFrame s.cfg → exec .rxStep s = .next { u with
        status := 0x01#32, result := 0x00000000#32, mem := r.mem, link := l',
        events := u.events ++ [(Event.msgReceived (r.mem.readByte .rxb 2) (r.size - 3)).word],
        rxLife := .polling, rxAcc := .waitingForData, rxSize := 0, rxActive := true,
        rxLastTime := s.sampledNow, rxPollTime := s.sampledNow })
    ∧ (¬ r.ValidFrame s.cfg → exec .rxStep s = .next { u with
        status := 0x01#32, result := 0x00000000#32, mem := r.mem, link := l',
        events := u.events ++ [0x44#32],
        rxLife := .polling, rxAcc := .waitingForData, rxSize := 0, rxActive := true,
        rxLastTime := s.sampledNow, rxPollTime := s.sampledNow }) := by
  obtain ⟨hcfg, hevents, hmem⟩ := linkReported_accumulate hu
  have hstep := exec_rxStep_closes hon hup hmax hl hu hacc hsize
  refine ⟨hevents, fun b off hb => ?_, fun hvalid => ?_, fun hbad => ?_⟩
  · rw [cobsDecode_readByte_other _ _ _ (.inl hb), hmem b off hb]
  · rw [hstep, hcfg, deliveryEvent_of_valid hvalid]
  · rw [hstep, hcfg, deliveryEvent_of_not_valid hbad]
    rfl

/-! ### One stuffed frame in one step (R158, R260, R262) -/

theorem Link.available_of_cons {l : Link} {n : Nat} {rest : List Nat} (h : l.availableIn = n :: rest) :
    l.available.1 = n ∧ l.available.2.availableIn = rest := by
  simp [Link.available, Link.record, Link.drawAvailable_cons h]

theorem Link.read_of_cons {l : Link} {x : Byte} {rest : List Byte} (h : l.byteIn = x :: rest) :
    l.read.1 = x ∧ l.read.2.byteIn = rest := by
  simp [Link.read, Link.record, Link.receive, Link.drawByte_cons h]

/-- A transport that offers bytes with a positive `T.available()` before each gives them, and keeps what comes later. -/
theorem Link.exists_readsBytes {l : Link} {counts : List Nat} {xs later : List Byte} (hpos : ∀ n ∈ counts, n ≠ 0)
    (hlen : counts.length = xs.length) (havail : l.availableIn = counts) (hbytes : l.byteIn = xs ++ later) :
    ∃ l', l.readsBytes xs = some l' ∧ l'.byteIn = later ∧ l'.inbound = l.inbound ++ xs ∧ l'.outbound = l.outbound := by
  induction xs generalizing l counts with
  | nil => exact ⟨l, rfl, hbytes, by simp, rfl⟩
  | cons x xs ih =>
    obtain _ | ⟨n, counts⟩ := counts
    · cases hlen
    obtain ⟨hn, hcounts⟩ := Link.available_of_cons havail
    obtain ⟨hx, hrest⟩ := Link.read_of_cons (l := l.available.2) ((Link.available_byteIn l).trans hbytes)
    obtain ⟨l', hl, hlater, hinbound, houtbound⟩ := ih (l := l.available.2.read.2) (counts := counts)
      (fun m hm => hpos m (List.mem_cons_of_mem _ hm)) (Nat.succ.inj hlen)
      ((Link.read_availableIn _).trans hcounts) hrest
    refine ⟨l', ?_, hlater, by simp [hinbound, hx], by simp [houtbound]⟩
    rw [Link.readsBytes, if_pos ⟨hn ▸ hpos n List.mem_cons_self, hx⟩, hl]

/-- Data bytes that fit behind the bytes held are appended to them (R252). -/
theorem State.accumulate_append {s : State} {xs : List Byte} (hacc : s.rxAcc = .readingData)
    (hdata : ∀ x ∈ xs, x ≠ delimiter) (hfit : s.rxSize.toNat + xs.length ≤ s.cfg.bufCap) (hcap : s.cfg.bufCap ≤ 254) :
    s.accumulate xs = some { s with
      mem := s.mem.writeBytes .rxb s.rxSize.toNat xs, rxSize := BitVec.ofNat 8 (s.rxSize.toNat + xs.length) } := by
  induction xs generalizing s with
  | nil => simp [State.accumulate, Memory.writeBytes]
  | cons x xs ih =>
    obtain ⟨hx, hxs⟩ := List.forall_mem_cons.1 hdata
    rw [List.length_cons] at hfit ⊢
    have hsize : (s.rxSize + 1).toNat = s.rxSize.toNat + 1 := by
      rw [BitVec.toNat_add]
      exact Nat.mod_eq_of_lt (by simp; omega)
    rw [State.accumulate, processByte_append hacc hx (by omega), if_neg (by simp),
      ih (s := { s with mem := s.mem.writeByte .rxb s.rxSize.toNat x, rxSize := s.rxSize + 1 }) hacc hxs
        (by simp only [hsize]; omega) hcap]
    simp only [hsize, Memory.writeBytes, Nat.add_assoc, Nat.add_comm 1]

/-- Data bytes after a start delimiter fill RXB from its first byte on (R250, R252). -/
theorem State.accumulate_fromStart {s : State} {xs : List Byte} (hacc : s.rxAcc = .waitingForData) (hne : xs ≠ [])
    (hdata : ∀ x ∈ xs, x ≠ delimiter) (hfit : xs.length ≤ s.cfg.bufCap) (hcap : s.cfg.bufCap ≤ 254) :
    s.accumulate xs = some { s with
      mem := s.mem.writeBytes .rxb 0 xs, rxAcc := .readingData, rxSize := BitVec.ofNat 8 xs.length } := by
  obtain ⟨x, xs, rfl⟩ := List.exists_cons_of_ne_nil hne
  obtain ⟨hx, hxs⟩ := List.forall_mem_cons.1 hdata
  rw [List.length_cons, Nat.add_comm] at hfit ⊢
  rw [State.accumulate, processByte_first hacc hx, if_neg (by simp),
    State.accumulate_append (s := { s with mem := s.mem.writeByte .rxb 0 x, rxAcc := .readingData, rxSize := 1 }) rfl hxs
      hfit hcap]
  rfl

/-- A stuffed frame un-stuffs in place to a valid frame of its header and payload. -/
theorem cobsDecode_validFrame {c : Config} {m : Memory} {size : Nat} {h : Byte} {p : List Byte}
    (hread : m.readBytes .rxb 0 size = cobsEncode (frameOf c (h :: p))) :
    let r := cobsDecode .rxb .rxb size m
    r.ValidFrame c ∧ r.size = p.length + 3 ∧ r.mem.readByte .rxb 2 = h ∧ r.mem.readBytes .rxb 3 p.length = p := by
  obtain ⟨hok, hsize, hframe⟩ := cobsDecode_stuffedFrame hread
  obtain ⟨hlow, hhigh, hcontent⟩ := (readBytes_eq_frameOf_iff c .rxb _ (h :: p)).1 hframe
  refine ⟨⟨hok, by simp [hsize], ?_⟩, hsize, (readBytes_eq_content_iff .rxb _ h p).1 hcontent⟩
  rw [hsize, Nat.add_sub_cancel, hcontent]
  exact ⟨hlow, hhigh⟩

/-- A polling step that reads a whole stuffed frame and its delimiter delivers the frame's header and payload, and writes the
stuffed frame's place in RXB alone. -/
theorem exec_rxStep_stuffedFrame {s : State} {l' : Link} {h : Byte} {p xs : List Byte} (hc : s.cfg.wf = true)
    (hp : p.length ≤ s.cfg.psm) (hlife : s.rxLife = .polling) (hacc : s.rxAcc = .waitingForData)
    (hup : s.stepConnected = true) (hxs : xs = cobsEncode (frameOf s.cfg (h :: p))) (hmax : xs.length + 1 ≤ s.cfg.maxIn)
    (hl : s.connectedLink.readsBytes (xs ++ [delimiter]) = some l') :
    ∃ m : Memory, exec .rxStep s = .next { s with
        status := 0x01#32, result := 0x00000000#32, mem := m, link := l', events := [(Event.msgReceived h p.length).word],
        rxLife := .polling, rxAcc := .waitingForData, rxSize := 0, rxActive := true,
        rxLastTime := s.sampledNow, rxPollTime := s.sampledNow }
      ∧ m.readByte .rxb 2 = h ∧ m.readBytes .rxb 3 p.length = p
      ∧ ∀ b off, (b ≠ .rxb ∨ xs.length ≤ off) → m.readByte b off = s.mem.readByte b off := by
  obtain ⟨hmin, hmsm⟩ := Config.msm_bounds hc
  simp only [Config.psm] at hp
  have hframeLen : (frameOf s.cfg (h :: p)).length = p.length + 3 := rfl
  have hlen : xs.length = p.length + 4 := by rw [hxs, cobsEncode_length (by omega), hframeLen]
  have hsize : (BitVec.ofNat 8 xs.length).toNat = xs.length := by
    rw [BitVec.toNat_ofNat]
    exact Nat.mod_eq_of_lt (by omega)
  have hu := State.accumulate_fromStart (s := s.linkReported) hacc (List.ne_nil_of_length_pos (by omega))
    (hxs ▸ stuffedBytesHoldNoDelimiter _) (by simp only [State.linkReported, Config.bufCap]; omega) (Config.bufCap_le hc)
  obtain ⟨hvalid, hframe, hheader, hpayload⟩ :=
    cobsDecode_validFrame ((s.mem.readBytes_writeBytes .rxb 0 xs).trans hxs)
  have hstep := exec_rxStep_closes (by simp [hlife]) hup hmax hl hu rfl (by simp only [hsize]; omega)
  have hevents : s.linkReported.events = [] := if_neg (by simp [hlife])
  refine ⟨(cobsDecode .rxb .rxb xs.length (s.mem.writeBytes .rxb 0 xs)).mem, ?_, hheader, hpayload, fun b off hoff => ?_⟩
  · simp only [hsize] at hstep
    rw [hstep]
    simp only [State.linkReported] at hvalid hheader hframe hevents ⊢
    rw [deliveryEvent_of_valid hvalid, hheader, hframe, hevents]
    rfl
  · rw [cobsDecode_readByte_other _ _ _ (hoff.imp_right fun hle => by omega)]
    exact Memory.readByte_writeBytes_other _ _ (hoff.imp_right fun hle => .inr (by omega))

/-- Settles O52: any closing step by `rxStep_closes_anyFrame`; a stuffed frame that the transport offers by
`exec_rxStep_stuffedFrame`. -/
theorem rxStepThatClosesAFrame : Obligations.RxStepThatClosesAFrame := by
  refine ⟨rxStep_closes_anyFrame, fun s h p counts later => ?_⟩
  intro stuffed hc _ hp hlife hacc hup hmax hpos hlen havail hbytes
  obtain ⟨l', hl, hlater, hinbound, houtbound⟩ :=
    Link.exists_readsBytes (xs := stuffed ++ [0x00#8]) hpos (by simpa using hlen) havail hbytes
  obtain ⟨m, hstep, hheader, hpayload, hmem⟩ := exec_rxStep_stuffedFrame hc hp hlife hacc hup rfl hmax hl
  have hinbound' : l'.inbound = s.link.inbound ++ stuffed ++ [0x00#8] := by
    rw [hinbound, List.append_assoc]
    simp [State.connectedLink, State.sampledLink]
  exact ⟨_, hstep, rfl, rfl, rfl, rfl, rfl, rfl, rfl, rfl, rfl, hheader, hpayload, hlater, hinbound', hmem, rfl, rfl, rfl, rfl,
    rfl, rfl, houtbound.trans s.connectedLink_outbound⟩

end Sys2Proof.Machine
end

/-! # The host access commands (46_host_access.md)

BUF_RD and BUF_WR share their first check, a reserved id or an offset past the buffer. REG_RD is a lookup in the table of R41:
`State.registerTable` lists it, and `State.register?` answers on exactly the numbers it lists. -/

section
namespace Sys2Proof.Machine

/-- A command that only raises RANGE leaves its response: the code, RESULT 0, no events and no calls (R12, R317). -/
theorem State.beginCommand_raise_range (s : State) : s.beginCommand.raise .range = s.responded 0x20#32 0 := rfl

/-! ### BUF_RD (R290) -/

/-- BUF_RD of a buffer: its one check, then the byte. -/
theorem exec_bufRd {buf : BufId} {b : Region} (hb : regionOf buf = some b) (off : Nat) (s : State) :
    exec (.bufRd buf off) s =
      if s.cfg.bufCap ≤ off then .next (s.responded 0x20#32 0)
      else .next (s.responded 0x01#32 ((s.mem.readByte b off).setWidth 32)) := by
  simp only [exec, execBufRd, hb]
  rfl

/-- A reserved id or an offset past BUF_CAP ends BUF_RD at its check. -/
theorem exec_bufRd_range {buf : BufId} {off : Nat} {s : State} (h : buf = .reserved ∨ s.cfg.bufCap ≤ off) :
    exec (.bufRd buf off) s = .next (s.responded 0x20#32 0) := by
  cases hb : regionOf buf with
  | none => simp only [exec, execBufRd, hb, State.beginCommand_raise_range]
  | some b => rw [exec_bufRd hb, if_pos (rangeCause_of_regionOf hb hb (.inr h))]

/-- Settles O15: the two sides of BUF_RD's check; it does not look at the owner. -/
theorem bufRdReadsOneByte : Obligations.BufRdReadsOneByte := by
  refine fun buf off s => ⟨exec_bufRd_range, fun b hb hoff => ?_⟩
  rw [exec_bufRd hb, if_neg (Nat.not_le.2 hoff)]

/-! ### BUF_WR (R291) -/

/-- BUF_WR of a buffer: its checks in their order, then the write. -/
theorem exec_bufWr {buf : BufId} {b : Region} (hb : regionOf buf = some b) (off : Nat) (val : Byte) (s : State) :
    exec (.bufWr buf off val) s =
      if s.cfg.bufCap ≤ off then .next (s.responded 0x20#32 0)
      else if s.owned b then .next (s.responded 0x40#32 0)
      else .next { s.responded 0x01#32 0 with mem := s.mem.writeByte b off val } := by
  simp only [exec, execBufWr, hb, State.owned_beginCommand]
  rfl

/-- A reserved id or an offset past BUF_CAP ends BUF_WR at its first check. -/
theorem exec_bufWr_range {buf : BufId} {off : Nat} {val : Byte} {s : State} (h : buf = .reserved ∨ s.cfg.bufCap ≤ off) :
    exec (.bufWr buf off val) s = .next (s.responded 0x20#32 0) := by
  cases hb : regionOf buf with
  | none => simp only [exec, execBufWr, hb, State.beginCommand_raise_range]
  | some b => rw [exec_bufWr hb, if_pos (rangeCause_of_regionOf hb hb (.inr h))]

/-- Settles O16: `exec_bufWr` check by check, and the memory after one write (R65). -/
theorem bufWrWritesOneByte : Obligations.BufWrWritesOneByte := by
  refine fun buf off val s => ⟨exec_bufWr_range, fun b hb hoff => ?_⟩
  rw [exec_bufWr hb, if_neg (Nat.not_le.2 hoff)]
  refine ⟨fun hown => if_pos hown, fun hown => ⟨s.mem.writeByte b off val, ?_, Memory.readByte_writeByte_same ..,
    fun _ _ => Memory.readByte_writeByte_other _ _⟩⟩
  rw [if_neg (by simp [hown])]

/-! ### REG_RD (R292, R41) -/

/-- The register table of R41: each valid number with the register or constant it names. -/
def State.registerTable (s : State) : List (Nat × Nat) :=
  [(0x00, s.status.toNat), (0x01, s.txState.code), (0x02, s.txSize.toNat), (0x03, s.txSent.toNat),
   (0x04, s.txStartTime.toNat), (0x08, s.rxLife.code), (0x09, s.rxAcc.code), (0x0A, s.rxSize.toNat),
   (0x0B, s.rxLastTime.toNat), (0x0C, s.rxPollTime.toNat), (0x0D, s.rxActive.toNat), (0x10, s.cfg.msm),
   (0x11, s.cfg.msm + 1), (0x12, s.cfg.maxOut), (0x13, s.cfg.maxIn), (0x14, s.cfg.writeTimeoutMs),
   (0x15, s.cfg.readTimeoutMs), (0x16, s.cfg.pollPeriodMs), (0x17, s.cfg.disconnectedPollMs), (0x18, s.cfg.txMinHeadroom)]

/-- A listed number reads as its entry, zero-extended. -/
theorem State.register?_of_mem_registerTable {s : State} {row : Nat × Nat} (h : row ∈ s.registerTable) :
    s.register? row.1 = some (BitVec.ofNat 32 row.2) := by
  revert row
  simp [State.registerTable, State.register?, Config.bufCap]

/-- A number that is not listed reads as nothing. -/
theorem State.register?_of_not_mem_registerTable {s : State} {number : Nat}
    (h : number ∉ s.registerTable.map Prod.fst) : s.register? number = none := by
  unfold State.register?
  split
  case h_21 => rfl
  all_goals simp [State.registerTable] at h

/-- No register shows the events and calls that a command empties at its start, so number 0 is STATUS as it stood before. -/
theorem State.register?_beginCommand (s : State) (number : Nat) : s.beginCommand.register? number = s.register? number := rfl

/-- REG_RD answers what its lookup finds, or RANGE. -/
theorem exec_regRd (number : Nat) (s : State) :
    exec (.regRd number) s =
      .next ((s.register? number).elim (s.responded 0x20#32 0) (s.responded 0x01#32)) := by
  simp only [exec, execRegRd, State.register?_beginCommand, State.beginCommand_raise_range, State.beginCommand_succeed]
  cases s.register? number <;> rfl

/-- Settles O17: REG_RD's lookup, on the listed numbers and on the others. -/
theorem regRdReadsTheRegisterTable : Obligations.RegRdReadsTheRegisterTable := by
  refine fun s => ⟨fun row hrow => ?_, fun number hnumber => ?_⟩
  · rw [exec_regRd, State.register?_of_mem_registerTable hrow, Option.elim_some]
  · rw [exec_regRd, State.register?_of_not_mem_registerTable hnumber, Option.elim_none]

end Sys2Proof.Machine
end

/-! # Command errors, re-arm requests and the two machines side by side (60_exceptions.md)

`exec_yields` reads every command once, check by check: its outcome is a next state, and where that state reports a refusal up
to KEY it is the response and nothing else. R310 and R312 are its two halves. -/

section
namespace Sys2Proof.Machine

/-! ### Outcomes that are a next state -/

/-- The outcome is a next state, and that state has the property `P`. -/
def Yields (P : State → Prop) (r : Result) : Prop := ∃ t, r = .next t ∧ P t

theorem Yields.next {P : State → Prop} {t : State} (h : P t) : Yields P (.next t) := ⟨t, rfl, h⟩

theorem Yields.ite {P : State → Prop} {c : Prop} [Decidable c] {r₁ r₂ : Result} (h₁ : Yields P r₁) (h₂ : Yields P r₂) :
    Yields P (if c then r₁ else r₂) := by
  split
  · exact h₁
  · exact h₂

theorem Yields.ensures {P : State → Prop} {r : Result} (h : Yields P r) : Ensures P r := by
  obtain ⟨t, rfl, ht⟩ := h
  exact .next ht

/-! ### A refusal up to KEY (R312) -/

/-- The STATUS words of RANGE, OVERLAP, BUSY and KEY (R311). -/
def refusalWords : List Word := [0x20#32, 0x30#32, 0x40#32, 0x50#32]

/-- If `t` reports a refusal up to KEY, it is `s` with that response, these events and this edge. -/
def State.RefusedOnly (s : State) (events : List Word) (l : Link) (t : State) : Prop :=
  t.status ∈ refusalWords → t = { s.responded t.status 0 with events := events, link := l }

section
variable (s : State) {events : List Word} {l : Link}

/-- A check that fails ends a command with its response. -/
theorem State.yields_refusal (w : Word) : Yields (s.RefusedOnly [] s.link.forgetCalls) (.next (s.responded w 0)) :=
  .next fun _ => rfl

/-- A command that ends with any other STATUS was not refused up to KEY. -/
theorem State.yields_other {t : State} (w : Word) (hw : w ∉ refusalWords := by decide) (ht : t.status = w := by rfl) :
    Yields (s.RefusedOnly events l) (.next t) :=
  .next fun hrefused => absurd (ht ▸ hrefused) hw

theorem exec_bufRd_yields (buf : BufId) (off : Nat) :
    Yields (s.RefusedOnly [] s.link.forgetCalls) (exec (.bufRd buf off) s) := by
  cases hb : regionOf buf with
  | none =>
    rw [exec_bufRd_range (.inl (regionOf_eq_none hb))]
    exact s.yields_refusal _
  | some b =>
    rw [exec_bufRd hb]
    exact .ite (s.yields_refusal _) (s.yields_other 0x01#32)

theorem exec_bufWr_yields (buf : BufId) (off : Nat) (val : Byte) :
    Yields (s.RefusedOnly [] s.link.forgetCalls) (exec (.bufWr buf off val) s) := by
  cases hb : regionOf buf with
  | none =>
    rw [exec_bufWr_range (.inl (regionOf_eq_none hb))]
    exact s.yields_refusal _
  | some b =>
    rw [exec_bufWr hb]
    exact .ite (s.yields_refusal _) (.ite (s.yields_refusal _) (s.yields_other 0x01#32))

theorem exec_regRd_yields (number : Nat) :
    Yields (s.RefusedOnly [] s.link.forgetCalls) (exec (.regRd number) s) := by
  rw [exec_regRd]
  cases s.register? number with
  | none => exact s.yields_refusal _
  | some v => exact s.yields_other 0x01#32

theorem exec_frameEncode_yields (src dst : BufId) (n : Nat) :
    Yields (s.RefusedOnly [] s.link.forgetCalls) (exec (.frameEncode src dst n) s) := by
  cases ha : regionOf src with
  | none =>
    rw [exec_frameEncode_range (.inl (regionOf_eq_none ha))]
    exact s.yields_refusal _
  | some a =>
    cases hb : regionOf dst with
    | none =>
      rw [exec_frameEncode_range (.inr (.inl (regionOf_eq_none hb)))]
      exact s.yields_refusal _
    | some b =>
      rw [exec_frameEncode ha hb]
      exact .ite (s.yields_refusal _) (.ite (s.yields_refusal _) (.ite (s.yields_refusal _) (s.yields_other 0x01#32)))

theorem exec_frameDecode_yields (src dst : BufId) (n : Nat) :
    Yields (s.RefusedOnly [] s.link.forgetCalls) (exec (.frameDecode src dst n) s) := by
  cases ha : regionOf src with
  | none =>
    rw [exec_frameDecode_range (.inl (regionOf_eq_none ha))]
    exact s.yields_refusal _
  | some a =>
    cases hb : regionOf dst with
    | none =>
      rw [exec_frameDecode_range (.inr (.inl (regionOf_eq_none hb)))]
      exact s.yields_refusal _
    | some b =>
      rw [exec_frameDecode ha hb]
      exact .ite (s.yields_refusal _)
        (.ite (s.yields_refusal _) (.ite (s.yields_other 0x01#32) (s.yields_other 0x60#32)))

theorem exec_checkCompute_yields (buf : BufId) (off len : Nat) :
    Yields (s.RefusedOnly [] s.link.forgetCalls) (exec (.checkCompute buf off len) s) := by
  cases hb : regionOf buf with
  | none =>
    rw [exec_checkCompute_range (.inl (regionOf_eq_none hb))]
    exact s.yields_refusal _
  | some b =>
    rw [exec_checkCompute hb]
    exact .ite (s.yields_refusal _) (.ite (s.yields_refusal _) (s.yields_other 0x01#32))

theorem exec_msgEncode_yields (buf : BufId) (n : Nat) :
    Yields (s.RefusedOnly [] s.link.forgetCalls) (exec (.msgEncode buf n) s) := by
  cases hb : regionOf buf with
  | none =>
    rw [exec_msgEncode_range (.inl (regionOf_eq_none hb))]
    exact s.yields_refusal _
  | some b =>
    rw [exec_msgEncode hb]
    exact .ite (s.yields_refusal _) (.ite (s.yields_refusal _) (.ite (s.yields_refusal _) (s.yields_other 0x01#32)))

theorem exec_msgDecode_yields (buf : BufId) (size : Nat) :
    Yields (s.RefusedOnly [] s.link.forgetCalls) (exec (.msgDecode buf size) s) := by
  cases hb : regionOf buf with
  | none =>
    rw [exec_msgDecode_range (.inl (regionOf_eq_none hb))]
    exact s.yields_refusal _
  | some b =>
    rw [exec_msgDecode hb]
    exact .ite (s.yields_refusal _) (.ite (s.yields_refusal _) (.ite (s.yields_refusal _)
      (.ite (s.yields_other 0x60#32) (.ite (s.yields_other 0x01#32) (s.yields_other 0x70#32)))))

theorem exec_txCansend_yields : Yields (s.RefusedOnly [] s.link.forgetCalls) (exec .txCansend s) := by
  rw [exec_txCansend]
  exact .ite (s.yields_other 0x01#32) (s.yields_other 0x01#32)

/-- TX_SEND samples NOW before its first check (R204). -/
theorem exec_txSend_yields (n : Nat) : Yields (s.RefusedOnly [] s.sampledLink) (exec (.txSend n) s) := by
  rw [exec_txSend]
  exact .ite (.next fun _ => rfl) (.ite (s.yields_other 0x80#32) (.ite (s.yields_other 0x80#32)
    (.ite (s.yields_other 0x80#32) (s.yields_other 0x01#32))))

/-- RX_START's refusal for want of a key reports the SetupError event (R242). -/
theorem exec_rxStart_yields : Yields (s.RefusedOnly [0x54#32] s.link.forgetCalls) (exec .rxStart s) := by
  rw [exec_rxStart]
  exact .ite (s.yields_other 0x01#32) (.ite (.next fun _ => rfl) (s.yields_other 0x01#32))

theorem exec_rxStop_yields : Yields (s.RefusedOnly [] s.link.forgetCalls) (exec .rxStop s) := by
  rw [exec_rxStop]
  exact .ite (s.yields_other 0x01#32) (s.yields_other 0x01#32)

end

/-- The events of a command that is refused up to KEY. -/
def refusalEvents (i : Instr) : List Word := if i = .rxStart then [0x54#32] else []

/-- The edge after a command that is refused up to KEY. -/
def State.refusalLink (s : State) (i : Instr) : Link :=
  match i with
  | .txSend _ => s.sampledLink
  | _ => s.link.forgetCalls

/-- Every command answers a next state, and where that reports a refusal up to KEY the command had no other effect. -/
theorem exec_yields (i : Instr) (s : State) : Yields (s.RefusedOnly (refusalEvents i) (s.refusalLink i)) (exec i s) := by
  cases i with
  | bufRd buf off => exact exec_bufRd_yields s buf off
  | bufWr buf off val => exact exec_bufWr_yields s buf off val
  | regRd number => exact exec_regRd_yields s number
  | frameEncode src dst n => exact exec_frameEncode_yields s src dst n
  | frameDecode src dst n => exact exec_frameDecode_yields s src dst n
  | checkCompute buf off len => exact exec_checkCompute_yields s buf off len
  | msgEncode buf n => exact exec_msgEncode_yields s buf n
  | msgDecode buf size => exact exec_msgDecode_yields s buf size
  | txCansend => exact exec_txCansend_yields s
  | txSend n => exact exec_txSend_yields s n
  | rxStart => exact exec_rxStart_yields s
  | rxStop => exact exec_rxStop_yields s
  | txStep => exact s.yields_other 0x01#32 (ht := txStepAt_status _ _)
  | rxStep => exact s.yields_other 0x01#32 (ht := rxStepAt_status _ _)
  | checkSetup | layoutMsgsize | layoutPaysize | txStop | rxWake => exact s.yields_other 0x01#32

/-- Settles O56: the second half of `exec_yields`. -/
theorem aCommandRefusedUpToKeyHasNoEffect : Obligations.ACommandRefusedUpToKeyHasNoEffect :=
  fun i s t h => (exec_yields i s).ensures t h

/-! ### No trap (R310) -/

/-- No command faults or is refused a meaning. -/
theorem exec_answers_next (i : Instr) (s : State) : ∃ t, exec i s = .next t := by
  obtain ⟨t, h, -⟩ := exec_yields i s
  exact ⟨t, h⟩

/-- Settles O7: an idle step, a command and an illegal word each answer a next state. -/
theorem everyStepAnswersANextState : Obligations.EveryStepAnswersANextState := by
  intro s
  cases hp : s.pending with
  | nil => exact ⟨s, step_of_idle hp⟩
  | cons w rest =>
    cases hd : decode w with
    | ok i =>
      rw [step_of_decode hp hd]
      exact exec_answers_next i _
    | error e => exact ⟨illegalCommand (s.withPending rest), by simp only [step, State.nextCommand?, hp, hd]⟩

/-! ### Re-arm requests (R322) -/

/-- The requests that TX_STEP, RX_STEP and RX_WAKE make: of delays, the two polling periods of the configuration. -/
def State.requests (s : State) : List Rearm :=
  [.immediate, .suspend, .delay s.cfg.pollPeriodMs, .delay s.cfg.disconnectedPollMs]

theorem Config.pollPeriods_le {c : Config} (h : c.wf = true) :
    c.pollPeriodMs ≤ 2 ^ 30 - 1 ∧ c.disconnectedPollMs ≤ 2 ^ 30 - 1 := by
  simp only [Config.wf, Bool.and_eq_true, decide_eq_true_eq] at h
  omega

/-- A delay below 2^30 stays clear of the kind bits 31:30. -/
theorem Rearm.delay_word_toNat {ms : Nat} (h : ms ≤ 2 ^ 30 - 1) : (Rearm.delay ms).word.toNat = 0x40000000 + ms := by
  rw [Rearm.word, BitVec.toNat_ofNat]
  omega

/-- The words of a legal configuration's requests. -/
theorem State.requests_word {s : State} (hc : s.cfg.wf = true) {r : Rearm} (hr : r ∈ s.requests) :
    r.word = 0x00000000#32 ∨ r.word = 0x80000000#32 ∨ ∃ d : Nat, d ≤ 2 ^ 30 - 1 ∧ r.word.toNat = 0x40000000 + d := by
  obtain ⟨hpoll, hdown⟩ := Config.pollPeriods_le hc
  simp only [State.requests, List.mem_cons, List.not_mem_nil, or_false] at hr
  obtain rfl | rfl | rfl | rfl := hr
  · exact .inl rfl
  · exact .inr (.inl rfl)
  · exact .inr (.inr ⟨_, hpoll, Rearm.delay_word_toNat hpoll⟩)
  · exact .inr (.inr ⟨_, hdown, Rearm.delay_word_toNat hdown⟩)

/-- `t` carries one of those requests in RESULT. -/
def State.Requests (s t : State) : Prop := ∃ r ∈ s.requests, t.result = r.word

theorem State.requests_immediate {s t : State} (h : t.result = 0x00000000#32) : s.Requests t :=
  ⟨.immediate, by simp [State.requests], h⟩

theorem State.requests_suspend {s t : State} (h : t.result = 0x80000000#32) : s.Requests t :=
  ⟨.suspend, by simp [State.requests], h⟩

/-- The unit of work of a TX_STEP goes on at once, or has just ended the send (R208 to R210). -/
theorem txWork_result (room : Nat) (s : State) :
    (txWork room s).result = 0x00000000#32 ∨ (txWork room s).result = 0x80000000#32 := by
  simp only [txWork, txStartDelimiter, txData_eq, txEndDelimiter]
  repeat' split
  all_goals simp [Rearm.word]

theorem exec_txStep_requests (s : State) : Ensures s.Requests (exec .txStep s) := by
  rw [exec_txStep_eq]
  refine .next ?_
  rcases txStepAt_cases s.sampledNow (s.beginCommand.withLink s.sampledLink) with
    ⟨_, h⟩ | ⟨_, _, _, _, h⟩ | ⟨_, _, _, h⟩ | ⟨_, _, _, h⟩ <;> rw [h]
  · exact State.requests_suspend rfl
  · exact State.requests_suspend rfl
  · exact State.requests_suspend rfl
  · exact (txWork_result _ _).elim State.requests_immediate State.requests_suspend

/-- A connected RX_STEP goes on at once if it read a byte, else after the poll period (R257). -/
theorem rxFinish_requests (s : State) (now : Word) (reads : Nat) {u : State} (hu : u.cfg = s.cfg) :
    s.Requests (rxFinish now reads u) := by
  rcases Nat.eq_zero_or_pos reads with rfl | hreads
  · rw [rxFinish_passive]
    exact ⟨.delay s.cfg.pollPeriodMs, by simp [State.requests], by rw [hu]; rfl⟩
  · rw [rxFinish_active now hreads]
    exact State.requests_immediate rfl

@[simp] theorem State.linkReported_cfg (s : State) : s.linkReported.cfg = s.cfg := rfl

theorem exec_rxStep_requests (s : State) : Ensures s.Requests (exec .rxStep s) := by
  intro t h
  rcases exec_rxStep_cases h with rfl | rfl | rfl
  · exact State.requests_suspend rfl
  · exact ⟨.delay s.cfg.disconnectedPollMs, by simp [State.requests], rfl⟩
  · refine rxFinish_requests s _ _ ?_
    split <;> simp

theorem exec_rxWake_requests (s : State) : Ensures s.Requests (exec .rxWake s) := by
  rw [rxWakeOnlyAnswers s]
  refine .next ?_
  by_cases hoff : s.rxLife = .disabled
  · exact State.requests_suspend (if_pos hoff)
  · exact State.requests_immediate (if_neg hoff)

/-- Settles O59: each of the three commands carries one of `State.requests`. -/
theorem reArmRequestsAreWellFormed : Obligations.ReArmRequestsAreWellFormed := by
  intro i s t hc hi h
  have hrequests : s.Requests t := by
    simp only [List.mem_cons, List.not_mem_nil, or_false] at hi
    obtain rfl | rfl | rfl := hi
    · exact exec_txStep_requests s t h
    · exact exec_rxStep_requests s t h
    · exact exec_rxWake_requests s t h
  obtain ⟨r, hr, hresult⟩ := hrequests
  rw [hresult]
  exact State.requests_word hc hr

/-! ### The two machines side by side (R331) -/

/-- What a TX command leaves alone: the Receiver's registers, and all of buffer memory. -/
def State.receiverPart (s : State) : RxLife × RxAcc × BitVec 8 × Word × Word × Bool × Memory :=
  (s.rxLife, s.rxAcc, s.rxSize, s.rxLastTime, s.rxPollTime, s.rxActive, s.mem)

/-- What an RX command leaves alone: the Transmitter's registers, and every store but RXB. -/
def State.transmitterPart (s : State) :
    TxState × BitVec 8 × BitVec 8 × Word × List Host.Cell × List Host.Cell × List Host.Cell :=
  (s.txState, s.txSize, s.txSent, s.txStartTime, s.mem.txb, s.mem.aux, s.mem.scratch)

theorem exec_txCansend_receiverPart (s : State) : Ensures (·.receiverPart = s.receiverPart) (exec .txCansend s) := by
  rw [exec_txCansend]
  exact .ite (.next rfl) (.next rfl)

theorem exec_txSend_receiverPart (n : Nat) (s : State) :
    Ensures (·.receiverPart = s.receiverPart) (exec (.txSend n) s) := by
  rw [exec_txSend]
  exact .ite (.next rfl) (.ite (.next rfl) (.ite (.next rfl) (.ite (.next rfl) (.next rfl))))

theorem exec_txStep_receiverPart (s : State) : Ensures (·.receiverPart = s.receiverPart) (exec .txStep s) := by
  rw [exec_txStep_eq]
  exact .next (by simp [State.receiverPart])

theorem exec_rxStart_transmitterPart (s : State) : Ensures (·.transmitterPart = s.transmitterPart) (exec .rxStart s) := by
  rw [exec_rxStart]
  exact .ite (.next rfl) (.ite (.next rfl) (.next rfl))

theorem exec_rxStop_transmitterPart (s : State) : Ensures (·.transmitterPart = s.transmitterPart) (exec .rxStop s) := by
  rw [exec_rxStop]
  exact .ite (.next rfl) (.next rfl)

/-- RX_STEP writes no store but RXB, and no register of the Transmitter. -/
theorem exec_rxStep_transmitterPart (s : State) : Ensures (·.transmitterPart = s.transmitterPart) (exec .rxStep s) := by
  have hcells {b : Region} (hb : b ≠ .rxb) :=
    rxStepAt_cells s.sampledNow (s.beginCommand.withLink s.sampledLink) hb
  have htxb := hcells (b := .txb) (by decide)
  have haux := hcells (b := .aux) (by decide)
  have hscratch := hcells (b := .scratch) (by decide)
  simp only [Memory.cells] at htxb haux hscratch
  rw [exec_rxStep_eq]
  exact .next (by simp [State.transmitterPart, htxb, haux, hscratch])

/-- Settles O54: each TX command leaves the Receiver's part as it was, and each RX command the Transmitter's. -/
theorem transmitterAndReceiverShareNothing : Obligations.TransmitterAndReceiverShareNothing := by
  intro i s t h
  refine ⟨fun htx => ?_, fun hrx => ?_⟩
  · have hpart : t.receiverPart = s.receiverPart := by
      simp only [List.mem_cons, List.not_mem_nil, or_false] at htx
      obtain (rfl | rfl | rfl) | ⟨n, rfl⟩ := htx
      · exact exec_txCansend_receiverPart s t h
      · exact exec_txStep_receiverPart s t h
      · rw [txStopCancelsTheSend s] at h
        cases h
        rfl
      · exact exec_txSend_receiverPart n s t h
    simpa only [State.receiverPart, Prod.mk.injEq] using hpart
  · have hpart : t.transmitterPart = s.transmitterPart := by
      simp only [List.mem_cons, List.not_mem_nil, or_false] at hrx
      obtain rfl | rfl | rfl | rfl := hrx
      · exact exec_rxStart_transmitterPart s t h
      · exact exec_rxStop_transmitterPart s t h
      · exact exec_rxStep_transmitterPart s t h
      · rw [rxWakeOnlyAnswers s] at h
        cases h
        rfl
    simpa only [State.transmitterPart, Prod.mk.injEq] using hpart

end Sys2Proof.Machine
end

/-! # Reset (70_reset_and_hazards.md R350, R351) -/

section
namespace Sys2Proof.Machine

/-- Settles O12: `State.resetWith` writes every field of the block out, so each clause is the field's own equation. -/
theorem resetLeavesEveryRegisterAtItsValue : Obligations.ResetLeavesEveryRegisterAtItsValue := by
  intro c
  and_intros <;> rfl

end Sys2Proof.Machine
end
